-- ==== Sys2Proof/Word.lean ====
section
/-! DEFINITION. The word types of the CORE (00_scope.md R9). -/

namespace Sys2Proof

/-- A 32-bit word: a header, an operand word, a delta slot, a kernel tap, or one of the 32-bit
registers (00_scope.md R9). Whether it is read signed (`BitVec.toInt`, the spec's `s32`) or
unsigned (`BitVec.toNat`) is said where it is read (30_encoding.md R84). -/
abbrev Word := BitVec 32

/-- A PCM sample, 16-bit two's complement (00_scope.md R9, 20_memory.md R63). -/
abbrev Sample := BitVec 16

/-- A command frame of 96 bits: W0 in bits 31..0, A in bits 63..32, B in bits 95..64
(30_encoding.md R81). -/
abbrev Frame := BitVec 96

/-- One byte of a byte-wide transport (20_memory.md R65). -/
abbrev Byte := BitVec 8

end Sys2Proof
end

