-- ==== Sys2Proof/Config.lean ====
section
/-! DEFINITION. The implementation parameters of the CORE (00_scope.md R7, R8) and the one open
parameter, the kernel generator (43_synth.md R166). No command changes a parameter (R6, R36). -/

namespace Sys2Proof

/-- Variant of a synthesizer unit, with the kernel width W of a FULL unit
(`SYN_VARIANT`, `SYN_WIDTH`; 00_scope.md R7, 43_synth.md R160). -/
inductive SynthKind
  | fast
  | full (width : Nat)
  deriving DecidableEq, Repr

/-- The composition the multi-buffer commands implement (45_multi_buffer.md R210). -/
inductive Composition
  | mono
  | stereo
  | silent
  deriving DecidableEq, Repr

/-- The parameters of 00_scope.md R7 that an implementation fixes. `NSYNTH` is the length of
`synths`; `EXTRA` and `RES` are derived; `SAMPLE_SHIFT` is fixed. -/
structure Config where
  /-- `FIXED_BITS`: fractional bits of a sample position. -/
  fixedBits : Nat
  /-- `PHASE_BITS`: log2 of the number of kernel phases. -/
  phaseBits : Nat
  /-- `MAXQ`: the maximum kernel width. -/
  maxq : Nat
  /-- `KERNEL_UNIT_BASE`: the tap sum of one phase of a fresh kernel. -/
  kernelUnitBase : Nat
  /-- `BUF_CAPACITY`: delta slots of each buffer unit. -/
  bufCapacity : Nat
  /-- The synthesizer units, `NSYNTH` of them, each with its variant and width. -/
  synths : List SynthKind
  /-- `COMPOSITION`. -/
  composition : Composition
  /-- `MAX_CHANNELS`: channel slots of the multi-buffer layer. -/
  maxChannels : Nat
  deriving DecidableEq, Repr

/-- `SAMPLE_SHIFT`, the fractional bits of a delta and of the accumulator, fixed at 14 (00_scope.md R7). -/
def sampleShift : Nat := 14

/-- `EXTRA = MAXQ + 2` (00_scope.md R7). -/
def Config.extra (c : Config) : Nat := c.maxq + 2

/-- `RES = 2^PHASE_BITS` (00_scope.md R8). -/
def Config.res (c : Config) : Nat := 2 ^ c.phaseBits

/-- `NSYNTH` (00_scope.md R7). -/
def Config.nsynth (c : Config) : Nat := c.synths.length

/-- The width constraint of 00_scope.md R7: W even and 2 ≤ W ≤ MAXQ for a FULL unit. -/
def SynthKind.widthOk (maxq : Nat) : SynthKind → Bool
  | .fast => true
  | .full w => w % 2 == 0 && 2 ≤ w && w ≤ maxq

/-- The constraints 00_scope.md R7 puts on the parameters. -/
def Config.valid (c : Config) : Bool :=
  1 ≤ c.fixedBits && c.fixedBits ≤ 31 &&
  1 ≤ c.phaseBits && c.phaseBits ≤ c.fixedBits &&
  c.maxq % 2 == 0 && 2 ≤ c.maxq &&
  1 ≤ c.kernelUnitBase && c.kernelUnitBase < 2 ^ 31 &&
  c.extra < c.bufCapacity && c.bufCapacity ≤ 2 ^ (32 - c.fixedBits) - 1 &&
  1 ≤ c.nsynth && c.nsynth ≤ 16 &&
  c.synths.all (SynthKind.widthOk c.maxq) &&
  c.maxChannels ≤ 65535

/-- The default of every parameter (00_scope.md R7): four synthesizer units, s0 and s2 FAST, s1 FULL
with W = 2, s3 FULL with W = 4; composition STEREO. -/
def Config.default : Config where
  fixedBits := 16
  phaseBits := 6
  maxq := 16
  kernelUnitBase := 32768
  bufCapacity := 65535
  synths := [.fast, .full 2, .fast, .full 4]
  composition := .stereo
  maxChannels := 32

/-- The kernel generator `P_KGEN` of an implementation, open (43_synth.md R166, 92_eei_decisions.md
D23): for a treble code and a width, a table of phases of taps. A FREE VALUE (assumption log 7):
nothing in Lean evaluates it. The machine reads it only through `Machine.kernelTable`, which holds
it to what R166 requires. -/
opaque Config.kernelGenerator : Config → Word → Nat → List (List Word)

end Sys2Proof
end

