-- ==== Sys2Proof/Syntax.lean ====
section
/-! DEFINITION. The commands of the CORE: one constructor per row of spec/opcode_table.json
(30_encoding.md R80), with the operands its format carries (R81, R84, R85). -/

namespace Sys2Proof

/-- A buffer unit: 0 LEFT, 1 RIGHT, 2 CENTER (10_state.md R23; 30_encoding.md R85). -/
inductive BufUnit
  | left
  | right
  | center
  deriving DecidableEq, Repr

/-- Where a synthesizer writes: a buffer unit, or NONE (selector values 0..3; 30_encoding.md R85,
10_state.md R29 register `out`). -/
abbrev Route := Option BufUnit

/-- The buffer selector of SYN_OFFSET and SYN_UPDATE: an explicit route (`bsel` 0..3), or ROUTED
(`bsel` 4), the synthesizer unit's own `out` (30_encoding.md R85, 43_synth.md R167). -/
inductive BufSel
  | explicit (r : Route)
  | routed
  deriving DecidableEq, Repr

/-- The selector `u` of formats S and SB, a four-bit field (30_encoding.md R81). -/
abbrev SynthSel := BitVec 4

/-- The 33 commands. Operand words that a command ignores (30_encoding.md R81) are not part of it. -/
inductive Instr
  | setRates (b : BufUnit) (clockRate sampleRate : Word)
  | setLength (b : BufUnit) (msec : Word)
  | bassFreq (b : BufUnit) (freq : Word)
  | clear (b : BufUnit)
  | toFixed (b : BufUnit) (tick : Word)
  | deposit (b : BufUnit) (position delta : Word)
  | endFrame (b : BufUnit) (duration : Word)
  | samplesAvail (b : BufUnit)
  | readSamples (b : BufUnit) (maxCount : Word)
  | removeSilence (b : BufUnit) (count : Word)
  | removeSamples (b : BufUnit) (count : Word)
  | nonSilent (b : BufUnit)
  | removeAllSamples (b : BufUnit)
  | getFlags (b : BufUnit)
  | synOutput (u : SynthSel) (route : Route)
  | synVolume (u : SynthSel) (deltaFactor shift : Word)
  | synTrebleEq (u : SynthSel) (eq : Word)
  | synOffset (u : SynthSel) (sel : BufSel) (ticks delta : Word)
  | synUpdate (u : SynthSel) (sel : BufSel) (ticks amplitude : Word)
  | synSetAmp (u : SynthSel) (amplitude : Word)
  | readPairs (pairCount : Word)
  | mbSetChannelCount (count : Word)
  | mbSetChannelType (index tag : Word)
  | mbChannel (index : Word)
  | mbSetSampleRate (sampleRate msec : Word)
  | mbClockRate (clockRate : Word)
  | mbBassFreq (freq : Word)
  | mbClear
  | mbEndFrame (duration : Word)
  | mbReadSamples (maxCount : Word)
  | mbSamplesAvail
  | mbChanged
  | getStatus
  deriving DecidableEq, Repr

end Sys2Proof
end

