-- ==== Sys2Proof/WellFormed.lean ====
section
/-! DEFINITION. Which commands are well formed for a configuration. The types of Syntax.lean already
rule out every selector that no configuration allows (30_encoding.md R86 (e), (g), (h)); what is
left is R86 (f), the synthesizer number against `NSYNTH`. -/

namespace Sys2Proof

/-- The synthesizer unit a command names, if it names one. -/
def Instr.synthSel? : Instr → Option SynthSel
  | .synOutput u _ => some u
  | .synVolume u _ _ => some u
  | .synTrebleEq u _ => some u
  | .synOffset u _ _ _ => some u
  | .synUpdate u _ _ _ => some u
  | .synSetAmp u _ => some u
  | .setRates _ _ _ | .setLength _ _ | .bassFreq _ _ | .clear _ | .toFixed _ _ | .deposit _ _ _
  | .endFrame _ _ | .samplesAvail _ | .readSamples _ _ | .removeSilence _ _ | .removeSamples _ _
  | .nonSilent _ | .removeAllSamples _ | .getFlags _ | .readPairs _ | .mbSetChannelCount _
  | .mbSetChannelType _ _ | .mbChannel _ | .mbSetSampleRate _ _ | .mbClockRate _ | .mbBassFreq _
  | .mbClear | .mbEndFrame _ | .mbReadSamples _ | .mbSamplesAvail | .mbChanged | .getStatus => none

/-- A synthesizer number is in 0 .. NSYNTH−1 (30_encoding.md R85, R86 (f)). -/
def SynthSel.inRange (c : Config) (u : SynthSel) : Bool := u.toNat < c.nsynth

/-- A command that some legal frame stands for, under configuration `c`. -/
def Instr.wellFormed (c : Config) (i : Instr) : Bool :=
  match i.synthSel? with
  | some u => SynthSel.inRange c u
  | none => true

end Sys2Proof
end

