-- ==== Sys2Proof/Decode.lean ====
section
/-! DEFINITION. Decoding and encoding of command frames (30_encoding.md R80, R81, R85, R86, R87), and
the byte form of a frame on a byte-wide transport (20_memory.md R65). -/

namespace Sys2Proof

/-! ### The fields of a frame (30_encoding.md R81) -/

/-- The header word W0 = CMD[31:0]. -/
def Frame.header (f : Frame) : Word := f.extractLsb' 0 32

/-- Operand word A = CMD[63:32]. -/
def Frame.operandA (f : Frame) : Word := f.extractLsb' 32 32

/-- Operand word B = CMD[95:64]. -/
def Frame.operandB (f : Frame) : Word := f.extractLsb' 64 32

/-- `opcode`, bits 7:0 of W0. -/
def Frame.opcode (f : Frame) : BitVec 8 := f.extractLsb' 0 8

/-- `u`, bits 11:8 of W0. -/
def Frame.unitField (f : Frame) : BitVec 4 := f.extractLsb' 8 4

/-- `bsel`, bits 14:12 of W0. -/
def Frame.selField (f : Frame) : BitVec 3 := f.extractLsb' 12 3

/-- `rsv`, bits 31:15 of W0. -/
def Frame.reserved (f : Frame) : BitVec 17 := f.extractLsb' 15 17

/-! ### Decoding -/

/-- Why a frame is no command. Each but the last is a clause of 30_encoding.md R86. -/
inductive DecodeError
  /-- R86 (a): `rsv ≠ 0`. -/
  | reservedBits
  /-- R86 (b): the opcode is not in R80. -/
  | unknownOpcode
  /-- R86 (c): the format does not use `u` and `u ≠ 0`. -/
  | unusedUnitField
  /-- R86 (d): the format does not use `bsel` and `bsel ≠ 0`. -/
  | unusedSelField
  /-- R86 (e): format U and `u ≥ 3`. -/
  | bufferUnitRange
  /-- R86 (f): format S or SB and `u ≥ NSYNTH`. -/
  | synthUnitRange
  /-- R86 (g): format SB and `bsel ≥ 5`. -/
  | selectorRange
  /-- R86 (h): SYN_OUTPUT and `bsel = 4`. -/
  | routedOutput
  /-- A byte transport ended inside a frame; a frame is always 96 bits (R81). -/
  | shortFrame
  deriving DecidableEq, Repr

/-- The format of a command (30_encoding.md R81) with the constructor its operands go to. SYN_OUTPUT
has format SB with ROUTED illegal (R86 (h)) and is written as a format of its own, `output`. -/
inductive Shape
  | u (mk : BufUnit → Word → Word → Instr)
  | s (mk : SynthSel → Word → Word → Instr)
  | sb (mk : SynthSel → BufSel → Word → Word → Instr)
  | output (mk : SynthSel → Route → Instr)
  | n (mk : Word → Word → Instr)

/-- The opcode map (30_encoding.md R80). An operand word a command ignores is dropped here. -/
def opcodeMap : List (BitVec 8 × Shape) :=
  [ (0x10#8, .u .setRates)
  , (0x11#8, .u fun b x _ => .setLength b x)
  , (0x12#8, .u fun b x _ => .bassFreq b x)
  , (0x13#8, .u fun b _ _ => .clear b)
  , (0x14#8, .u fun b x _ => .toFixed b x)
  , (0x15#8, .u .deposit)
  , (0x16#8, .u fun b x _ => .endFrame b x)
  , (0x17#8, .u fun b _ _ => .samplesAvail b)
  , (0x18#8, .u fun b x _ => .readSamples b x)
  , (0x19#8, .u fun b x _ => .removeSilence b x)
  , (0x1A#8, .u fun b x _ => .removeSamples b x)
  , (0x1B#8, .u fun b _ _ => .nonSilent b)
  , (0x1C#8, .u fun b _ _ => .removeAllSamples b)
  , (0x1D#8, .u fun b _ _ => .getFlags b) ] ++
  [ (0x20#8, .output .synOutput)
  , (0x21#8, .s .synVolume)
  , (0x22#8, .s fun s x _ => .synTrebleEq s x)
  , (0x23#8, .sb .synOffset)
  , (0x24#8, .sb .synUpdate)
  , (0x25#8, .s fun s x _ => .synSetAmp s x) ] ++
  [ (0x30#8, .n fun x _ => .readPairs x)
  , (0x40#8, .n fun x _ => .mbSetChannelCount x)
  , (0x41#8, .n .mbSetChannelType)
  , (0x42#8, .n fun x _ => .mbChannel x)
  , (0x43#8, .n .mbSetSampleRate)
  , (0x44#8, .n fun x _ => .mbClockRate x)
  , (0x45#8, .n fun x _ => .mbBassFreq x)
  , (0x46#8, .n fun _ _ => .mbClear)
  , (0x47#8, .n fun x _ => .mbEndFrame x)
  , (0x48#8, .n fun x _ => .mbReadSamples x)
  , (0x49#8, .n fun _ _ => .mbSamplesAvail)
  , (0x4A#8, .n fun _ _ => .mbChanged)
  , (0x7E#8, .n fun _ _ => .getStatus) ]

/-- The buffer unit a `u` field names, for 0..2 (30_encoding.md R85). -/
def bufUnitOf (u : BitVec 4) : Option BufUnit :=
  if u = 0#4 then some .left
  else if u = 1#4 then some .right
  else if u = 2#4 then some .center
  else none

/-- The selector a `bsel` field names, for 0..4 (30_encoding.md R85). -/
def bufSelOf (sel : BitVec 3) : Option BufSel :=
  if sel = 0#3 then some (.explicit (some .left))
  else if sel = 1#3 then some (.explicit (some .right))
  else if sel = 2#3 then some (.explicit (some .center))
  else if sel = 3#3 then some (.explicit none)
  else if sel = 4#3 then some .routed
  else none

/-- R86 (f): the synthesizer field, checked against NSYNTH. -/
def decodeSynthSel (c : Config) (u : BitVec 4) : Except DecodeError SynthSel :=
  if SynthSel.inRange c u then .ok u else .error .synthUnitRange

/-- The checks of R86 (c) to (h) for a format, and the command. -/
def decodeShape (c : Config) (u : BitVec 4) (sel : BitVec 3) (a b : Word) :
    Shape → Except DecodeError Instr
  | .u mk =>
    if sel ≠ 0#3 then .error .unusedSelField
    else match bufUnitOf u with
      | some unit => .ok (mk unit a b)
      | none => .error .bufferUnitRange
  | .s mk =>
    if sel ≠ 0#3 then .error .unusedSelField
    else match decodeSynthSel c u with
      | .ok s => .ok (mk s a b)
      | .error e => .error e
  | .sb mk =>
    match decodeSynthSel c u with
    | .error e => .error e
    | .ok s =>
      match bufSelOf sel with
      | some k => .ok (mk s k a b)
      | none => .error .selectorRange
  | .output mk =>
    match decodeSynthSel c u with
    | .error e => .error e
    | .ok s =>
      match bufSelOf sel with
      | some (.explicit r) => .ok (mk s r)
      | some .routed => .error .routedOutput
      | none => .error .selectorRange
  | .n mk =>
    if u ≠ 0#4 then .error .unusedUnitField
    else if sel ≠ 0#3 then .error .unusedSelField
    else .ok (mk a b)

/-- Decoding: total on every frame (30_encoding.md R87). `NSYNTH` comes from the configuration. -/
def decodeFrame (c : Config) (f : Frame) : Except DecodeError Instr :=
  if Frame.reserved f ≠ 0#17 then .error .reservedBits
  else match opcodeMap.lookup (Frame.opcode f) with
    | none => .error .unknownOpcode
    | some shape =>
      decodeShape c (Frame.unitField f) (Frame.selField f) (Frame.operandA f) (Frame.operandB f)
        shape

/-! ### The byte form of a frame (20_memory.md R65) -/

/-- A value of `8 * n` bits as `n` bytes, least significant first. -/
def littleEndian (n : Nat) {w : Nat} (v : BitVec w) : List Byte :=
  (List.range n).map fun k => v.extractLsb' (8 * k) 8

/-- The 12 bytes of a frame: least significant byte first, the words in the order W0, A, B. -/
def Frame.bytes (f : Frame) : List Byte := littleEndian 12 f

/-- The first word of a byte stream, least significant byte first, and what follows it. -/
def takeWord : List Byte → Option (Word × List Byte)
  | b0 :: b1 :: b2 :: b3 :: rest => some (b3 ++ b2 ++ b1 ++ b0, rest)
  | _ => none

/-- The frame whose words are W0, A, B. -/
def Frame.ofWords (w0 a b : Word) : Frame := b ++ a ++ w0

/-- The first frame of a byte stream and what follows it. -/
def takeFrame (bs : List Byte) : Option (Frame × List Byte) :=
  match takeWord bs with
  | none => none
  | some (w0, r0) =>
    match takeWord r0 with
    | none => none
    | some (a, r1) =>
      match takeWord r1 with
      | none => none
      | some (b, r2) => some (Frame.ofWords w0 a b, r2)

/-- Decoding of the first command of a byte stream: total on any bytes. -/
def decodeBytes (c : Config) (bs : List Byte) : Except DecodeError (Instr × List Byte) :=
  match takeFrame bs with
  | none => .error .shortFrame
  | some (f, rest) =>
    match decodeFrame c f with
    | .ok i => .ok (i, rest)
    | .error e => .error e

/-- The frame whose low `nbits` bits are `w`, every higher bit 0. -/
def tableFrame (nbits w : Nat) : Frame := BitVec.ofNat 96 (w % 2 ^ nbits)

/-- What the decoder reads, under the default configuration, from the command whose bits are `w`:
laid out as bytes (20_memory.md R65) and given to `decodeBytes`. -/
def decodeTableWord (nbits w : Nat) : Option Instr :=
  match decodeBytes Config.default (Frame.bytes (tableFrame nbits w)) with
  | .ok (i, _) => some i
  | .error _ => none

/-! ### Encoding -/

/-- The header word with `rsv = 0` (30_encoding.md R81). -/
def headerOf (opcode : BitVec 8) (u : BitVec 4) (sel : BitVec 3) : Word :=
  0#17 ++ sel ++ u ++ opcode

/-- The `u` field of a buffer unit (30_encoding.md R85). -/
def BufUnit.code : BufUnit → BitVec 4
  | .left => 0
  | .right => 1
  | .center => 2

/-- The 2-bit code of a route: 0 L, 1 R, 2 C, 3 NONE (10_state.md R29, 45_multi_buffer.md R213). -/
def routeCode : Route → BitVec 2
  | some .left => 0
  | some .right => 1
  | some .center => 2
  | none => 3

/-- The `bsel` field of a selector (30_encoding.md R85). -/
def BufSel.code : BufSel → BitVec 3
  | .explicit r => (routeCode r).setWidth 3
  | .routed => 4

/-- A frame of format U. -/
def frameU (opcode : BitVec 8) (b : BufUnit) (x y : Word) : Frame :=
  Frame.ofWords (headerOf opcode b.code 0) x y

/-- A frame of format S. -/
def frameS (opcode : BitVec 8) (u : SynthSel) (x y : Word) : Frame :=
  Frame.ofWords (headerOf opcode u 0) x y

/-- A frame of format SB. -/
def frameSB (opcode : BitVec 8) (u : SynthSel) (k : BufSel) (x y : Word) : Frame :=
  Frame.ofWords (headerOf opcode u k.code) x y

/-- A frame of format N. -/
def frameN (opcode : BitVec 8) (x y : Word) : Frame :=
  Frame.ofWords (headerOf opcode 0 0) x y

/-- The frame of a command. An operand word the command does not use is 0 (30_encoding.md R89). -/
def encode : Instr → Frame
  | .setRates b clockRate sampleRate => frameU 0x10 b clockRate sampleRate
  | .setLength b msec => frameU 0x11 b msec 0
  | .bassFreq b freq => frameU 0x12 b freq 0
  | .clear b => frameU 0x13 b 0 0
  | .toFixed b tick => frameU 0x14 b tick 0
  | .deposit b position delta => frameU 0x15 b position delta
  | .endFrame b duration => frameU 0x16 b duration 0
  | .samplesAvail b => frameU 0x17 b 0 0
  | .readSamples b maxCount => frameU 0x18 b maxCount 0
  | .removeSilence b count => frameU 0x19 b count 0
  | .removeSamples b count => frameU 0x1A b count 0
  | .nonSilent b => frameU 0x1B b 0 0
  | .removeAllSamples b => frameU 0x1C b 0 0
  | .getFlags b => frameU 0x1D b 0 0
  | .synOutput u route => frameSB 0x20 u (.explicit route) 0 0
  | .synVolume u deltaFactor shift => frameS 0x21 u deltaFactor shift
  | .synTrebleEq u eq => frameS 0x22 u eq 0
  | .synOffset u sel ticks delta => frameSB 0x23 u sel ticks delta
  | .synUpdate u sel ticks amplitude => frameSB 0x24 u sel ticks amplitude
  | .synSetAmp u amplitude => frameS 0x25 u amplitude 0
  | .readPairs pairCount => frameN 0x30 pairCount 0
  | .mbSetChannelCount count => frameN 0x40 count 0
  | .mbSetChannelType index tag => frameN 0x41 index tag
  | .mbChannel index => frameN 0x42 index 0
  | .mbSetSampleRate sampleRate msec => frameN 0x43 sampleRate msec
  | .mbClockRate clockRate => frameN 0x44 clockRate 0
  | .mbBassFreq freq => frameN 0x45 freq 0
  | .mbClear => frameN 0x46 0 0
  | .mbEndFrame duration => frameN 0x47 duration 0
  | .mbReadSamples maxCount => frameN 0x48 maxCount 0
  | .mbSamplesAvail => frameN 0x49 0 0
  | .mbChanged => frameN 0x4A 0 0
  | .getStatus => frameN 0x7E 0 0

end Sys2Proof
end

