-- ==== Sys2Proof/Machine/State.lean ====
section
/-! DEFINITION. The state of the CORE as plain data (10_state.md R20 to R35), its reset value, and the
reasons the model itself can stop. -/

namespace Sys2Proof.Machine

/-! ### Memories -/

/-- One delta memory (20_memory.md R61): the slots that hold a non-zero delta, as (slot, value) pairs
with slots strictly rising. A slot that is not listed reads as 0 (assumption log 5). -/
abbrev Memory := List (Nat × Word)

/-- The canonical form of a delta memory: slots strictly rising, no listed value 0. Equal memories
are then equal lists. -/
abbrev Memory.wf (m : Memory) : Prop :=
  m.Pairwise (fun p q => p.1 < q.1) ∧ ∀ p ∈ m, p.2 ≠ 0

/-! ### Registers -/

/-- The registers of one buffer unit and its delta memory (10_state.md R25, 20_memory.md R61). -/
structure BufferUnit where
  /-- `clock_rate`, Hz; 0 = not set. -/
  clockRate : Word
  /-- `sample_rate`, Hz; 0 = not set. -/
  sampleRate : Word
  /-- `length_ms`. -/
  lengthMs : Word
  /-- `length_set`. -/
  lengthSet : Bool
  /-- `bass_freq`, signed, Hz. -/
  bassFreq : Word
  /-- `factor`; 0 = not valid. -/
  factor : Word
  /-- `offset`: position of tick 0 of the current frame; its integer part counts unread slots. -/
  offset : Word
  /-- `buffer_size`; 0 = not allocated. -/
  bufferSize : Word
  /-- `reader_accum`, signed. -/
  readerAccum : Word
  /-- `bass_shift`. -/
  bassShift : BitVec 5
  /-- `modified`. -/
  modified : Bool
  /-- `last_non_silence`. -/
  lastNonSilence : Word
  /-- `DELTA[b]`. -/
  delta : Memory
  deriving DecidableEq, Repr

/-- The registers of one synthesizer unit and its kernel table (10_state.md R29, R30). -/
structure SynthUnit where
  /-- `out`. -/
  out : Route
  /-- `delta_factor`, signed. -/
  deltaFactor : Word
  /-- `last_amp`, signed. -/
  lastAmp : Word
  /-- `kernel_unit`; 0 = no kernel. -/
  kernelUnit : Word
  /-- `K[s]`: the taps by phase; empty while no kernel was generated (assumption log 6). -/
  taps : List (List Word)
  deriving DecidableEq, Repr

/-! ### The command port -/

/-- The status codes of a response (30_encoding.md R83). -/
inductive Status
  | ok
  | errInvalid
  | errNomem
  | errIllegal
  | fault
  | errFaulted
  deriving DecidableEq, Repr

/-- The response to a command (30_encoding.md R82). -/
structure Response where
  status : Status
  val : BitVec 64
  nout : Word
  deriving DecidableEq, Repr

/-- What the host presents to the CORE: a command frame (20_memory.md R64) or the reset event
(70_reset_and_hazards.md R280). -/
inductive Input
  | frame (f : Frame)
  | reset
  deriving DecidableEq, Repr

/-- The machine. -/
structure State where
  /-- The implementation parameters (00_scope.md R7): no step changes them (R6; assumption log 1). -/
  cfg : Config
  /-- `B[0]`, LEFT. -/
  left : BufferUnit
  /-- `B[1]`, RIGHT. -/
  right : BufferUnit
  /-- `B[2]`, CENTER. -/
  center : BufferUnit
  /-- `S[0]` .. `S[NSYNTH−1]`. -/
  synths : List SynthUnit
  /-- `MIX.samples_read`. -/
  samplesRead : Word
  /-- `MB.channel_count`. -/
  channelCount : BitVec 16
  /-- `MB.type[0]` .. `MB.type[MAX_CHANNELS−1]`. -/
  channelTypes : List (BitVec 16)
  /-- `MB.sample_rate`. -/
  mbSampleRate : Word
  /-- `MB.length_ms`. -/
  mbLengthMs : Word
  /-- `MB.changed_count`. -/
  changedCount : Word
  /-- `SYS.fault`. -/
  sysFault : BitVec 8
  /-- `OUT`, oldest sample first (20_memory.md R63). -/
  out : List Sample
  /-- The response to the most recent command; none before the first (assumption log 4). -/
  response : Option Response
  /-- What the host has presented and the CORE has not yet taken, oldest first (assumption log 2). -/
  pending : List Input
  deriving DecidableEq, Repr

/-! ### Reset values (10_state.md R35) -/

/-- A buffer unit after reset. The slots read 0 (assumption log 5: the spec gives no value). -/
def BufferUnit.reset : BufferUnit where
  clockRate := 0
  sampleRate := 0
  lengthMs := 0
  lengthSet := false
  bassFreq := 16
  factor := 0
  offset := 0
  bufferSize := 0
  readerAccum := 0
  bassShift := 0
  modified := false
  lastNonSilence := 0
  delta := []

/-- A synthesizer unit after reset: routed to NONE, no kernel. -/
def SynthUnit.reset : SynthUnit where
  out := none
  deltaFactor := 0
  lastAmp := 0
  kernelUnit := 0
  taps := []

/-- The machine right after reset, for given parameters (70_reset_and_hazards.md R280). -/
def State.resetWith (c : Config) : State where
  cfg := c
  left := .reset
  right := .reset
  center := .reset
  synths := List.replicate c.nsynth .reset
  samplesRead := 0
  channelCount := 0
  channelTypes := List.replicate c.maxChannels 0
  mbSampleRate := 0
  mbLengthMs := 0
  changedCount := 0
  sysFault := 0
  out := []
  response := none
  pending := []

/-- The machine right after reset, with the default parameters of 00_scope.md R7. -/
def State.reset : State := State.resetWith Config.default

/-! ### Stops of the model -/

/-- Why the model stops. No contract violation of the CORE is among them: taking one is a next state
(60_exceptions.md R253). Each constructor needs a state that no run from reset reaches. -/
inductive Fault
  /-- A command would touch a delta slot at or above `BUF_CAPACITY`, which does not exist
  (20_memory.md R61). Raised by the commands that deposit, read or remove, only where
  `buffer_size` or `offset` breaks 10_state.md R26. Safe (assumption log 8). -/
  | noSuchSlot
  /-- A command would touch a kernel tap that is not there: `kernel_unit ≠ 0` without a table of RES
  phases of W taps (10_state.md R30). Raised by SYN_OFFSET, SYN_UPDATE and SYN_VOLUME on a FULL
  unit. Safe (assumption log 8). -/
  | noSuchTap
  /-- A command would touch a type tag at or above `MAX_CHANNELS` (10_state.md R32). Raised by
  MB_SET_CHANNEL_TYPE and MB_CHANNEL, only where `MB.channel_count` breaks its bound.
  Safe (assumption log 8). -/
  | noSuchChannel
  deriving DecidableEq, Repr

/-- Why the model gives an instruction term no meaning. -/
inductive Refusal
  /-- An arm of `exec` whose meaning is not written; no arm answers it now. Safe. -/
  | notModelled (mnemonic : String)
  /-- A synthesizer command names a unit at or above `NSYNTH`. Raised by the six SYN_ commands when
  `exec` is given a term that `decodeFrame` never answers (the frame is ERR_ILLEGAL by
  30_encoding.md R86 (f) before `exec` is reached). Safe (assumption log 9). -/
  | noSuchSynth
  deriving DecidableEq, Repr

end Sys2Proof.Machine
end

