-- ==== Sys2Proof/Machine/Arith.lean ====
section
/-! DEFINITION. The numeric functions every rule uses (00_scope.md R11, 46_system.md R244) and the three
derived quantities of a buffer unit's configuration (40_buffer_config.md R101 to R103). Arithmetic
is on exact integers; a register's value is brought into range by a named function. -/

namespace Sys2Proof.Machine

/-- `wrap32`: the 32-bit word congruent to an integer modulo 2^32 (00_scope.md R11). -/
def wrap32 (v : Int) : Word := BitVec.ofInt 32 v

/-- `asr`: arithmetic shift right, `floor(v / 2^n)`, rounding toward minus infinity (R11). -/
def asr (v : Int) (n : Nat) : Int := v / 2 ^ n

/-- `sat16`: saturation to −32768 .. 32767 (R11). -/
def sat16 (v : Int) : Sample :=
  BitVec.ofInt 16 (if 32767 < v then 32767 else if v < -32768 then -32768 else v)

/-- `bitlen`: the number of bits of v, for v ≥ 1 (R11). -/
def bitlen (v : Nat) : Nat := Nat.log2 v + 1

/-- The ratio function F: `rate × 2^FIXED_BITS / clock` rounded to nearest, halves upward
(40_buffer_config.md R101). -/
def ratio (c : Config) (clock rate : Nat) : Nat :=
  (rate * 2 ^ (c.fixedBits + 1) + clock) / (2 * clock)

/-- A ratio is representable when `1 ≤ F ≤ 2^32 − 1` (R101). -/
def representable (f : Nat) : Bool := 1 ≤ f && f ≤ 2 ^ 32 - 1

/-- The size function SZ: the samples of ms + 1 milliseconds rounded up, plus EXTRA (R102). -/
def sizeFor (c : Config) (rate ms : Nat) : Nat :=
  (rate * (ms + 1) + 999) / 1000 + c.extra

/-- The bass function BS: a shift in 0 .. 31 for a signed cutoff and a positive rate (R103). -/
def bassShiftFor (freq : Int) (rate : Nat) : Nat :=
  if freq ≤ 0 then 31
  else
    let f0 := freq.toNat * 65536 / rate
    if f0 = 0 then 13 else 13 - (bitlen f0 - 1)

end Sys2Proof.Machine
end

