-- ==== Sys2Proof/Machine/Operands.lean ====
section
/-! DEFINITION. Operand forms: how a command's operands and selectors name a unit, a slot, a phase or a
target, and the quantities of a unit the rules compute from its registers. -/

namespace Sys2Proof.Machine

/-! ### Buffer units by selector (30_encoding.md R85) -/

/-- Buffer unit b of the machine. -/
def State.buf (s : State) : BufUnit → BufferUnit
  | .left => s.left
  | .right => s.right
  | .center => s.center

/-- The machine with buffer unit b replaced. -/
def State.setBuf (s : State) (b : BufUnit) (u : BufferUnit) : State :=
  match b with
  | .left => { s with left := u }
  | .right => { s with right := u }
  | .center => { s with center := u }

/-- The active set of the composition, in the order L, R, C (45_multi_buffer.md R210). -/
def activeSet (c : Config) : List BufUnit :=
  match c.composition with
  | .mono => [.center]
  | .stereo => [.left, .right, .center]
  | .silent => []

/-- Each unit of a set replaced by a function of itself, in the set's order (R210, R222). -/
def State.updateBufs (s : State) (bs : List BufUnit) (f : BufferUnit → BufferUnit) : State :=
  bs.foldl (fun s b => s.setBuf b (f (s.buf b))) s

/-! ### Synthesizer units by selector (30_encoding.md R85) -/

/-- The machine with the registers of synthesizer unit u replaced. -/
def State.setSynth (s : State) (u : SynthSel) (r : SynthUnit) : State :=
  { s with synths := s.synths.set u.toNat r }

/-- The target of SYN_OFFSET and SYN_UPDATE: the explicit route, or for ROUTED the unit's own `out`
(43_synth.md R167). -/
def targetOf (r : SynthUnit) : BufSel → Route
  | .explicit route => route
  | .routed => r.out

/-! ### Fixed-point positions (41_buffer_time_deposit.md R120) -/

/-- `to_fixed(b, t) = t × factor + offset`, exact (R120). -/
def BufferUnit.toFixed (u : BufferUnit) (t : Nat) : Nat := t * u.factor.toNat + u.offset.toNat

/-- The slot of a position: its integer part (R120). -/
def slotOf (c : Config) (f : Nat) : Nat := f / 2 ^ c.fixedBits

/-- The phase of a position: the top PHASE_BITS bits of its fraction (R120, 43_synth.md R169). -/
def phaseOf (c : Config) (f : Nat) : Nat := f / 2 ^ (c.fixedBits - c.phaseBits) % c.res

/-- `FWD(s) = (MAXQ − W) / 2` (00_scope.md R8). -/
def fwd (c : Config) (w : Nat) : Nat := (c.maxq - w) / 2

/-! ### Quantities of a buffer unit -/

/-- `samples_avail(b)`: the count of finalized unread slots (41_buffer_time_deposit.md R125). -/
def BufferUnit.samplesAvail (c : Config) (u : BufferUnit) : Nat := slotOf c u.offset.toNat

/-- `NOMINAL(b) = buffer_size − EXTRA` (00_scope.md R8). -/
def BufferUnit.nominal (c : Config) (u : BufferUnit) : Nat := u.bufferSize.toNat - c.extra

/-- A unit is configured when `factor ≠ 0` and `buffer_size ≠ 0` (10_state.md R27). -/
def BufferUnit.configured (u : BufferUnit) : Bool := u.factor != 0 && u.bufferSize != 0

end Sys2Proof.Machine
end

