-- ==== Sys2Proof/Machine/Flags.lean ====
section
/-! DEFINITION. Flags, codes and status words: the fault codes (60_exceptions.md R254), the status codes
(30_encoding.md R83), silence (44_tracked_mixer.md R190), and the words GET_FLAGS, MB_CHANNEL and
GET_STATUS return. The flag `modified` is written by the deposit, end-of-frame and clear operations
of Ops.lean, `length_set` by SET_LENGTH and MB_SET_SAMPLE_RATE (10_state.md R28). -/

namespace Sys2Proof.Machine

/-- The contract violations (60_exceptions.md R254). -/
inductive FaultCode
  | notConfigured
  | depositRange
  | frameOverflow
  | removeRange
  | notSilent
  | noKernel
  deriving DecidableEq, Repr

/-- The code a violation records (R254). -/
def FaultCode.code : FaultCode → BitVec 8
  | .notConfigured => 1
  | .depositRange => 2
  | .frameOverflow => 3
  | .removeRange => 4
  | .notSilent => 5
  | .noKernel => 6

/-- The 8-bit status code of a response (30_encoding.md R83). -/
def Status.code : Status → BitVec 8
  | .ok => 0x00
  | .errInvalid => 0x01
  | .errNomem => 0x02
  | .errIllegal => 0x03
  | .fault => 0x04
  | .errFaulted => 0x05

/-- `non_silent(b)`: the counter is not 0, or the accumulator's sample value is not 0
(44_tracked_mixer.md R190). -/
def BufferUnit.nonSilent (u : BufferUnit) : Bool :=
  u.lastNonSilence != 0 || asr u.readerAccum.toInt sampleShift != 0

/-- The flag word of GET_FLAGS: `val[0]` = modified, `val[1]` = configured
(40_buffer_config.md R110). -/
def BufferUnit.flagWord (u : BufferUnit) : Nat := 2 * u.configured.toNat + u.modified.toNat

/-- The (center, left, right) routes of a channel (45_multi_buffer.md R213). -/
def channelRoutes : Composition → Route × Route × Route
  | .mono => (some .center, some .center, some .center)
  | .stereo => (some .center, some .left, some .right)
  | .silent => (none, none, none)

/-- The routing word of MB_CHANNEL: center in bits 1:0, left in 3:2, right in 5:4, the type tag in
31:16 (R213). -/
def routingWord (k : Composition) (tag : BitVec 16) : BitVec 64 :=
  let (ce, le, ri) := channelRoutes k
  (routeCode ce).setWidth 64 ||| ((routeCode le).setWidth 64 <<< 2) |||
    ((routeCode ri).setWidth 64 <<< 4) ||| (tag.setWidth 64 <<< 16)

/-- `code(COMPOSITION)`: 0 MONO, 1 STEREO, 2 SILENT (46_system.md R240). -/
def compositionCode : Composition → BitVec 2
  | .mono => 0
  | .stereo => 1
  | .silent => 2

/-- The status word of GET_STATUS: SYS.fault in bits 7:0, the composition in 9:8,
MIX.samples_read in 63:32 (R240). -/
def State.statusWord (s : State) : BitVec 64 :=
  s.sysFault.setWidth 64 ||| ((compositionCode s.cfg.composition).setWidth 64 <<< 8) |||
    (s.samplesRead.setWidth 64 <<< 32)

end Sys2Proof.Machine
end

