-- ==== Sys2Proof/Machine/Kernel.lean ====
section
/-! DEFINITION. Kernel tables of the FULL synthesizer units: what the open generator must satisfy
(43_synth.md R166), the table SYN_TREBLE_EQ writes (R165), and rescaling (R163). -/

namespace Sys2Proof.Machine

/-- The exact sum of a list of taps, each read signed. -/
def tapSum (row : List Word) : Int := (row.map BitVec.toInt).sum

/-- A table has RES phases of W taps each (10_state.md R30, 43_synth.md R161). -/
def tableShape (c : Config) (w : Nat) (t : List (List Word)) : Bool :=
  t.length == c.res && t.all fun row => row.length == w

/-- What R166 requires of a generated table: its shape, (a) the unit sum of every phase, (b) the range
of every tap. (c), totality and determinism, holds because the generator is a function. -/
def generatedOk (c : Config) (w : Nat) (t : List (List Word)) : Bool :=
  tableShape c w t && t.all fun row =>
    tapSum row == (c.kernelUnitBase : Int) &&
      row.all fun k => -(2 ^ 30) ≤ k.toInt && k.toInt ≤ 2 ^ 30

/-- A table that satisfies R166, standing in where the free generator's does not (assumption log 7). -/
def placeholderTable (c : Config) (w : Nat) : List (List Word) :=
  List.replicate c.res
    (wrap32 ((c.kernelUnitBase / 2 : Nat) : Int) ::
      wrap32 ((c.kernelUnitBase - c.kernelUnitBase / 2 : Nat) : Int) :: List.replicate (w - 2) 0)

/-- `P_KGEN(eq, W)`: the implementation's generator, held to R166 (assumption log 7). -/
def kernelTable (c : Config) (eq : Word) (w : Nat) : List (List Word) :=
  if generatedOk c w (Config.kernelGenerator c eq w) then Config.kernelGenerator c eq w
  else placeholderTable c w

/-- A tap divided by 2^sh, rounded to nearest, halves upward (R163). -/
def rescaleTap (sh : Nat) (k : Word) : Word := wrap32 (asr (k.toInt + 2 ^ (sh - 1)) sh)

/-- One phase rescaled: every tap divided, the rounding error `ku − sum` put on tap W/2 − 1 (R163). -/
def rescaleRow (sh w : Nat) (ku : Int) (row : List Word) : List Word :=
  let divided := row.map (rescaleTap sh)
  divided.modify (w / 2 - 1) fun k => wrap32 (k.toInt + (ku - tapSum divided))

/-- `rescale_kernel(s, sh)` on a FULL unit of width w (R163). -/
def SynthUnit.rescale (w sh : Nat) (r : SynthUnit) : SynthUnit :=
  let ku := r.kernelUnit.toNat / 2 ^ sh
  { r with taps := r.taps.map (rescaleRow sh w ku), kernelUnit := BitVec.ofNat 32 ku }

end Sys2Proof.Machine
end

