-- ==== Sys2Proof/Machine/Ops.lean ====
section
/-! DEFINITION. The shared operations: delta memories, the procedures of a buffer unit, responses, taking
a fault, the reset event, and the command port. -/

namespace Sys2Proof.Machine

/-- The outcome of a command. -/
abbrev Result := Host.Outcome State Fault Refusal

/-! ### Delta memories (20_memory.md R61) -/

/-- The slot i of a memory; an unlisted slot is 0. -/
def Memory.read (m : Memory) (i : Nat) : Word := (m.lookup i).getD 0

/-- Slot i written with v, in canonical form: a slot written with 0 is unlisted. -/
def Memory.write (m : Memory) (i : Nat) (v : Word) : Memory :=
  match m with
  | [] => if v = 0 then [] else [(i, v)]
  | (j, x) :: rest =>
    if j < i then (j, x) :: Memory.write rest i v
    else
      let tail := if j = i then rest else (j, x) :: rest
      if v = 0 then tail else (i, v) :: tail

/-- `DELTA[b][i] <- wrap32(DELTA[b][i] + d)` (41_buffer_time_deposit.md R122). -/
def Memory.add (m : Memory) (i : Nat) (d : Word) : Memory :=
  Memory.write m i (wrap32 ((Memory.read m i).toInt + d.toInt))

/-- The W taps of a phase, each multiplied by v and wrapped, added into consecutive slots from i in
ascending order (43_synth.md R169). -/
def Memory.addTaps (m : Memory) (i : Nat) (v : Word) : List Word → Memory
  | [] => m
  | k :: ks => Memory.addTaps (Memory.add m i (wrap32 (k.toInt * v.toInt))) (i + 1) v ks

/-- The n leading slots of the `size` slots in use removed: slot j takes slot j + n, the top n slots
become 0, slots at or above `size` keep their value (42_buffer_read.md R141). -/
def Memory.shiftDown (m : Memory) (size n : Nat) : Memory :=
  m.filterMap fun p =>
    if p.1 < size then (if n ≤ p.1 then some (p.1 - n, p.2) else none) else some p

/-- Whether each of the slots 0 .. n−1 holds 0 (42_buffer_read.md R144). -/
def Memory.silentBelow (m : Memory) (n : Nat) : Bool :=
  (List.range n).all fun i => Memory.read m i == 0

/-- A command that touches slots below `hi`: slots at and above BUF_CAPACITY do not exist
(assumption log 8). -/
def State.needSlots (s : State) (hi : Nat) (k : Result) : Result :=
  if hi ≤ s.cfg.bufCapacity then k else .fault .noSuchSlot

/-! ### Procedures of a buffer unit -/

/-- `clear(b)` (40_buffer_config.md R109): all BUF_CAPACITY slots zeroed. -/
def BufferUnit.clear (u : BufferUnit) : BufferUnit :=
  { u with delta := [], readerAccum := 0, offset := 0, modified := false, lastNonSilence := 0 }

/-- `reconfigure(b)` (40_buffer_config.md R104). -/
def BufferUnit.reconfigure (c : Config) (u : BufferUnit) : BufferUnit :=
  BufferUnit.clear
    { u with
      factor :=
        if 0 < u.clockRate.toNat ∧ 0 < u.sampleRate.toNat then
          BitVec.ofNat 32 (ratio c u.clockRate.toNat u.sampleRate.toNat)
        else 0
      bufferSize :=
        if u.lengthSet then BitVec.ofNat 32 (sizeFor c u.sampleRate.toNat u.lengthMs.toNat) else 0
      bassShift :=
        if 0 < u.sampleRate.toNat then
          BitVec.ofNat 5 (bassShiftFor u.bassFreq.toInt u.sampleRate.toNat)
        else u.bassShift }

/-- The effect of BASS_FREQ on a unit (40_buffer_config.md R107). -/
def BufferUnit.setBass (freq : Word) (u : BufferUnit) : BufferUnit :=
  { u with
    bassFreq := freq
    bassShift :=
      if 0 < u.sampleRate.toNat then BitVec.ofNat 5 (bassShiftFor freq.toInt u.sampleRate.toNat)
      else u.bassShift }

/-- `deposit(b, f, d)` at the slot i of the position (41_buffer_time_deposit.md R122). -/
def BufferUnit.deposit (u : BufferUnit) (i : Nat) (d : Word) : BufferUnit :=
  { u with delta := Memory.add u.delta i d, modified := true }

/-- The FULL deposit: the taps of one phase times v from slot i on (43_synth.md R169). -/
def BufferUnit.depositTaps (u : BufferUnit) (i : Nat) (v : Word) (row : List Word) : BufferUnit :=
  { u with delta := Memory.addTaps u.delta i v row, modified := true }

/-- The tests of END_FRAME on a unit, in order (41_buffer_time_deposit.md R124). -/
def BufferUnit.frameTest (c : Config) (duration : Word) (u : BufferUnit) : Option FaultCode :=
  if !u.configured then some .notConfigured
  else if u.nominal c < slotOf c (u.toFixed duration.toNat) then some .frameOverflow
  else none

/-- The effect of END_FRAME on a unit (R124): `offset` grows by duration × factor, and `modified` is
read and cleared. -/
def BufferUnit.endFrame (c : Config) (duration : Word) (u : BufferUnit) : BufferUnit :=
  let n := u.toFixed duration.toNat
  if u.modified then
    { u with
      offset := BitVec.ofNat 32 n
      modified := false
      lastNonSilence := BitVec.ofNat 32 (slotOf c n + c.extra) }
  else { u with offset := BitVec.ofNat 32 n }

/-! ### Integrator, consume, drain (42_buffer_read.md R140, R141) -/

/-- `integrate`: accumulator a after a slot holding d, with the high-pass feedback taken from the full
accumulator (R140). -/
def integrate (shift : Nat) (a d : Word) : Word :=
  wrap32 (a.toInt + d.toInt - asr a.toInt shift)

/-- The accumulator after each of n integrator steps on slots i, i + 1, …, from accumulator a. -/
def accumsFrom (shift : Nat) (m : Memory) (a : Word) (i : Nat) : Nat → List Word
  | 0 => []
  | n + 1 =>
    let a' := integrate shift a (Memory.read m i)
    a' :: accumsFrom shift m a' (i + 1) n

/-- The accumulators of unit u after each of its n leading slots. -/
def BufferUnit.accums (u : BufferUnit) (n : Nat) : List Word :=
  accumsFrom u.bassShift.toNat u.delta u.readerAccum 0 n

/-- The sample of an accumulator value: `sat16(asr(a, SAMPLE_SHIFT))` (42_buffer_read.md R142). -/
def sampleOf (a : Int) : Sample := sat16 (asr a sampleShift)

/-- `consume(b, n)` (R141). -/
def BufferUnit.consume (c : Config) (n : Nat) (u : BufferUnit) : BufferUnit :=
  { u with
    delta := Memory.shiftDown u.delta u.bufferSize.toNat n
    offset := BitVec.ofNat 32 (u.offset.toNat - n * 2 ^ c.fixedBits)
    lastNonSilence := BitVec.ofNat 32 (u.lastNonSilence.toNat - n) }

/-- The n leading slots integrated, then consumed. -/
def BufferUnit.drain (c : Config) (n : Nat) (u : BufferUnit) : BufferUnit :=
  BufferUnit.consume c n { u with readerAccum := (u.accums n).getLastD u.readerAccum }

/-- One above the highest slot a drain of n slots touches. -/
def BufferUnit.drainSpan (n : Nat) (u : BufferUnit) : Nat := max u.bufferSize.toNat n

/-! ### Responses (30_encoding.md R82, R83) -/

/-- The machine with a response given. -/
def State.respond (s : State) (status : Status) (val : BitVec 64) (nout : Word) : State :=
  { s with response := some ⟨status, val, nout⟩ }

/-- `return v`: status OK, with the number of samples emitted (00_scope.md R12). -/
def State.answer (s : State) (val : BitVec 64) (nout : Nat) : Result :=
  .next (s.respond .ok val (BitVec.ofNat 32 nout))

/-- `return`: status OK, value 0. -/
def State.done (s : State) : Result := s.answer 0 0

/-- `fail(status)`: the command ends with an error and changes nothing (60_exceptions.md R251). -/
def State.fail (s : State) (status : Status) : Result := .next (s.respond status 0 0)

/-- The answer to an illegal frame (30_encoding.md R86). -/
def State.answerIllegal (s : State) : Result := s.fail .errIllegal

/-- `emit`, of a list of samples in order (20_memory.md R63). -/
def State.emit (s : State) (xs : List Sample) : State := { s with out := s.out ++ xs }

/-! ### Faults (60_exceptions.md R253, R255) and reset (70_reset_and_hazards.md R280) -/

/-- `raise Fault(code)`, the CORE's taking of an exception (R253, R258): SYS.fault holds the code, the
response is FAULT with the code, nothing else changes. -/
def State.raiseFault (s : State) (code : FaultCode) : Result :=
  .next ({ s with sysFault := code.code }.respond .fault (code.code.setWidth 64) 0)

/-- The sticky fault: while SYS.fault ≠ 0 a legal command is refused (R255, 30_encoding.md R88). -/
def State.unlessFaulted (s : State) (k : Result) : Result :=
  if s.sysFault ≠ 0 then .next (s.respond .errFaulted (s.sysFault.setWidth 64) 0) else k

/-- The reset event, the only return from a fault (R259, R280): every register at its reset value; the
parameters and what the host has presented stay (assumption log 12). -/
def State.applyReset (s : State) : State :=
  { State.resetWith s.cfg with pending := s.pending }

/-! ### The command port (20_memory.md R64) -/

/-- The oldest input the host has presented, and the machine without it. -/
def State.takeInput (s : State) : Option (Input × State) :=
  match s.pending with
  | [] => none
  | x :: rest => some (x, { s with pending := rest })

/-- The machine with an input at the head of what the host has presented. -/
def State.present (s : State) (x : Input) : State := { s with pending := x :: s.pending }

/-! ### Operations over one unit, shared by several commands -/

/-- The variant and the registers of the synthesizer unit a command names. A unit at or above NSYNTH
does not exist; no decoded command names one (assumption log 9). -/
def State.withSynth (s : State) (u : SynthSel) (k : SynthKind → SynthUnit → Result) : Result :=
  match s.cfg.synths[u.toNat]?, s.synths[u.toNat]? with
  | some kind, some r => k kind r
  | _, _ => .refused .noSuchSynth

/-- READ_SAMPLES on unit b, also the MONO read path (42_buffer_read.md R142, 45_multi_buffer.md
R219). -/
def State.readUnit (s : State) (b : BufUnit) (maxCount : Nat) : Result :=
  let u := s.buf b
  if !u.configured then s.raiseFault .notConfigured
  else
    let n := min maxCount (u.samplesAvail s.cfg)
    s.needSlots (u.drainSpan n)
      (((s.setBuf b (u.drain s.cfg n)).emit ((u.accums n).map fun a => sampleOf a.toInt)).answer
        (BitVec.ofNat 64 n) n)

/-- The n leading slots of unit b integrated and consumed without output, with the value to return
(42_buffer_read.md R143, R144; 44_tracked_mixer.md R192). -/
def State.removeUnit (s : State) (b : BufUnit) (n : Nat) (val : BitVec 64) : Result :=
  let u := s.buf b
  s.needSlots (u.drainSpan n) ((s.setBuf b (u.drain s.cfg n)).answer val 0)

/-- The tests REMOVE_SAMPLES and REMOVE_SILENCE share, in order (R143, R144). -/
def BufferUnit.removeTest (c : Config) (count : Word) (u : BufferUnit) : Option FaultCode :=
  if !u.configured then some .notConfigured
  else if u.samplesAvail c < count.toNat then some .removeRange
  else none

/-! ### The stereo mixer (44_tracked_mixer.md R194) -/

/-- The stereo path: for each step, left = center + left, right = center + right, each sum exact, then
shifted, then saturated. -/
def mixStereo : List Word → List Word → List Word → List Sample
  | l :: ls, r :: rs, m :: ms =>
    sampleOf (m.toInt + l.toInt) :: sampleOf (m.toInt + r.toInt) :: mixStereo ls rs ms
  | _, _, _ => []

/-- The mono path: the center sample twice. -/
def mixMono : List Word → List Sample
  | m :: ms => sampleOf m.toInt :: sampleOf m.toInt :: mixMono ms
  | [] => []

/-- The number of pairs READ_PAIRS can produce: the smallest of the three availabilities. -/
def State.pairsAvail (s : State) : Nat :=
  min (s.left.samplesAvail s.cfg) (min (s.right.samplesAvail s.cfg) (s.center.samplesAvail s.cfg))

/-- The samples of n pairs; the path is chosen once, before any step. -/
def State.mixOut (s : State) (n : Nat) : List Sample :=
  if s.left.nonSilent || s.right.nonSilent then
    mixStereo (s.left.accums n) (s.right.accums n) (s.center.accums n)
  else mixMono (s.center.accums n)

/-- READ_PAIRS, also the STEREO read path, which counts samples where READ_PAIRS counts pairs
(45_multi_buffer.md R219): `perPair` is what one pair adds to the returned value. -/
def State.readPairs (s : State) (pairCount perPair : Nat) : Result :=
  if !(s.left.configured && s.right.configured && s.center.configured) then
    s.raiseFault .notConfigured
  else
    let n := min pairCount s.pairsAvail
    s.needSlots (max (s.left.drainSpan n) (max (s.right.drainSpan n) (s.center.drainSpan n)))
      (({ s with
          left := s.left.drain s.cfg n
          right := s.right.drain s.cfg n
          center := s.center.drain s.cfg n
          samplesRead := BitVec.ofNat 32 n }.emit (s.mixOut n)).answer
        (BitVec.ofNat 64 (perPair * n)) (2 * n))

/-! ### Synthesized deposits (43_synth.md R168 to R170) -/

/-- The tests of SYN_OFFSET and SYN_UPDATE on the target unit, in order (R170). -/
def synthTest (c : Config) (kind : SynthKind) (r : SynthUnit) (ticks : Word) (u : BufferUnit) :
    Option FaultCode :=
  if !u.configured then some .notConfigured
  else if kind ≠ .fast ∧ r.kernelUnit = 0 then some .noKernel
  else if u.nominal c ≤ slotOf c (u.toFixed ticks.toNat) then some .depositRange
  else none

/-- The FAST deposit (R168) or the FULL deposit (R169) of `delta × delta_factor` at a tick. Slots and
taps that do not exist stop the model (assumption log 8). -/
def synthDeposit (c : Config) (kind : SynthKind) (r : SynthUnit) (ticks delta : Word)
    (u : BufferUnit) : Except Fault BufferUnit :=
  let f := u.toFixed ticks.toNat
  let v := wrap32 (delta.toInt * r.deltaFactor.toInt)
  match kind with
  | .fast =>
    if slotOf c f < c.bufCapacity then .ok (u.deposit (slotOf c f) v) else .error .noSuchSlot
  | .full w =>
    match r.taps[phaseOf c f]? with
    | none => .error .noSuchTap
    | some row =>
      if row.length ≠ w then .error .noSuchTap
      else if c.bufCapacity < slotOf c f + fwd c w + w then .error .noSuchSlot
      else .ok (u.depositTaps (slotOf c f + fwd c w) v row)

/-- The tests and the deposit of SYN_OFFSET and SYN_UPDATE on target unit t (R170, R171), with what
the command writes besides. -/
def State.synthesize (s : State) (kind : SynthKind) (r : SynthUnit) (t : BufUnit)
    (ticks delta : Word) (also : State → State) : Result :=
  match synthTest s.cfg kind r ticks (s.buf t) with
  | some code => s.raiseFault code
  | none =>
    match synthDeposit s.cfg kind r ticks delta (s.buf t) with
    | .error e => .fault e
    | .ok u => (also (s.setBuf t u)).done

end Sys2Proof.Machine
end

