-- ==== Sys2Proof/Machine/BufferConfig.lean ====
section
/-! DEFINITION. Synthesis buffer configuration commands (40_buffer_config.md). -/

namespace Sys2Proof.Machine

/-- SET_RATES (40_buffer_config.md R105). -/
def execSetRates (b : BufUnit) (clockRate sampleRate : Word) (s : State) : Result :=
  s.unlessFaulted <|
    let u := s.buf b
    if clockRate.toInt ≤ 0 ∨ sampleRate.toInt ≤ 0 then s.fail .errInvalid
    else if !representable (ratio s.cfg clockRate.toNat sampleRate.toNat) then s.fail .errInvalid
    else if u.lengthSet ∧
        s.cfg.bufCapacity < sizeFor s.cfg sampleRate.toNat u.lengthMs.toNat then
      s.fail .errNomem
    else
      (s.setBuf b
        (BufferUnit.reconfigure s.cfg
          { u with clockRate := clockRate, sampleRate := sampleRate })).done

/-- SET_LENGTH (40_buffer_config.md R106). -/
def execSetLength (b : BufUnit) (msec : Word) (s : State) : Result :=
  s.unlessFaulted <|
    let u := s.buf b
    if s.cfg.bufCapacity < sizeFor s.cfg u.sampleRate.toNat msec.toNat then s.fail .errNomem
    else
      (s.setBuf b
        (BufferUnit.reconfigure s.cfg { u with lengthMs := msec, lengthSet := true })).done

/-- BASS_FREQ (40_buffer_config.md R107). -/
def execBassFreq (b : BufUnit) (freq : Word) (s : State) : Result :=
  s.unlessFaulted (s.setBuf b ((s.buf b).setBass freq)).done

/-- CLEAR (40_buffer_config.md R108). -/
def execClear (b : BufUnit) (s : State) : Result :=
  s.unlessFaulted (s.setBuf b (s.buf b).clear).done

/-- GET_FLAGS (40_buffer_config.md R110). -/
def execGetFlags (b : BufUnit) (s : State) : Result :=
  s.unlessFaulted (s.answer (BitVec.ofNat 64 (s.buf b).flagWord) 0)

end Sys2Proof.Machine
end

