-- ==== Sys2Proof/Machine/BufferRead.lean ====
section
/-! DEFINITION. Read and removal commands (42_buffer_read.md). -/

namespace Sys2Proof.Machine

/-- READ_SAMPLES (42_buffer_read.md R142). -/
def execReadSamples (b : BufUnit) (maxCount : Word) (s : State) : Result :=
  s.unlessFaulted (s.readUnit b maxCount.toNat)

/-- REMOVE_SAMPLES (42_buffer_read.md R143). -/
def execRemoveSamples (b : BufUnit) (count : Word) (s : State) : Result :=
  s.unlessFaulted <|
    match (s.buf b).removeTest s.cfg count with
    | some code => s.raiseFault code
    | none => s.removeUnit b count.toNat 0

/-- REMOVE_SILENCE (42_buffer_read.md R144). -/
def execRemoveSilence (b : BufUnit) (count : Word) (s : State) : Result :=
  s.unlessFaulted <|
    match (s.buf b).removeTest s.cfg count with
    | some code => s.raiseFault code
    | none =>
      if !Memory.silentBelow (s.buf b).delta count.toNat then s.raiseFault .notSilent
      else s.removeUnit b count.toNat 0

end Sys2Proof.Machine
end

