-- ==== Sys2Proof/Machine/BufferTime.lean ====
section
/-! DEFINITION. Time mapping, deposit and end of frame (41_buffer_time_deposit.md). -/

namespace Sys2Proof.Machine

/-- TO_FIXED (41_buffer_time_deposit.md R121). -/
def execToFixed (b : BufUnit) (tick : Word) (s : State) : Result :=
  s.unlessFaulted (s.answer (BitVec.ofNat 64 ((s.buf b).toFixed tick.toNat)) 0)

/-- DEPOSIT (41_buffer_time_deposit.md R123). -/
def execDeposit (b : BufUnit) (position delta : Word) (s : State) : Result :=
  s.unlessFaulted <|
    let u := s.buf b
    let i := slotOf s.cfg position.toNat
    if !u.configured then s.raiseFault .notConfigured
    else if u.bufferSize.toNat ≤ i then s.raiseFault .depositRange
    else s.needSlots (i + 1) (s.setBuf b (u.deposit i delta)).done

/-- END_FRAME (41_buffer_time_deposit.md R124). -/
def execEndFrame (b : BufUnit) (duration : Word) (s : State) : Result :=
  s.unlessFaulted <|
    match (s.buf b).frameTest s.cfg duration with
    | some code => s.raiseFault code
    | none => (s.setBuf b ((s.buf b).endFrame s.cfg duration)).done

/-- SAMPLES_AVAIL (41_buffer_time_deposit.md R125). -/
def execSamplesAvail (b : BufUnit) (s : State) : Result :=
  s.unlessFaulted (s.answer (BitVec.ofNat 64 ((s.buf b).samplesAvail s.cfg)) 0)

end Sys2Proof.Machine
end

