-- ==== Sys2Proof/Machine/MultiBuffer.lean ====
section
/-! DEFINITION. Multi-buffer commands (45_multi_buffer.md). Every command is atomic over the active set
(R222): all tests come first, unit by unit in the order L, R, C; the first failing one decides. -/

namespace Sys2Proof.Machine

/-- MB_SET_CHANNEL_COUNT (45_multi_buffer.md R211). -/
def execMbSetChannelCount (count : Word) (s : State) : Result :=
  s.unlessFaulted <|
    if s.cfg.maxChannels < count.toNat then s.fail .errNomem
    else
      State.done
        { s with
          channelCount := BitVec.ofNat 16 count.toNat
          channelTypes := List.replicate s.cfg.maxChannels 0
          changedCount := s.changedCount + 1 }

/-- MB_SET_CHANNEL_TYPE (45_multi_buffer.md R212): only B[15:0] is kept. -/
def execMbSetChannelType (index tag : Word) (s : State) : Result :=
  s.unlessFaulted <|
    if s.channelCount.toNat ≤ index.toNat then s.fail .errInvalid
    else if s.channelTypes.length ≤ index.toNat then .fault .noSuchChannel
    else
      State.done
        { s with
          channelTypes := s.channelTypes.set index.toNat (tag.setWidth 16)
          changedCount := s.changedCount + 1 }

/-- MB_CHANNEL (45_multi_buffer.md R213). -/
def execMbChannel (index : Word) (s : State) : Result :=
  s.unlessFaulted <|
    if s.channelCount.toNat ≤ index.toNat then s.fail .errInvalid
    else
      match s.channelTypes[index.toNat]? with
      | none => .fault .noSuchChannel
      | some tag => s.answer (routingWord s.cfg.composition tag) 0

/-- The tests of MB_SET_SAMPLE_RATE on one unit, in order (R214). -/
def sampleRateTest (c : Config) (sampleRate msec : Word) (u : BufferUnit) : Option Status :=
  if c.bufCapacity < sizeFor c sampleRate.toNat msec.toNat then some .errNomem
  else if 0 < u.clockRate.toNat ∧
      !representable (ratio c u.clockRate.toNat sampleRate.toNat) then some .errInvalid
  else none

/-- MB_SET_SAMPLE_RATE (45_multi_buffer.md R214). -/
def execMbSetSampleRate (sampleRate msec : Word) (s : State) : Result :=
  s.unlessFaulted <|
    if sampleRate.toInt ≤ 0 then s.fail .errInvalid
    else
      match (activeSet s.cfg).findSome? fun b => sampleRateTest s.cfg sampleRate msec (s.buf b) with
      | some status => s.fail status
      | none =>
        (State.updateBufs { s with mbSampleRate := sampleRate, mbLengthMs := msec }
          (activeSet s.cfg) fun u =>
            BufferUnit.reconfigure s.cfg
              { u with sampleRate := sampleRate, lengthMs := msec, lengthSet := true }).done

/-- The test of MB_CLOCK_RATE on one unit (R215). -/
def clockRateTest (c : Config) (clockRate : Word) (u : BufferUnit) : Option Status :=
  if 0 < u.sampleRate.toNat ∧ !representable (ratio c clockRate.toNat u.sampleRate.toNat) then
    some .errInvalid
  else none

/-- MB_CLOCK_RATE (45_multi_buffer.md R215). -/
def execMbClockRate (clockRate : Word) (s : State) : Result :=
  s.unlessFaulted <|
    if clockRate.toInt ≤ 0 then s.fail .errInvalid
    else
      match (activeSet s.cfg).findSome? fun b => clockRateTest s.cfg clockRate (s.buf b) with
      | some status => s.fail status
      | none =>
        (s.updateBufs (activeSet s.cfg) fun u =>
          BufferUnit.reconfigure s.cfg { u with clockRate := clockRate }).done

/-- MB_BASS_FREQ (45_multi_buffer.md R216). -/
def execMbBassFreq (freq : Word) (s : State) : Result :=
  s.unlessFaulted (s.updateBufs (activeSet s.cfg) (BufferUnit.setBass freq)).done

/-- MB_CLEAR (45_multi_buffer.md R217). -/
def execMbClear (s : State) : Result :=
  s.unlessFaulted
    (State.done { s.updateBufs (activeSet s.cfg) BufferUnit.clear with samplesRead := 0 })

/-- MB_END_FRAME (45_multi_buffer.md R218). -/
def execMbEndFrame (duration : Word) (s : State) : Result :=
  s.unlessFaulted <|
    match (activeSet s.cfg).findSome? fun b => (s.buf b).frameTest s.cfg duration with
    | some code => s.raiseFault code
    | none => (s.updateBufs (activeSet s.cfg) (BufferUnit.endFrame s.cfg duration)).done

/-- MB_READ_SAMPLES (45_multi_buffer.md R219): the composition's read path. -/
def execMbReadSamples (maxCount : Word) (s : State) : Result :=
  s.unlessFaulted <|
    match s.cfg.composition with
    | .mono => s.readUnit .center maxCount.toNat
    | .stereo => s.readPairs (maxCount.toNat / 2) 2
    | .silent => s.done

/-- MB_SAMPLES_AVAIL (45_multi_buffer.md R220). -/
def execMbSamplesAvail (s : State) : Result :=
  s.unlessFaulted <|
    match s.cfg.composition with
    | .mono => s.answer (BitVec.ofNat 64 (s.center.samplesAvail s.cfg)) 0
    | .stereo => s.answer (BitVec.ofNat 64 (2 * s.pairsAvail)) 0
    | .silent => s.done

/-- MB_CHANGED (45_multi_buffer.md R221). -/
def execMbChanged (s : State) : Result :=
  s.unlessFaulted (s.answer (s.changedCount.setWidth 64) 0)

end Sys2Proof.Machine
end

