-- ==== Sys2Proof/Machine/Synth.lean ====
section
/-! DEFINITION. Impulse kernel synthesizer commands (43_synth.md). -/

namespace Sys2Proof.Machine

/-- SYN_OUTPUT (43_synth.md R162). -/
def execSynOutput (u : SynthSel) (route : Route) (s : State) : Result :=
  s.unlessFaulted <| s.withSynth u fun _ r => (s.setSynth u { r with out := route }).done

/-- SYN_VOLUME (43_synth.md R164). A FAST unit ignores the shift. -/
def execSynVolume (u : SynthSel) (deltaFactor shift : Word) (s : State) : Result :=
  s.unlessFaulted <| s.withSynth u fun kind r =>
    if 31 < shift.toNat then s.fail .errInvalid
    else
      match kind with
      | .fast => (s.setSynth u { r with deltaFactor := deltaFactor }).done
      | .full w =>
        if shift.toNat = 0 then (s.setSynth u { r with deltaFactor := deltaFactor }).done
        else if r.kernelUnit.toNat / 2 ^ shift.toNat = 0 then s.fail .errInvalid
        else if !tableShape s.cfg w r.taps then .fault .noSuchTap
        else (s.setSynth u { r.rescale w shift.toNat with deltaFactor := deltaFactor }).done

/-- SYN_TREBLE_EQ (43_synth.md R165): a no-op on a FAST unit. -/
def execSynTrebleEq (u : SynthSel) (eq : Word) (s : State) : Result :=
  s.unlessFaulted <| s.withSynth u fun kind r =>
    match kind with
    | .fast => s.done
    | .full w =>
      (s.setSynth u
        { r with
          taps := kernelTable s.cfg eq w
          kernelUnit := BitVec.ofNat 32 s.cfg.kernelUnitBase }).done

/-- SYN_OFFSET (43_synth.md R170). -/
def execSynOffset (u : SynthSel) (sel : BufSel) (ticks delta : Word) (s : State) : Result :=
  s.unlessFaulted <| s.withSynth u fun kind r =>
    match targetOf r sel with
    | none => s.done
    | some t => s.synthesize kind r t ticks delta id

/-- SYN_UPDATE (43_synth.md R171): the delta is `amplitude − last_amp`, wrapped. -/
def execSynUpdate (u : SynthSel) (sel : BufSel) (ticks amplitude : Word) (s : State) : Result :=
  s.unlessFaulted <| s.withSynth u fun kind r =>
    let delta := wrap32 (amplitude.toInt - r.lastAmp.toInt)
    let record := fun s' : State => s'.setSynth u { r with lastAmp := amplitude }
    match targetOf r sel with
    | none => (record s).done
    | some t => s.synthesize kind r t ticks delta record

/-- SYN_SET_AMP (43_synth.md R172). -/
def execSynSetAmp (u : SynthSel) (amplitude : Word) (s : State) : Result :=
  s.unlessFaulted <| s.withSynth u fun _ r => (s.setSynth u { r with lastAmp := amplitude }).done

end Sys2Proof.Machine
end

