-- ==== Sys2Proof/Machine/System.lean ====
section
/-! DEFINITION. The system command (46_system.md). -/

namespace Sys2Proof.Machine

/-- GET_STATUS (46_system.md R240): the one command executed while a fault is recorded
(60_exceptions.md R255). -/
def execGetStatus (s : State) : Result := s.answer s.statusWord 0

end Sys2Proof.Machine
end

