-- ==== Sys2Proof/Machine/Tracked.lean ====
section
/-! DEFINITION. Silence tracking and the stereo mixer (44_tracked_mixer.md). -/

namespace Sys2Proof.Machine

/-- NON_SILENT (44_tracked_mixer.md R191). -/
def execNonSilent (b : BufUnit) (s : State) : Result :=
  s.unlessFaulted (s.answer (BitVec.ofNat 64 (s.buf b).nonSilent.toNat) 0)

/-- REMOVE_ALL_SAMPLES (44_tracked_mixer.md R192). -/
def execRemoveAllSamples (b : BufUnit) (s : State) : Result :=
  s.unlessFaulted <|
    let u := s.buf b
    let n := u.samplesAvail s.cfg
    if !u.configured then s.raiseFault .notConfigured
    else s.removeUnit b n (BitVec.ofNat 64 n)

/-- READ_PAIRS (44_tracked_mixer.md R194). -/
def execReadPairs (pairCount : Word) (s : State) : Result :=
  s.unlessFaulted (s.readPairs pairCount.toNat 1)

end Sys2Proof.Machine
end

