-- ==== Sys2Proof/Machine/Dispatch.lean ====
section
/-! DEFINITION. The meaning of every command: one arm per row of spec/opcode_table.json. -/

namespace Sys2Proof.Machine

def exec (i : Instr) (s : State) : Host.Outcome State Fault Refusal :=
  match i with
  | .setRates b clockRate sampleRate => Sys2Proof.Machine.execSetRates b clockRate sampleRate s
  | .setLength b msec => Sys2Proof.Machine.execSetLength b msec s
  | .bassFreq b freq => Sys2Proof.Machine.execBassFreq b freq s
  | .clear b => Sys2Proof.Machine.execClear b s
  | .toFixed b tick => Sys2Proof.Machine.execToFixed b tick s
  | .deposit b position delta => Sys2Proof.Machine.execDeposit b position delta s
  | .endFrame b duration => Sys2Proof.Machine.execEndFrame b duration s
  | .samplesAvail b => Sys2Proof.Machine.execSamplesAvail b s
  | .readSamples b maxCount => Sys2Proof.Machine.execReadSamples b maxCount s
  | .removeSilence b count => Sys2Proof.Machine.execRemoveSilence b count s
  | .removeSamples b count => Sys2Proof.Machine.execRemoveSamples b count s
  | .nonSilent b => Sys2Proof.Machine.execNonSilent b s
  | .removeAllSamples b => Sys2Proof.Machine.execRemoveAllSamples b s
  | .getFlags b => Sys2Proof.Machine.execGetFlags b s
  | .synOutput u route => Sys2Proof.Machine.execSynOutput u route s
  | .synVolume u deltaFactor shift => Sys2Proof.Machine.execSynVolume u deltaFactor shift s
  | .synTrebleEq u eq => Sys2Proof.Machine.execSynTrebleEq u eq s
  | .synOffset u sel ticks delta => Sys2Proof.Machine.execSynOffset u sel ticks delta s
  | .synUpdate u sel ticks amplitude => Sys2Proof.Machine.execSynUpdate u sel ticks amplitude s
  | .synSetAmp u amplitude => Sys2Proof.Machine.execSynSetAmp u amplitude s
  | .readPairs pairCount => Sys2Proof.Machine.execReadPairs pairCount s
  | .mbSetChannelCount count => Sys2Proof.Machine.execMbSetChannelCount count s
  | .mbSetChannelType index tag => Sys2Proof.Machine.execMbSetChannelType index tag s
  | .mbChannel index => Sys2Proof.Machine.execMbChannel index s
  | .mbSetSampleRate sampleRate msec => Sys2Proof.Machine.execMbSetSampleRate sampleRate msec s
  | .mbClockRate clockRate => Sys2Proof.Machine.execMbClockRate clockRate s
  | .mbBassFreq freq => Sys2Proof.Machine.execMbBassFreq freq s
  | .mbClear => Sys2Proof.Machine.execMbClear s
  | .mbEndFrame duration => Sys2Proof.Machine.execMbEndFrame duration s
  | .mbReadSamples maxCount => Sys2Proof.Machine.execMbReadSamples maxCount s
  | .mbSamplesAvail => Sys2Proof.Machine.execMbSamplesAvail s
  | .mbChanged => Sys2Proof.Machine.execMbChanged s
  | .getStatus => Sys2Proof.Machine.execGetStatus s

end Sys2Proof.Machine
end

