-- ==== Sys2Proof/Machine/Step.lean ====
section
/-! DEFINITION. One step of the machine: the CORE takes the oldest input of the command port
(00_scope.md R5, 20_memory.md R64, R70). -/

namespace Sys2Proof.Machine

/-- One step. With no input presented the CORE does nothing (assumption log 2). A reset event sets the
reset values (70_reset_and_hazards.md R280). A frame is decoded: an illegal one is answered
ERR_ILLEGAL before anything else (30_encoding.md R86, R88), a legal one is executed. -/
def step (s : State) : Host.Outcome State Fault Refusal :=
  match s.takeInput with
  | none => .next s
  | some (.reset, s') => .next s'.applyReset
  | some (.frame f, s') =>
    match decodeFrame s'.cfg f with
    | .error _ => s'.answerIllegal
    | .ok i => exec i s'

/-- The state with a frame of `nbits` bits `w`, zero above, at the head of the command port: the next
step takes exactly it (assumption log 3). -/
def State.withFetchWord (s : State) (nbits w : Nat) : State :=
  s.present (.frame (tableFrame nbits w))

end Sys2Proof.Machine
end

