-- ==== Sys2Proof/Machine/Assembler.lean ====
section
/-! DEFINITION. The assembler line of a command (30_encoding.md R89) and the two pseudo-instructions
(R90). An assembler line stands for frames; it may stand for an illegal one (a ROUTED selector of
SYN_OUTPUT, a unit number at or above NSYNTH), which the decoder then refuses. -/

namespace Sys2Proof.Machine

/-- The format of a command's fields (30_encoding.md R81). -/
inductive Format
  | u
  | s
  | sb
  | n
  deriving DecidableEq, Repr

/-- One row of the opcode map as the assembler reads it (30_encoding.md R80): which of A and B the
command uses, and whether its selector may be left out (R89). -/
structure AsmRow where
  mnemonic : String
  opcode : BitVec 8
  format : Format
  usesA : Bool
  usesB : Bool
  selOptional : Bool := false
  deriving DecidableEq, Repr

/-- The assembler's opcode map (R80). -/
def asmRows : List AsmRow :=
  [ ⟨"SET_RATES", 0x10, .u, true, true, false⟩
  , ⟨"SET_LENGTH", 0x11, .u, true, false, false⟩
  , ⟨"BASS_FREQ", 0x12, .u, true, false, false⟩
  , ⟨"CLEAR", 0x13, .u, false, false, false⟩
  , ⟨"TO_FIXED", 0x14, .u, true, false, false⟩
  , ⟨"DEPOSIT", 0x15, .u, true, true, false⟩
  , ⟨"END_FRAME", 0x16, .u, true, false, false⟩
  , ⟨"SAMPLES_AVAIL", 0x17, .u, false, false, false⟩
  , ⟨"READ_SAMPLES", 0x18, .u, true, false, false⟩
  , ⟨"REMOVE_SILENCE", 0x19, .u, true, false, false⟩
  , ⟨"REMOVE_SAMPLES", 0x1A, .u, true, false, false⟩
  , ⟨"NON_SILENT", 0x1B, .u, false, false, false⟩
  , ⟨"REMOVE_ALL_SAMPLES", 0x1C, .u, false, false, false⟩
  , ⟨"GET_FLAGS", 0x1D, .u, false, false, false⟩ ] ++
  [ ⟨"SYN_OUTPUT", 0x20, .sb, false, false, false⟩
  , ⟨"SYN_VOLUME", 0x21, .s, true, true, false⟩
  , ⟨"SYN_TREBLE_EQ", 0x22, .s, true, false, false⟩
  , ⟨"SYN_OFFSET", 0x23, .sb, true, true, true⟩
  , ⟨"SYN_UPDATE", 0x24, .sb, true, true, true⟩
  , ⟨"SYN_SET_AMP", 0x25, .s, true, false, false⟩
  , ⟨"READ_PAIRS", 0x30, .n, true, false, false⟩ ] ++
  [ ⟨"MB_SET_CHANNEL_COUNT", 0x40, .n, true, false, false⟩
  , ⟨"MB_SET_CHANNEL_TYPE", 0x41, .n, true, true, false⟩
  , ⟨"MB_CHANNEL", 0x42, .n, true, false, false⟩
  , ⟨"MB_SET_SAMPLE_RATE", 0x43, .n, true, true, false⟩
  , ⟨"MB_CLOCK_RATE", 0x44, .n, true, false, false⟩
  , ⟨"MB_BASS_FREQ", 0x45, .n, true, false, false⟩
  , ⟨"MB_CLEAR", 0x46, .n, false, false, false⟩
  , ⟨"MB_END_FRAME", 0x47, .n, true, false, false⟩
  , ⟨"MB_READ_SAMPLES", 0x48, .n, true, false, false⟩
  , ⟨"MB_SAMPLES_AVAIL", 0x49, .n, false, false, false⟩
  , ⟨"MB_CHANGED", 0x4A, .n, false, false, false⟩
  , ⟨"GET_STATUS", 0x7E, .n, false, false, false⟩ ]

/-! ### Tokens -/

/-- A token of an assembler line. -/
abbrev Token := List Char

/-- A token without the spaces around it. -/
def trimToken (t : Token) : Token := ((t.dropWhile (· == ' ')).reverse.dropWhile (· == ' ')).reverse

/-- A list of characters cut at each comma. -/
def splitCommas : List Char → List Token
  | [] => [[]]
  | c :: cs =>
    match splitCommas cs with
    | [] => [[c]]
    | t :: ts => if c == ',' then [] :: t :: ts else (c :: t) :: ts

/-- The value of a digit in the given base. -/
def digitValue (base : Nat) (ch : Char) : Option Nat :=
  let d := if '0' ≤ ch ∧ ch ≤ '9' then ch.toNat - 48
    else if 'a' ≤ ch ∧ ch ≤ 'f' then ch.toNat - 87
    else if 'A' ≤ ch ∧ ch ≤ 'F' then ch.toNat - 55
    else base
  if d < base then some d else none

/-- The number a list of digits stands for after `acc`. -/
def digitsValue (base acc : Nat) : Token → Option Nat
  | [] => some acc
  | ch :: rest =>
    match digitValue base ch with
    | some d => digitsValue base (base * acc + d) rest
    | none => none

/-- A decimal number: one or more decimal digits (R89). -/
def decimalValue : Token → Option Nat
  | d :: rest => digitsValue 10 0 (d :: rest)
  | [] => none

/-- An unsigned number: decimal, or hexadecimal with `0x` (R89). Hexadecimal digits are read in either
letter case (DEDUCED, assumption log 16). -/
def unsignedValue : Token → Option Nat
  | '0' :: 'x' :: d :: rest => digitsValue 16 0 (d :: rest)
  | t => decimalValue t

/-- A number of an assembler line as an integer (R89). R89 names a leading `-` for decimal numbers alone
and does not say what `-0x10` is: the model reads it as no number (DESIGN CHOICE, assumption log 16). -/
def numberValue : Token → Option Int
  | '-' :: rest => (decimalValue rest).map fun n => -(n : Int)
  | t => (unsignedValue t).map fun n => (n : Int)

/-- A number as an operand word: −2^31 .. 2^32−1, a negative one as its two's complement (R89). R89 does
not say what a number outside this range is: the model reads it as no operand (DESIGN CHOICE, assumption
log 16). -/
def wordToken (t : Token) : Option Word :=
  match numberValue t with
  | some v => if -(2 ^ 31) ≤ v ∧ v < 2 ^ 32 then some (BitVec.ofInt 32 v) else none
  | none => none

/-- A buffer unit: `L`, `R`, `C` (R89). -/
def bufToken (t : Token) : Option BufUnit :=
  if t = ['L'] then some .left
  else if t = ['R'] then some .right
  else if t = ['C'] then some .center
  else none

/-- A synthesizer unit: `s0`, `s1`, … (R89). R89 does not say how the dots go on: the model reads `s` and
a decimal number as far as the four-bit field reaches, and neither `s0xF` nor `s16` (DESIGN CHOICE,
assumption log 16). -/
def synthToken : Token → Option SynthSel
  | 's' :: rest =>
    match decimalValue rest with
    | some n => if n < 16 then some (BitVec.ofNat 4 n) else none
    | none => none
  | _ => none

/-- A buffer selector: `L`, `R`, `C`, `NONE`, `ROUTED` (R89). -/
def selToken (t : Token) : Option BufSel :=
  if t = ['N', 'O', 'N', 'E'] then some (.explicit none)
  else if t = ['R', 'O', 'U', 'T', 'E', 'D'] then some .routed
  else (bufToken t).map fun b => .explicit (some b)

/-! ### Lines -/

/-- The operand words a row uses, from the last tokens of a line; an unused word is 0 (R89). -/
def asmWords (row : AsmRow) (ts : List Token) : Option (Word × Word) :=
  match row.usesA, row.usesB, ts with
  | false, false, [] => some (0, 0)
  | true, false, [a] => (wordToken a).map fun x => (x, 0)
  | true, true, [a, b] =>
    match wordToken a, wordToken b with
    | some x, some y => some (x, y)
    | _, _ => none
  | _, _, _ => none

/-- The frame of a row with its header fields given. -/
def asmFrame (row : AsmRow) (u : BitVec 4) (sel : BitVec 3) (ts : List Token) : Option Frame :=
  (asmWords row ts).map fun p => Frame.ofWords (headerOf row.opcode u sel) p.1 p.2

/-- The frame of a command line: the unit, the selector of format SB, then A and B (R89). -/
def asmCommand (row : AsmRow) (ts : List Token) : Option Frame :=
  match row.format, ts with
  | .n, ts => asmFrame row 0 0 ts
  | .u, t :: ts =>
    match bufToken t with
    | some b => asmFrame row b.code 0 ts
    | none => none
  | .s, t :: ts =>
    match synthToken t with
    | some s => asmFrame row s 0 ts
    | none => none
  | .sb, t :: t' :: ts =>
    match synthToken t, selToken t' with
    | some s, some k => asmFrame row s k.code ts
    | some s, none => if row.selOptional then asmFrame row s BufSel.routed.code (t' :: ts) else none
    | none, _ => none
  | _, _ => none

/-- `CONFIG u, clock, rate, ms`: SET_LENGTH, then SET_RATES (30_encoding.md R90). -/
def asmConfig : List Token → Option (List Frame)
  | [u, clock, rate, ms] =>
    match bufToken u, wordToken clock, wordToken rate, wordToken ms with
    | some b, some k, some r, some m => some [encode (.setLength b m), encode (.setRates b k r)]
    | _, _, _, _ => none
  | _ => none

/-- `DEPOSIT_AT u, slot, delta`: DEPOSIT at `slot × 2^FIXED_BITS`, for a slot below
`2^(32−FIXED_BITS)` (R90). -/
def asmDepositAt (c : Config) : List Token → Option (List Frame)
  | [u, slot, delta] =>
    match bufToken u, unsignedValue slot, wordToken delta with
    | some b, some n, some d =>
      if n < 2 ^ (32 - c.fixedBits) then
        some [encode (.deposit b (BitVec.ofNat 32 (n * 2 ^ c.fixedBits)) d)]
      else none
    | _, _, _ => none
  | _ => none

/-- The frames an assembler line stands for; `;` starts a comment (R89). -/
def assemble (c : Config) (line : String) : Option (List Frame) :=
  let body := trimToken (line.toList.takeWhile (· ≠ ';'))
  let name := body.takeWhile (· ≠ ' ')
  let rest := trimToken (body.dropWhile (· ≠ ' '))
  let ts := if rest = [] then [] else (splitCommas rest).map trimToken
  if name = "CONFIG".toList then asmConfig ts
  else if name = "DEPOSIT_AT".toList then asmDepositAt c ts
  else
    match asmRows.find? fun row => row.mnemonic.toList == name with
    | some row => (asmCommand row ts).map fun f => [f]
    | none => none

end Sys2Proof.Machine
end

