-- ==== Sys2Proof/Machine/Transport.lean ====
section
/-! DEFINITION. The byte form of a response and of OUT samples on a byte-wide channel, and its reading by
the host (20_memory.md R65): every value least significant byte first. The form of a frame is
`Frame.bytes`. No step uses either: R65 says that the choice "is invisible to every rule of the spec". -/

namespace Sys2Proof.Machine

/-- The 13 bytes of a response: status, `val`, `nout`, each least significant byte first
(20_memory.md R65). That the fields follow in the order 30_encoding.md R82 names them, with nothing
between, is the model's choice (DESIGN CHOICE, assumption log 17). -/
def Response.bytes (r : Response) : List Byte :=
  littleEndian 1 r.status.code ++ littleEndian 8 r.val ++ littleEndian 4 r.nout

/-- The bytes of samples in the order of OUT, two for each, least significant first (20_memory.md R63,
R65). -/
def samplesBytes (xs : List Sample) : List Byte := xs.flatMap (littleEndian 2)

/-- The status a code names; codes 0x06 .. 0xFF are never produced (30_encoding.md R83). -/
def statusOf (code : Byte) : Option Status :=
  if code = 0x00 then some .ok
  else if code = 0x01 then some .errInvalid
  else if code = 0x02 then some .errNomem
  else if code = 0x03 then some .errIllegal
  else if code = 0x04 then some .fault
  else if code = 0x05 then some .errFaulted
  else none

/-- The first response of a byte stream and what follows it; none where the stream ends inside a response
or the status code is none of R83 (DESIGN CHOICE, assumption log 17). -/
def takeResponse : List Byte → Option (Response × List Byte)
  | [] => none
  | code :: r0 =>
    match statusOf code, takeWord r0 with
    | some status, some (low, r1) =>
      match takeWord r1 with
      | none => none
      | some (high, r2) =>
        match takeWord r2 with
        | none => none
        | some (nout, rest) => some (⟨status, high ++ low, nout⟩, rest)
    | _, _ => none

/-- The first n samples of a byte stream and what follows them; none where the stream ends inside them
(assumption log 17). -/
def takeSamples : Nat → List Byte → Option (List Sample × List Byte)
  | 0, bs => some ([], bs)
  | n + 1, b0 :: b1 :: rest =>
    match takeSamples n rest with
    | none => none
    | some (xs, bs) => some ((b1 ++ b0) :: xs, bs)
  | _ + 1, _ => none

end Sys2Proof.Machine
end

