-- ==== Sys2Proof/Safety.lean ====
section
/-! DEFINITION. The terms claims are stated in: the invariant of the machine (10_state.md R26 and the
bounds of its register tables), reachability, illegal frames (30_encoding.md R86), the rows of the
opcode table (R87), and accumulator runs (42_buffer_read.md R140). -/

namespace Sys2Proof.Machine

/-! ### The invariant -/

/-- 10_state.md R26 for one buffer unit, with slot contents read through `Memory.read`. -/
def BufferUnit.meetsR26 (c : Config) (u : BufferUnit) : Prop :=
  -- (a)
  (u.bufferSize ≠ 0 → u.samplesAvail c ≤ u.nominal c) ∧
  (u.bufferSize = 0 → u.offset = 0) ∧
  -- (b)
  (u.bufferSize = 0 ∨ c.extra ≤ u.bufferSize.toNat ∧ u.bufferSize.toNat ≤ c.bufCapacity) ∧
  -- (c)
  u.lastNonSilence.toNat ≤ u.bufferSize.toNat ∧
  -- (d)
  (∀ i, u.bufferSize.toNat ≤ i → Memory.read u.delta i = 0) ∧
  -- (e)
  (u.factor ≠ 0 → 0 < u.clockRate.toNat ∧ 0 < u.sampleRate.toNat)

/-- The invariant of a buffer unit: R26, the canonical form of its memory, and that the derived
registers `factor` and `buffer_size` are those of its configuration registers, in range
(40_buffer_config.md R104: "Every caller has checked beforehand …"). -/
abbrev BufferUnit.Inv (c : Config) (u : BufferUnit) : Prop :=
  u.samplesAvail c ≤ u.nominal c ∧
  (u.bufferSize = 0 → u.offset = 0) ∧
  u.lastNonSilence.toNat ≤ u.bufferSize.toNat ∧
  Memory.wf u.delta ∧
  (∀ p ∈ u.delta, p.1 < u.bufferSize.toNat) ∧
  (u.lengthSet = true → sizeFor c u.sampleRate.toNat u.lengthMs.toNat ≤ c.bufCapacity) ∧
  u.bufferSize =
    (if u.lengthSet then BitVec.ofNat 32 (sizeFor c u.sampleRate.toNat u.lengthMs.toNat) else 0) ∧
  (0 < u.clockRate.toNat → 0 < u.sampleRate.toNat →
    representable (ratio c u.clockRate.toNat u.sampleRate.toNat) = true) ∧
  u.factor =
    (if 0 < u.clockRate.toNat ∧ 0 < u.sampleRate.toNat then
      BitVec.ofNat 32 (ratio c u.clockRate.toNat u.sampleRate.toNat) else 0)

/-- The invariant of a synthesizer unit: a FAST unit has no kernel; a FULL unit with a kernel has RES
phases of W taps, each phase summing to `kernel_unit` (10_state.md R29, R30; 43_synth.md R161). -/
abbrev SynthUnit.Inv (c : Config) (kind : SynthKind) (r : SynthUnit) : Prop :=
  match kind with
  | .fast => r.kernelUnit = 0
  | .full w =>
    r.kernelUnit = 0 ∨
      tableShape c w r.taps = true ∧ ∀ row ∈ r.taps, tapSum row = (r.kernelUnit.toNat : Int)

/-- The invariant of the machine. -/
abbrev State.Inv (s : State) : Prop :=
  s.cfg.valid = true ∧
  s.left.Inv s.cfg ∧ s.right.Inv s.cfg ∧ s.center.Inv s.cfg ∧
  s.synths.length = s.cfg.nsynth ∧
  (∀ p ∈ s.cfg.synths.zip s.synths, SynthUnit.Inv s.cfg p.1 p.2) ∧
  s.channelCount.toNat ≤ s.cfg.maxChannels ∧
  s.channelTypes.length = s.cfg.maxChannels ∧
  s.sysFault.toNat ≤ 6

/-! ### Runs -/

/-- The states the machine can be in: from reset, the host presents inputs and the CORE steps
(00_scope.md R5, 20_memory.md R64). -/
inductive Reachable (c : Config) : State → Prop
  | reset : Reachable c (State.resetWith c)
  | present (s : State) (x : Input) :
      Reachable c s → Reachable c { s with pending := s.pending ++ [x] }
  | step (s t : State) :
      Reachable c s → Sys2Proof.Machine.step s = .next t → Reachable c t

/-- The accumulator after k integrator steps on slots 0, 1, … of a unit (42_buffer_read.md R140), as
the rule writes it: `a + DELTA[i] − asr(a, bass_shift)`, wrapped. -/
def BufferUnit.accumAt (u : BufferUnit) : Nat → Word
  | 0 => u.readerAccum
  | k + 1 =>
    let a := BufferUnit.accumAt u k
    wrap32 (a.toInt + (Memory.read u.delta k).toInt - asr a.toInt u.bassShift.toNat)

/-- Unit v is unit u after its n leading slots were integrated and consumed (42_buffer_read.md R140,
R141): the accumulator after n steps, the cursor and the counter lowered, what was slot n now slot 0,
the vacated slots 0, every other register as it was. -/
def BufferUnit.Drained (c : Config) (n : Nat) (u v : BufferUnit) : Prop :=
  v = { u with
    readerAccum := u.accumAt n
    offset := v.offset
    lastNonSilence := v.lastNonSilence
    delta := v.delta } ∧
  v.offset.toNat + n * 2 ^ c.fixedBits = u.offset.toNat ∧
  v.lastNonSilence.toNat = u.lastNonSilence.toNat - n ∧
  Memory.wf v.delta ∧
  ∀ j, Memory.read v.delta j =
    if u.bufferSize.toNat ≤ j then Memory.read u.delta j
    else if j + n < u.bufferSize.toNat then Memory.read u.delta (j + n) else 0

/-- Unit v is unit u after `reconfigure` (40_buffer_config.md R104): the derived registers are F, SZ and
BS of the configuration registers, exactly, and the unit is cleared (R109). -/
def BufferUnit.Reconfigured (c : Config) (u v : BufferUnit) : Prop :=
  v = { u with
    factor := v.factor
    bufferSize := v.bufferSize
    bassShift := v.bassShift
    offset := 0
    readerAccum := 0
    modified := false
    lastNonSilence := 0
    delta := v.delta } ∧
  v.factor.toNat =
    (if 0 < u.clockRate.toNat ∧ 0 < u.sampleRate.toNat then
      ratio c u.clockRate.toNat u.sampleRate.toNat else 0) ∧
  v.bufferSize.toNat =
    (if u.lengthSet then sizeFor c u.sampleRate.toNat u.lengthMs.toNat else 0) ∧
  v.bassShift.toNat =
    (if 0 < u.sampleRate.toNat then bassShiftFor u.bassFreq.toInt u.sampleRate.toNat
      else u.bassShift.toNat) ∧
  Memory.wf v.delta ∧ ∀ i, Memory.read v.delta i = 0

/-- The cover the tracking counter gives up to the `END_FRAME` of duration d that closes the frame
(44_tracked_mixer.md R193): the counter is at most `samples_avail + EXTRA`, and a non-zero slot lies
below it, or, while a deposit is not yet counted, below the end of the last footprint the frame can
have. -/
def BufferUnit.TrackedUpTo (c : Config) (d : Nat) (u : BufferUnit) : Prop :=
  u.lastNonSilence.toNat ≤ u.samplesAvail c + c.extra ∧
  ∀ j, Memory.read u.delta j ≠ 0 →
    j < u.lastNonSilence.toNat ∨
      u.modified = true ∧ j < slotOf c (u.toFixed d) + c.extra

/-! ### Byte forms (20_memory.md R65) -/

/-- Byte k of a byte form holds the number v. -/
def byteAt (bs : List Byte) (k v : Nat) : Prop := ∃ b, bs[k]? = some b ∧ b.toNat = v

/-! ### Synthesized deposits -/

/-- The variant and the registers of synthesizer unit u (00_scope.md R7, 10_state.md R29). -/
def hasSynth (s : State) (u : SynthSel) (kind : SynthKind) (r : SynthUnit) : Prop :=
  s.cfg.synths[u.toNat]? = some kind ∧ s.synths[u.toNat]? = some r

/-- `K[s][p][k]` (10_state.md R30); 0 where the table has no such tap. -/
def SynthUnit.tap (r : SynthUnit) (p k : Nat) : Word := (r.taps.getD p []).getD k 0

/-- What a deposit of the scaled delta v at position f adds into slot j, if it adds into it: the whole of
v into the base slot for a FAST unit (43_synth.md R168), tap k times v into slot `slot + FWD + k` for a
FULL unit (R169). -/
def synthShare (c : Config) (kind : SynthKind) (r : SynthUnit) (f : Nat) (v : Word) (j : Nat) :
    Option Word :=
  match kind with
  | .fast => if j = slotOf c f then some v else none
  | .full w =>
    if slotOf c f + fwd c w ≤ j ∧ j < slotOf c f + fwd c w + w then
      some (wrap32 ((r.tap (phaseOf c f) (j - (slotOf c f + fwd c w))).toInt * v.toInt))
    else none

/-- Unit v is unit u after shares were added into its slots: each share with a 32-bit wrap, `modified`
set, every other slot and register as it was (41_buffer_time_deposit.md R122, 43_synth.md R169). -/
def BufferUnit.Deposited (u v : BufferUnit) (share : Nat → Option Word) : Prop :=
  v = { u with delta := v.delta, modified := true } ∧
  Memory.wf v.delta ∧
  ∀ j, Memory.read v.delta j =
    match share j with
    | some d => wrap32 ((Memory.read u.delta j).toInt + d.toInt)
    | none => Memory.read u.delta j

/-! ### How a command ends (60_exceptions.md R250) -/

/-- A reported error (R251): only the response is new. -/
def endsInError (s t : State) : Prop :=
  ∃ status, (status = .errInvalid ∨ status = .errNomem ∨ status = .errIllegal) ∧
    t = { s with response := some ⟨status, 0, 0⟩ }

/-- A fault (R253): SYS.fault and the response are new. -/
def endsInFault (s t : State) : Prop :=
  ∃ code : FaultCode, s.sysFault = 0 ∧
    t = { s with sysFault := code.code, response := some ⟨.fault, code.code.setWidth 64, 0⟩ }

/-- A refusal while a fault is recorded (R255): only the response is new. -/
def endsRefused (s t : State) : Prop :=
  s.sysFault ≠ 0 ∧ t = { s with response := some ⟨.errFaulted, s.sysFault.setWidth 64, 0⟩ }

/-- The three ways of R250 that leave the command without its effect. -/
def endsWithoutEffect (s t : State) : Prop := endsInError s t ∨ endsInFault s t ∨ endsRefused s t

/-- The status of the last response is OK, with `nout` samples appended to OUT (30_encoding.md R82). -/
def endsOk (s t : State) : Prop :=
  ∃ val nout xs, t.response = some ⟨.ok, val, nout⟩ ∧ t.out = s.out ++ xs ∧
    nout = BitVec.ofNat 32 xs.length ∧ t.sysFault = s.sysFault

/-- The machine after a fault with a code (R253). -/
def State.faulted (s : State) (code : FaultCode) : State :=
  { s with sysFault := code.code, response := some ⟨.fault, code.code.setWidth 64, 0⟩ }

/-- The machine after a reported error (R251). -/
def State.errored (s : State) (status : Status) : State :=
  { s with response := some ⟨status, 0, 0⟩ }

/-- Commands executed one after the other, as long as each answers a next state (20_memory.md R70). -/
def execAll : List Instr → State → Result
  | [], s => .next s
  | i :: rest, s =>
    match exec i s with
    | .next t => execAll rest t
    | r => r

/-! ### What a command may write (10_state.md R25, R29; 20_memory.md R61) -/

/-- The buffer units a command may write. -/
def writtenUnits (s : State) : Instr → List BufUnit
  | .setRates b _ _ | .setLength b _ | .bassFreq b _ | .clear b | .deposit b _ _ | .endFrame b _
  | .readSamples b _ | .removeSilence b _ | .removeSamples b _ | .removeAllSamples b => [b]
  | .synOffset u sel _ _ | .synUpdate u sel _ _ =>
    match s.synths[u.toNat]? with
    | some r => (targetOf r sel).toList
    | none => []
  | .readPairs _ => [.left, .right, .center]
  | .mbSetSampleRate _ _ | .mbClockRate _ | .mbBassFreq _ | .mbClear | .mbEndFrame _
  | .mbReadSamples _ => activeSet s.cfg
  | .toFixed _ _ | .samplesAvail _ | .nonSilent _ | .getFlags _ | .synOutput _ _ | .synVolume _ _ _
  | .synTrebleEq _ _ | .synSetAmp _ _ | .mbSetChannelCount _ | .mbSetChannelType _ _ | .mbChannel _
  | .mbSamplesAvail | .mbChanged | .getStatus => []

end Sys2Proof.Machine

namespace Sys2Proof

/-! ### Classes of commands -/

/-- The commands whose rule calls `reconfigure` (R25, 40_buffer_config.md R104). -/
def Instr.reconfigures : Instr → Bool
  | .setRates _ _ _ | .setLength _ _ | .mbSetSampleRate _ _ | .mbClockRate _ => true
  | _ => false

/-- The commands whose rule calls `clear`, itself or through `reconfigure` (40_buffer_config.md R109). -/
def Instr.clearsUnit : Instr → Bool
  | .clear _ | .mbClear => true
  | i => i.reconfigures

/-- The commands that end a frame (41_buffer_time_deposit.md R124, 45_multi_buffer.md R218). -/
def Instr.endsFrame : Instr → Bool
  | .endFrame _ _ | .mbEndFrame _ => true
  | _ => false

/-- The commands that integrate and consume slots (20_memory.md R61). -/
def Instr.consumesSlots : Instr → Bool
  | .readSamples _ _ | .removeSamples _ _ | .removeSilence _ _ | .removeAllSamples _
  | .readPairs _ | .mbReadSamples _ => true
  | _ => false

/-- The commands that deposit (20_memory.md R61). -/
def Instr.deposits : Instr → Bool
  | .deposit _ _ _ | .synOffset _ _ _ _ | .synUpdate _ _ _ _ => true
  | _ => false

/-- The commands that may append to OUT (20_memory.md R63). -/
def Instr.emits : Instr → Bool
  | .readSamples _ _ | .readPairs _ | .mbReadSamples _ => true
  | _ => false

/-- The commands 20_memory.md R67 lists as idempotent. -/
def Instr.idempotent : Instr → Bool
  | .toFixed _ _ | .samplesAvail _ | .nonSilent _ | .getFlags _ | .getStatus | .mbChannel _
  | .mbSamplesAvail | .mbChanged | .clear _ | .mbClear | .bassFreq _ _ | .mbBassFreq _
  | .setRates _ _ _ | .setLength _ _ | .mbSetSampleRate _ _ | .mbClockRate _ | .synOutput _ _
  | .synSetAmp _ _ | .synTrebleEq _ _ | .removeAllSamples _ => true
  | .synVolume _ _ shift => shift == 0
  | .readSamples _ n | .removeSamples _ n | .removeSilence _ n | .readPairs n | .mbReadSamples n =>
    n == 0
  | .deposit _ _ _ | .endFrame _ _ | .synOffset _ _ _ _ | .synUpdate _ _ _ _
  | .mbSetChannelCount _ | .mbSetChannelType _ _ | .mbEndFrame _ => false

/-- The multi-buffer commands (45_multi_buffer.md). -/
def Instr.isMultiBuffer : Instr → Bool
  | .mbSetChannelCount _ | .mbSetChannelType _ _ | .mbChannel _ | .mbSetSampleRate _ _
  | .mbClockRate _ | .mbBassFreq _ | .mbClear | .mbEndFrame _ | .mbReadSamples _
  | .mbSamplesAvail | .mbChanged => true
  | _ => false

/-- Whether a command uses operand word A (30_encoding.md R80, column A). -/
def Instr.usesA : Instr → Bool
  | .clear _ | .samplesAvail _ | .nonSilent _ | .removeAllSamples _ | .getFlags _ | .synOutput _ _
  | .mbClear | .mbSamplesAvail | .mbChanged | .getStatus => false
  | _ => true

/-- Whether a command uses operand word B (R80, column B). -/
def Instr.usesB : Instr → Bool
  | .setRates _ _ _ | .deposit _ _ _ | .synVolume _ _ _ | .synOffset _ _ _ _ | .synUpdate _ _ _ _
  | .mbSetChannelType _ _ | .mbSetSampleRate _ _ => true
  | _ => false

end Sys2Proof

namespace Sys2Proof.Machine

/-! ### Frames by the spec's own tables -/

/-- The opcodes of each format (30_encoding.md R80). -/
def opcodesOf : Format → List Nat
  | .u => [0x10, 0x11, 0x12, 0x13, 0x14, 0x15, 0x16, 0x17, 0x18, 0x19, 0x1A, 0x1B, 0x1C, 0x1D]
  | .s => [0x21, 0x22, 0x25]
  | .sb => [0x20, 0x23, 0x24]
  | .n => [0x30, 0x40, 0x41, 0x42, 0x43, 0x44, 0x45, 0x46, 0x47, 0x48, 0x49, 0x4A, 0x7E]

/-- The clauses (a) to (h) of 30_encoding.md R86, on the number a header word is. -/
def illegalHeader (c : Config) (w0 : Nat) : Prop :=
  let opcode := w0 % 256
  let u := w0 / 256 % 16
  let bsel := w0 / 4096 % 8
  let rsv := w0 / 32768
  rsv ≠ 0 ∨
  (∀ k, opcode ∉ opcodesOf k) ∨
  (opcode ∈ opcodesOf .n ∧ u ≠ 0) ∨
  (opcode ∉ opcodesOf .sb ∧ bsel ≠ 0) ∨
  (opcode ∈ opcodesOf .u ∧ 3 ≤ u) ∨
  ((opcode ∈ opcodesOf .s ∨ opcode ∈ opcodesOf .sb) ∧ c.nsynth ≤ u) ∨
  (opcode ∈ opcodesOf .sb ∧ 5 ≤ bsel) ∨
  (opcode = 0x20 ∧ bsel = 4)

/-- The range checks (e) to (h) of R86, on the fields the masks of R87 leave free. -/
def failsRangeCheck (c : Config) (w0 : Nat) : Prop :=
  let opcode := w0 % 256
  let u := w0 / 256 % 16
  let bsel := w0 / 4096 % 8
  (opcode ∈ opcodesOf .u ∧ 3 ≤ u) ∨
  ((opcode ∈ opcodesOf .s ∨ opcode ∈ opcodesOf .sb) ∧ c.nsynth ≤ u) ∨
  (opcode ∈ opcodesOf .sb ∧ 5 ≤ bsel) ∨
  (opcode = 0x20 ∧ bsel = 4)

/-- The mask of a format (30_encoding.md R87). -/
def maskOf : Format → Word
  | .n => 0xFFFFFFFF
  | .u => 0xFFFFF0FF
  | .s => 0xFFFFF0FF
  | .sb => 0xFFFF80FF

/-- The (match, mask) rows of spec/opcode_table.json (30_encoding.md R87). -/
def tableRows : List (Word × Word) :=
  [Format.u, .s, .sb, .n].flatMap fun k =>
    (opcodesOf k).map fun opcode => (BitVec.ofNat 32 opcode, maskOf k)

/-- The format of a command (30_encoding.md R80). -/
def formatOf : Instr → Format
  | .setRates _ _ _ | .setLength _ _ | .bassFreq _ _ | .clear _ | .toFixed _ _ | .deposit _ _ _
  | .endFrame _ _ | .samplesAvail _ | .readSamples _ _ | .removeSilence _ _ | .removeSamples _ _
  | .nonSilent _ | .removeAllSamples _ | .getFlags _ => .u
  | .synVolume _ _ _ | .synTrebleEq _ _ | .synSetAmp _ _ => .s
  | .synOutput _ _ | .synOffset _ _ _ _ | .synUpdate _ _ _ _ => .sb
  | .readPairs _ | .mbSetChannelCount _ | .mbSetChannelType _ _ | .mbChannel _
  | .mbSetSampleRate _ _ | .mbClockRate _ | .mbBassFreq _ | .mbClear | .mbEndFrame _
  | .mbReadSamples _ | .mbSamplesAvail | .mbChanged | .getStatus => .n

/-- The `match` value of a command's row: its opcode (30_encoding.md R80, R87). -/
def matchWordOf : Instr → Word
  | .setRates _ _ _ => 0x10
  | .setLength _ _ => 0x11
  | .bassFreq _ _ => 0x12
  | .clear _ => 0x13
  | .toFixed _ _ => 0x14
  | .deposit _ _ _ => 0x15
  | .endFrame _ _ => 0x16
  | .samplesAvail _ => 0x17
  | .readSamples _ _ => 0x18
  | .removeSilence _ _ => 0x19
  | .removeSamples _ _ => 0x1A
  | .nonSilent _ => 0x1B
  | .removeAllSamples _ => 0x1C
  | .getFlags _ => 0x1D
  | .synOutput _ _ => 0x20
  | .synVolume _ _ _ => 0x21
  | .synTrebleEq _ _ => 0x22
  | .synOffset _ _ _ _ => 0x23
  | .synUpdate _ _ _ _ => 0x24
  | .synSetAmp _ _ => 0x25
  | .readPairs _ => 0x30
  | .mbSetChannelCount _ => 0x40
  | .mbSetChannelType _ _ => 0x41
  | .mbChannel _ => 0x42
  | .mbSetSampleRate _ _ => 0x43
  | .mbClockRate _ => 0x44
  | .mbBassFreq _ => 0x45
  | .mbClear => 0x46
  | .mbEndFrame _ => 0x47
  | .mbReadSamples _ => 0x48
  | .mbSamplesAvail => 0x49
  | .mbChanged => 0x4A
  | .getStatus => 0x7E

end Sys2Proof.Machine
end

