-- ==== Sys2Proof/Certificates/Slice0/Obligations.lean ====
section
/-! DEFINITION. The statements for the provers. Each is a proposition about the machine, for every
configuration, every state and every operand its hypotheses admit; the rules of spec/ it rests on are
named in its docstring. In a statement about one command the next state is written out whole, so that
it says its frame as well: every register, slot and sample not named is as it was. -/

open Sys2Proof Sys2Proof.Machine

/-! ### Encoding (30_encoding.md, 20_memory.md R65) -/

/-- Decoding the frame of any well-formed command gives that command, with every operand (R80, R81, R84,
R85, R87). -/
def Obligations.DecodeEncodeAgree : Prop :=
  ∀ (c : Config) (i : Instr), i.wellFormed c = true → decodeFrame c (encode i) = .ok i

/-- A frame that decodes to a command differs from that command's encoding at most in the operand words
the command does not use, and the command is well formed (R80, R81, R86). -/
def Obligations.DecodedCommandReencodes : Prop :=
  ∀ (c : Config) (f : Frame) (i : Instr), decodeFrame c f = .ok i →
    i.wellFormed c = true ∧
    (encode i).header = f.header ∧
    (i.usesA = true → (encode i).operandA = f.operandA) ∧
    (i.usesB = true → (encode i).operandB = f.operandB)

/-- R81: "a word a command does not use is ignored, whatever it holds". -/
def Obligations.UnusedWordsAreIgnored : Prop :=
  ∀ (c : Config) (f : Frame) (i : Instr) (a b : Word), decodeFrame c f = .ok i →
    (i.usesA = true → a = f.operandA) → (i.usesB = true → b = f.operandB) →
    decodeFrame c (Frame.ofWords f.header a b) = .ok i

/-- On a byte-wide channel a frame, a response and the samples of OUT are sent least significant byte
first, a frame's words in the order W0, A, B (the low bits of a `Frame` are W0); each is read back, and
what follows it is left (20_memory.md R65). That a response is its status, `val` and `nout` in this
order, 13 bytes, is the model's choice, assumption log 17. -/
def Obligations.ByteFormRoundTrip : Prop :=
  (∀ (c : Config) (i : Instr) (rest : List Byte), i.wellFormed c = true →
    decodeBytes c (Frame.bytes (encode i) ++ rest) = .ok (i, rest)) ∧
  (∀ f : Frame, f.bytes.length = 12 ∧ ∀ k < 4,
    byteAt f.bytes k (f.header.toNat / 256 ^ k % 256) ∧
    byteAt f.bytes (4 + k) (f.operandA.toNat / 256 ^ k % 256) ∧
    byteAt f.bytes (8 + k) (f.operandB.toNat / 256 ^ k % 256)) ∧
  (∀ (r : Response) (rest : List Byte), takeResponse (r.bytes ++ rest) = some (r, rest)) ∧
  (∀ r : Response, r.bytes.length = 13 ∧ byteAt r.bytes 0 r.status.code.toNat ∧
    (∀ k < 8, byteAt r.bytes (1 + k) (r.val.toNat / 256 ^ k % 256)) ∧
    ∀ k < 4, byteAt r.bytes (9 + k) (r.nout.toNat / 256 ^ k % 256)) ∧
  (∀ (xs : List Sample) (rest : List Byte),
    takeSamples xs.length (samplesBytes xs ++ rest) = some (xs, rest)) ∧
  (∀ (xs : List Sample) (k : Nat) (x : Sample), xs[k]? = some x →
    byteAt (samplesBytes xs) (2 * k) (x.toNat % 256) ∧
    byteAt (samplesBytes xs) (2 * k + 1) (x.toNat / 256))

/-- R86: a frame is illegal exactly when one of its clauses (a) to (h) holds, and is then answered
ERR_ILLEGAL with no state change; every other frame is a command. -/
def Obligations.IllegalFramesAreAnswered : Prop :=
  (∀ (c : Config) (f : Frame),
    (∃ i, decodeFrame c f = .ok i) ↔ ¬ illegalHeader c f.header.toNat) ∧
  (∀ (s : State) (f : Frame) (rest : List Input), s.pending = .frame f :: rest →
    illegalHeader s.cfg f.header.toNat →
    step s = .next { s with pending := rest, response := some ⟨.errIllegal, 0, 0⟩ }) ∧
  (∀ c : Config, illegalHeader c 0)

/-- R87: at most one row of the opcode table matches a frame; if none does the frame is illegal; if one
does the frame is legal exactly when the range checks (e) to (h) of R86 pass; and the row that matches
is that of the decoded command. -/
def Obligations.TableRowsSelectCommands : Prop :=
  (tableRows.Pairwise fun p q => ∀ w0 : Word, w0 &&& p.2 = p.1 → w0 &&& q.2 ≠ q.1) ∧
  (∀ (c : Config) (f : Frame), (∀ p ∈ tableRows, f.header &&& p.2 ≠ p.1) →
    ∃ e, decodeFrame c f = .error e) ∧
  (∀ (c : Config) (f : Frame), ∀ p ∈ tableRows, f.header &&& p.2 = p.1 →
    ((∃ i, decodeFrame c f = .ok i) ↔ ¬ failsRangeCheck c f.header.toNat)) ∧
  (∀ (c : Config) (f : Frame) (i : Instr), decodeFrame c f = .ok i →
    (matchWordOf i, maskOf (formatOf i)) ∈ tableRows ∧
      f.header &&& maskOf (formatOf i) = matchWordOf i)

/-- Words written out from R80 and R81 decode to the commands they stand for (a check of the decoder on
fixed words; the words are those of R89, R162, R164, R165 and R171). -/
def Obligations.WrittenWordsDecode : Prop :=
  decodeFrame .default (Frame.ofWords 0x00000210 0x001B4F4D 0x0000AC44) =
    .ok (.setRates .center 1789773 44100) ∧
  decodeFrame .default (Frame.ofWords 0x00000015 0x00030000 0xFFFFFED4) =
    .ok (.deposit .left 0x00030000 (-300)) ∧
  decodeFrame .default (Frame.ofWords 0x00002020 0 0) = .ok (.synOutput 0 (some .center)) ∧
  decodeFrame .default (Frame.ofWords 0x00000121 0x00000200 0x00000003) =
    .ok (.synVolume 1 512 3) ∧
  decodeFrame .default (Frame.ofWords 0x00004024 0 0x00000064) =
    .ok (.synUpdate 0 .routed 0 100) ∧
  decodeFrame .default (Frame.ofWords 0x00000030 0x00000004 0) = .ok (.readPairs 4) ∧
  decodeFrame .default (Frame.ofWords 0x0000007E 0 0) = .ok .getStatus

/-! ### The step, reset, and what holds of every command -/

/-- A step with a legal frame at the head of the command port executes its command, and takes the frame
off the port (20_memory.md R64, R70; 30_encoding.md R88). -/
def Obligations.StepRunsDecodedCommand : Prop :=
  ∀ (s : State) (f : Frame) (rest : List Input) (i : Instr),
    s.pending = .frame f :: rest → decodeFrame s.cfg f = .ok i →
    step s = exec i { s with pending := rest }

/-- The reset event sets every register to its reset value and keeps the parameters (70_reset_and_hazards.md
R280, R281); that it keeps what the host has presented, and that a step with nothing presented changes
nothing, are the model's choices (assumption logs 12 and 2). -/
def Obligations.ResetEventAndIdleStep : Prop :=
  (∀ (s : State) (rest : List Input), s.pending = .reset :: rest →
    step s = .next { State.resetWith s.cfg with pending := rest }) ∧
  (∀ s : State, s.pending = [] → step s = .next s)

/-- 10_state.md R35: the reset value of every register, for every configuration. The delta slots and the
kernel taps, for which R35 says "unspecified", are left out. -/
def Obligations.ResetValues : Prop :=
  ∀ c : Config,
    (∀ b, (State.resetWith c).buf b =
      { clockRate := 0, sampleRate := 0, lengthMs := 0, lengthSet := false, bassFreq := 16,
        factor := 0, offset := 0, bufferSize := 0, readerAccum := 0, bassShift := 0,
        modified := false, lastNonSilence := 0, delta := ((State.resetWith c).buf b).delta }) ∧
    (State.resetWith c).synths.length = c.nsynth ∧
    (∀ r ∈ (State.resetWith c).synths,
      r.out = none ∧ r.deltaFactor = 0 ∧ r.lastAmp = 0 ∧ r.kernelUnit = 0) ∧
    (State.resetWith c).samplesRead = 0 ∧
    (State.resetWith c).channelCount = 0 ∧
    (State.resetWith c).channelTypes = List.replicate c.maxChannels 0 ∧
    (State.resetWith c).mbSampleRate = 0 ∧
    (State.resetWith c).mbLengthMs = 0 ∧
    (State.resetWith c).changedCount = 0 ∧
    (State.resetWith c).sysFault = 0 ∧
    (State.resetWith c).out = []

/-- The invariant holds after reset, for every valid configuration and for the host's reset state (that
the delta slots read 0 there is the model's choice, assumption log 5). -/
def Obligations.ResetSatisfiesInvariant : Prop :=
  (∀ c : Config, c.valid = true → (State.resetWith c).Inv) ∧ State.reset.Inv

/-- Every step keeps the invariant: the bounds of 10_state.md R26 on every unit, the canonical form of
the delta memories, the derived registers exactly those of the configuration registers (R104), the
shape and the unit sum of every kernel (R30, 43_synth.md R161, R163), the channel bounds (R32), a fault
code in 0 .. 6 (R254). -/
def Obligations.StepKeepsInvariant : Prop :=
  ∀ s t : State, s.Inv → step s = .next t → t.Inv

/-- 10_state.md R26 (a) to (e) hold of every unit in every state that reset, the host and steps can
reach. R26 (d) is claimed by the spec once a command has cleared the unit; here it holds from reset
because the model's slots read 0 there (assumption log 5). -/
def Obligations.ReachableStatesMeetR26 : Prop :=
  ∀ (c : Config) (s : State), c.valid = true → Reachable c s → ∀ b, (s.buf b).meetsR26 s.cfg

/-- 60_exceptions.md R250, R251, R253, R255: a frame presented in a state of the invariant is always
answered, in one of four ways, and unless it is OK nothing changes but the response and, for a fault,
SYS.fault. The model never stops. -/
def Obligations.CommandEndsInOneOfFourWays : Prop :=
  ∀ (s : State) (f : Frame) (rest : List Input), s.Inv → s.pending = .frame f :: rest →
    ∃ t, step s = .next t ∧
      (endsOk { s with pending := rest } t ∨ endsInError { s with pending := rest } t ∨
        endsInFault { s with pending := rest } t ∨ endsRefused { s with pending := rest } t)

/-- 60_exceptions.md R255, whole: while a fault is recorded every legal command but GET_STATUS is refused
and changes nothing, GET_STATUS works, an illegal frame still gets ERR_ILLEGAL, and only reset clears
the fault. -/
def Obligations.FaultIsSticky : Prop :=
  (∀ (i : Instr) (s : State), i ≠ .getStatus → s.sysFault ≠ 0 →
    exec i s = .next { s with response := some ⟨.errFaulted, s.sysFault.setWidth 64, 0⟩ }) ∧
  (∀ s : State, exec .getStatus s = .next { s with response := some ⟨.ok, s.statusWord, 0⟩ }) ∧
  (∀ (s : State) (f : Frame) (rest : List Input), s.pending = .frame f :: rest →
    illegalHeader s.cfg f.header.toNat →
    step s = .next { s with pending := rest, response := some ⟨.errIllegal, 0, 0⟩ }) ∧
  (∀ s t : State, s.sysFault ≠ 0 → step s = .next t →
    t.sysFault = s.sysFault ∨ t.sysFault = 0 ∧ ∃ rest, s.pending = .reset :: rest)

/-- Every command answers one response; writes no buffer unit but those it drives and no synthesizer
unit but the one it names; leaves the parameters alone; and appends to OUT exactly `nout` samples, none
unless it is a reading command (00_scope.md R6; 20_memory.md R61, R63; 30_encoding.md R82). -/
def Obligations.CommandTouchesOnlyItsUnits : Prop :=
  ∀ (i : Instr) (s t : State), exec i s = .next t →
    t.cfg = s.cfg ∧ t.pending = s.pending ∧
    (∀ b, b ∉ writtenUnits s i → t.buf b = s.buf b) ∧
    t.synths.length = s.synths.length ∧
    (∀ n, (∀ u, i.synthSel? = some u → u.toNat ≠ n) → t.synths[n]? = s.synths[n]?) ∧
    ∃ r xs, t.response = some r ∧ t.out = s.out ++ xs ∧
      r.nout = BitVec.ofNat 32 xs.length ∧ (i.emits = false → xs = [])

/-- The "written by" column of 10_state.md R25: a register of a buffer unit changes only under the
commands listed for it. -/
def Obligations.BufferRegistersWrittenBy : Prop :=
  ∀ (i : Instr) (s t : State) (b : BufUnit), exec i s = .next t →
    ((t.buf b).clockRate ≠ (s.buf b).clockRate →
      (∃ u k r, i = .setRates u k r) ∨ ∃ k, i = .mbClockRate k) ∧
    ((t.buf b).sampleRate ≠ (s.buf b).sampleRate →
      (∃ u k r, i = .setRates u k r) ∨ ∃ r m, i = .mbSetSampleRate r m) ∧
    ((t.buf b).lengthMs ≠ (s.buf b).lengthMs ∨ (t.buf b).lengthSet ≠ (s.buf b).lengthSet →
      ((∃ u m, i = .setLength u m) ∨ ∃ r m, i = .mbSetSampleRate r m) ∧
        (t.buf b).lengthSet = true) ∧
    ((t.buf b).bassFreq ≠ (s.buf b).bassFreq →
      (∃ u x, i = .bassFreq u x) ∨ ∃ x, i = .mbBassFreq x) ∧
    ((t.buf b).factor ≠ (s.buf b).factor ∨ (t.buf b).bufferSize ≠ (s.buf b).bufferSize →
      i.reconfigures = true) ∧
    ((t.buf b).bassShift ≠ (s.buf b).bassShift →
      i.reconfigures = true ∨ (∃ u x, i = .bassFreq u x) ∨ ∃ x, i = .mbBassFreq x) ∧
    ((t.buf b).offset ≠ (s.buf b).offset ∨
        (t.buf b).lastNonSilence ≠ (s.buf b).lastNonSilence →
      i.endsFrame = true ∨ i.consumesSlots = true ∨ i.clearsUnit = true) ∧
    ((t.buf b).readerAccum ≠ (s.buf b).readerAccum →
      i.consumesSlots = true ∨ i.clearsUnit = true) ∧
    ((t.buf b).modified ≠ (s.buf b).modified →
      i.deposits = true ∧ (t.buf b).modified = true ∨
        (i.endsFrame = true ∨ i.clearsUnit = true) ∧ (t.buf b).modified = false) ∧
    ((t.buf b).delta ≠ (s.buf b).delta →
      i.deposits = true ∨ i.consumesSlots = true ∨ i.clearsUnit = true)

/-- The "written by" columns of 10_state.md R29 to R33: the synthesizer, mixer, multi-buffer and system
registers change only under the commands listed for them; SYS.fault only by a fault. -/
def Obligations.OtherRegistersWrittenBy : Prop :=
  ∀ (i : Instr) (s t : State), exec i s = .next t →
    (∀ (n : Nat) (r r' : SynthUnit), s.synths[n]? = some r → t.synths[n]? = some r' →
      (r'.out ≠ r.out → ∃ u x, i = .synOutput u x) ∧
      (r'.deltaFactor ≠ r.deltaFactor → ∃ u f sh, i = .synVolume u f sh) ∧
      (r'.lastAmp ≠ r.lastAmp →
        (∃ u k x a, i = .synUpdate u k x a) ∨ ∃ u a, i = .synSetAmp u a) ∧
      (r'.kernelUnit ≠ r.kernelUnit ∨ r'.taps ≠ r.taps →
        (∃ u e, i = .synTrebleEq u e) ∨ ∃ u f sh, i = .synVolume u f sh ∧ sh ≠ 0)) ∧
    (t.samplesRead ≠ s.samplesRead →
      (∃ n, i = .readPairs n) ∨ (∃ n, i = .mbReadSamples n) ∨ i = .mbClear) ∧
    (t.channelCount ≠ s.channelCount → ∃ n, i = .mbSetChannelCount n) ∧
    (t.channelTypes ≠ s.channelTypes →
      (∃ n, i = .mbSetChannelCount n) ∨ ∃ x g, i = .mbSetChannelType x g) ∧
    (t.mbSampleRate ≠ s.mbSampleRate ∨ t.mbLengthMs ≠ s.mbLengthMs →
      ∃ r m, i = .mbSetSampleRate r m) ∧
    (t.changedCount ≠ s.changedCount → t.changedCount = s.changedCount + 1 ∧
      ((∃ n, i = .mbSetChannelCount n) ∨ ∃ x g, i = .mbSetChannelType x g)) ∧
    (t.sysFault ≠ s.sysFault → endsInFault s t)

/-- 20_memory.md R67: issuing an idempotent command a second time leaves the state the first left, but
for the response. -/
def Obligations.ListedCommandsAreIdempotent : Prop :=
  ∀ (i : Instr) (s t : State), i.idempotent = true → exec i s = .next t →
    ∃ u, exec i t = .next u ∧ { u with response := none } = { t with response := none }

/-! ### Buffer configuration (40_buffer_config.md) -/

/-- R101: F is `rate × 2^FIXED_BITS / clock` rounded to the nearest integer, halves upward, and is
representable when 1 ≤ F ≤ 2^32 − 1; with the rule's examples. -/
def Obligations.RatioRoundsToNearest : Prop :=
  (∀ (c : Config) (clock rate : Nat), 0 < clock → 0 < rate →
    ratio c clock rate = (rate * 2 ^ (c.fixedBits + 1) + clock) / (2 * clock) ∧
    2 * (ratio c clock rate * clock) ≤ 2 * (rate * 2 ^ c.fixedBits) + clock ∧
    2 * (rate * 2 ^ c.fixedBits) + clock < 2 * (ratio c clock rate * clock) + 2 * clock) ∧
  (∀ f : Nat, representable f = true ↔ 1 ≤ f ∧ f ≤ 2 ^ 32 - 1) ∧
  ratio .default 1789773 44100 = 1615 ∧ ratio .default 44100 44100 = 65536 ∧
  ratio .default 1 65535 = 4294901760 ∧ ratio .default 1 65536 = 2 ^ 32 ∧
  ratio .default 2147483647 16383 = 0 ∧ ratio .default 2147483647 16384 = 1

/-- R102: SZ is the samples of ms + 1 milliseconds, rounded up, plus EXTRA; with the rule's examples. -/
def Obligations.SizeRoundsUp : Prop :=
  (∀ (c : Config) (rate ms : Nat),
    sizeFor c rate ms = (rate * (ms + 1) + 999) / 1000 + c.extra ∧
    ∃ n, sizeFor c rate ms = n + c.extra ∧
      rate * (ms + 1) ≤ 1000 * n ∧ 1000 * n < rate * (ms + 1) + 1000) ∧
  sizeFor .default 44100 20 = 945 ∧ sizeFor .default 44100 0 = 63 ∧
  sizeFor .default 44100 250 = 11088 ∧ sizeFor .default 48000 1000 = 48066 ∧
  sizeFor .default 0 20 = 18 ∧ sizeFor .default 44100 1484 = 65507 ∧
  sizeFor .default 44100 1485 = 65551 ∧ Config.default.bufCapacity < 65551

/-- R103: BS is 31 for freq ≤ 0; else 13 less one for each halving of `floor(freq × 65536 / rate)` that
leaves it non-zero, stopping at 0; a shift of 31 makes the feedback 0 for a non-negative accumulator and
−1 for a negative one; with the rule's examples. -/
def Obligations.BassShiftCountsHalvings : Prop :=
  (∀ (freq : Int) (rate : Nat), 0 < rate →
    bassShiftFor freq rate ≤ 31 ∧
    (freq ≤ 0 → bassShiftFor freq rate = 31) ∧
    (0 < freq → freq.toNat * 65536 / rate = 0 → bassShiftFor freq rate = 13) ∧
    (0 < freq → ∀ k, 2 ^ k ≤ freq.toNat * 65536 / rate →
      freq.toNat * 65536 / rate < 2 ^ (k + 1) → bassShiftFor freq rate = 13 - k)) ∧
  (∀ a : Word, asr a.toInt 31 = if 0 ≤ a.toInt then 0 else -1) ∧
  bassShiftFor 16 44100 = 9 ∧ bassShiftFor 0 44100 = 31 ∧ bassShiftFor (-5) 44100 = 31 ∧
  bassShiftFor 1 44100 = 13 ∧ bassShiftFor 2 44100 = 12 ∧ bassShiftFor 180 44100 = 5 ∧
  bassShiftFor 5000 44100 = 1 ∧ bassShiftFor 22050 44100 = 0 ∧ bassShiftFor 16 48000 = 9 ∧
  bassShiftFor 16 96000 = 10 ∧ bassShiftFor 16 8000 = 6

/-- R105, R104, R109: SET_RATES with positive rates, a representable ratio and a size that fits stores the
rates and reconfigures the unit; nothing else changes. -/
def Obligations.SetRatesReconfigures : Prop :=
  ∀ (s : State) (b : BufUnit) (clockRate sampleRate : Word),
    s.sysFault = 0 → s.cfg.valid = true → 0 < clockRate.toInt → 0 < sampleRate.toInt →
    representable (ratio s.cfg clockRate.toNat sampleRate.toNat) = true →
    ((s.buf b).lengthSet = true →
      sizeFor s.cfg sampleRate.toNat (s.buf b).lengthMs.toNat ≤ s.cfg.bufCapacity) →
    ∃ v, BufferUnit.Reconfigured s.cfg
        { s.buf b with clockRate := clockRate, sampleRate := sampleRate } v ∧
      exec (.setRates b clockRate sampleRate) s =
        .next { s.setBuf b v with response := some ⟨.ok, 0, 0⟩ }

/-- R106, R104: SET_LENGTH with a size that fits stores the length and reconfigures the unit; nothing else
changes. -/
def Obligations.SetLengthReconfigures : Prop :=
  ∀ (s : State) (b : BufUnit) (msec : Word),
    s.sysFault = 0 → s.cfg.valid = true → (s.buf b).Inv s.cfg →
    sizeFor s.cfg (s.buf b).sampleRate.toNat msec.toNat ≤ s.cfg.bufCapacity →
    ∃ v, BufferUnit.Reconfigured s.cfg { s.buf b with lengthMs := msec, lengthSet := true } v ∧
      exec (.setLength b msec) s = .next { s.setBuf b v with response := some ⟨.ok, 0, 0⟩ }

/-- R107, R108, R109: BASS_FREQ stores the cutoff, and the new shift once a rate is set, and clears
nothing; CLEAR zeroes the slots, the accumulator, the cursor, `modified` and the counter (`delta := []`
lists no slot: every slot reads 0). Both always complete. -/
def Obligations.BassFreqAndClear : Prop :=
  ∀ (s : State) (b : BufUnit) (freq : Word), s.sysFault = 0 →
    (∃ v : BitVec 5, v.toNat = (if 0 < (s.buf b).sampleRate.toNat then
          bassShiftFor freq.toInt (s.buf b).sampleRate.toNat else (s.buf b).bassShift.toNat) ∧
      exec (.bassFreq b freq) s =
        .next { s.setBuf b { s.buf b with bassFreq := freq, bassShift := v } with
          response := some ⟨.ok, 0, 0⟩ }) ∧
    exec (.clear b) s =
      .next { s.setBuf b { s.buf b with
          offset := 0, readerAccum := 0, modified := false, lastNonSilence := 0, delta := [] } with
        response := some ⟨.ok, 0, 0⟩ }

/-- 60_exceptions.md R252: every reported error with its status, command and cause, in the order of R256;
the command changes only the response; no other command ends with one of these statuses; and any illegal
frame ends with ERR_ILLEGAL. -/
def Obligations.ReportedErrors : Prop :=
  (∀ s : State, s.sysFault = 0 →
    (∀ b (k r : Word), (k.toInt ≤ 0 ∨ r.toInt ≤ 0) ∨
        representable (ratio s.cfg k.toNat r.toNat) = false →
      exec (.setRates b k r) s = .next (s.errored .errInvalid)) ∧
    (∀ b (k r : Word), 0 < k.toInt → 0 < r.toInt →
      representable (ratio s.cfg k.toNat r.toNat) = true → (s.buf b).lengthSet = true →
      s.cfg.bufCapacity < sizeFor s.cfg r.toNat (s.buf b).lengthMs.toNat →
      exec (.setRates b k r) s = .next (s.errored .errNomem)) ∧
    (∀ b (m : Word), s.cfg.bufCapacity < sizeFor s.cfg (s.buf b).sampleRate.toNat m.toNat →
      exec (.setLength b m) s = .next (s.errored .errNomem)) ∧
    (∀ r m : Word, r.toInt ≤ 0 →
      exec (.mbSetSampleRate r m) s = .next (s.errored .errInvalid)) ∧
    (∀ r m : Word, 0 < r.toInt → activeSet s.cfg ≠ [] →
      s.cfg.bufCapacity < sizeFor s.cfg r.toNat m.toNat →
      exec (.mbSetSampleRate r m) s = .next (s.errored .errNomem)) ∧
    (∀ r m : Word, 0 < r.toInt → sizeFor s.cfg r.toNat m.toNat ≤ s.cfg.bufCapacity →
      (∃ b ∈ activeSet s.cfg, 0 < (s.buf b).clockRate.toNat ∧
        representable (ratio s.cfg (s.buf b).clockRate.toNat r.toNat) = false) →
      exec (.mbSetSampleRate r m) s = .next (s.errored .errInvalid)) ∧
    (∀ k : Word, k.toInt ≤ 0 ∨ (∃ b ∈ activeSet s.cfg, 0 < (s.buf b).sampleRate.toNat ∧
        representable (ratio s.cfg k.toNat (s.buf b).sampleRate.toNat) = false) →
      exec (.mbClockRate k) s = .next (s.errored .errInvalid)) ∧
    (∀ u kind r (f sh : Word), hasSynth s u kind r →
      31 < sh.toNat ∨ (∃ w, kind = .full w) ∧ 0 < sh.toNat ∧
        r.kernelUnit.toNat / 2 ^ sh.toNat = 0 →
      exec (.synVolume u f sh) s = .next (s.errored .errInvalid)) ∧
    (∀ x g : Word, s.channelCount.toNat ≤ x.toNat →
      exec (.mbSetChannelType x g) s = .next (s.errored .errInvalid) ∧
      exec (.mbChannel x) s = .next (s.errored .errInvalid)) ∧
    (∀ n : Word, s.cfg.maxChannels < n.toNat →
      exec (.mbSetChannelCount n) s = .next (s.errored .errNomem))) ∧
  (∀ (i : Instr) (s t : State) (r : Response), exec i s = .next t → t.response = some r →
    (r.status = .errInvalid →
      (∃ b k x, i = .setRates b k x) ∨ (∃ x m, i = .mbSetSampleRate x m) ∨
      (∃ k, i = .mbClockRate k) ∨ (∃ u f sh, i = .synVolume u f sh) ∨
      (∃ x g, i = .mbSetChannelType x g) ∨ ∃ x, i = .mbChannel x) ∧
    (r.status = .errNomem →
      (∃ b k x, i = .setRates b k x) ∨ (∃ b m, i = .setLength b m) ∨
      (∃ x m, i = .mbSetSampleRate x m) ∨ ∃ n, i = .mbSetChannelCount n) ∧
    r.status ≠ .errIllegal) ∧
  (∀ (s : State) (f : Frame) (rest : List Input), s.pending = .frame f :: rest →
    illegalHeader s.cfg f.header.toNat →
    step s = .next (State.errored { s with pending := rest } .errIllegal))

/-! ### Queries of a unit, time mapping, deposit, end of frame (40, 41) -/

/-- 40_buffer_config.md R110, 41_buffer_time_deposit.md R125: GET_FLAGS returns `modified` in bit 0 and
whether the unit is configured (R27) in bit 1; SAMPLES_AVAIL returns the integer part of `offset`;
neither changes anything. -/
def Obligations.FlagsAndAvailability : Prop :=
  ∀ (s : State) (b : BufUnit), s.sysFault = 0 →
    (∃ v, exec (.getFlags b) s = .next { s with response := some ⟨.ok, v, 0⟩ } ∧
      v.getLsbD 0 = (s.buf b).modified ∧
      (v.getLsbD 1 = true ↔ (s.buf b).factor ≠ 0 ∧ (s.buf b).bufferSize ≠ 0) ∧
      v.toNat < 4) ∧
    ∃ v, exec (.samplesAvail b) s = .next { s with response := some ⟨.ok, v, 0⟩ } ∧
      v.toNat = (s.buf b).offset.toNat / 2 ^ s.cfg.fixedBits

/-- R120, R121: TO_FIXED returns `tick × factor + offset` exactly, in 64 bits, and changes nothing. -/
def Obligations.ToFixedIsExact : Prop :=
  ∀ (s : State) (b : BufUnit) (tick : Word), s.sysFault = 0 →
    ∃ v, exec (.toFixed b tick) s = .next { s with response := some ⟨.ok, v, 0⟩ } ∧
      v.toNat = tick.toNat * (s.buf b).factor.toNat + (s.buf b).offset.toNat

/-- R126: the position of a tick never falls as the tick grows, and is never below `offset`. -/
def Obligations.ToFixedIsMonotone : Prop :=
  ∀ (s : State) (b : BufUnit) (x y : Word), s.sysFault = 0 → x.toNat ≤ y.toNat →
    ∃ v w, exec (.toFixed b x) s = .next { s with response := some ⟨.ok, v, 0⟩ } ∧
      exec (.toFixed b y) s = .next { s with response := some ⟨.ok, w, 0⟩ } ∧
      v.toNat ≤ w.toNat ∧ (s.buf b).offset.toNat ≤ v.toNat

/-- R122, R123: DEPOSIT in range adds the delta, wrapped, into the slot of the position and sets
`modified`; every other slot, register and unit is unchanged. -/
def Obligations.DepositAddsIntoOneSlot : Prop :=
  ∀ (s : State) (b : BufUnit) (position delta : Word),
    s.sysFault = 0 → s.cfg.valid = true → (s.buf b).Inv s.cfg → (s.buf b).configured = true →
    slotOf s.cfg position.toNat < (s.buf b).bufferSize.toNat →
    ∃ v, (s.buf b).Deposited v
        (fun j => if j = position.toNat / 2 ^ s.cfg.fixedBits then some delta else none) ∧
      exec (.deposit b position delta) s =
        .next { s.setBuf b v with response := some ⟨.ok, 0, 0⟩ }

/-- R124: END_FRAME within NOMINAL moves `offset` forward by duration × factor, exactly, so that tick t
afterwards is tick t + duration before; it reads and clears `modified`, and sets the counter if it was
set; nothing else changes. -/
def Obligations.EndFrameAdvances : Prop :=
  ∀ (s : State) (b : BufUnit) (duration : Word),
    s.sysFault = 0 → s.cfg.valid = true → (s.buf b).Inv s.cfg → (s.buf b).configured = true →
    slotOf s.cfg ((s.buf b).toFixed duration.toNat) ≤ (s.buf b).nominal s.cfg →
    ∃ v : BufferUnit, v = { s.buf b with
          offset := v.offset, modified := false, lastNonSilence := v.lastNonSilence } ∧
      v.offset.toNat =
        (s.buf b).offset.toNat + duration.toNat * (s.buf b).factor.toNat ∧
      ((s.buf b).modified = true → v.lastNonSilence.toNat =
        v.offset.toNat / 2 ^ s.cfg.fixedBits + s.cfg.extra) ∧
      ((s.buf b).modified = false → v.lastNonSilence = (s.buf b).lastNonSilence) ∧
      (∀ tick, v.toFixed tick = (s.buf b).toFixed (tick + duration.toNat)) ∧
      exec (.endFrame b duration) s = .next { s.setBuf b v with response := some ⟨.ok, 0, 0⟩ }

/-- 60_exceptions.md R253, R254, R256: when each command on one buffer unit, and READ_PAIRS, faults, and
with which code, in the order of its tests; nothing changes but SYS.fault and the response. -/
def Obligations.BufferCommandFaults : Prop :=
  ∀ s : State, s.sysFault = 0 →
    (∀ (b : BufUnit) (p d : Word), ¬ (s.buf b).configured = true →
      exec (.deposit b p d) s = .next (s.faulted .notConfigured) ∧
      exec (.endFrame b p) s = .next (s.faulted .notConfigured) ∧
      exec (.readSamples b p) s = .next (s.faulted .notConfigured) ∧
      exec (.removeSamples b p) s = .next (s.faulted .notConfigured) ∧
      exec (.removeSilence b p) s = .next (s.faulted .notConfigured) ∧
      exec (.removeAllSamples b) s = .next (s.faulted .notConfigured) ∧
      exec (.readPairs p) s = .next (s.faulted .notConfigured)) ∧
    (∀ (b : BufUnit) (p d : Word), (s.buf b).configured = true →
      (s.buf b).bufferSize.toNat ≤ slotOf s.cfg p.toNat →
      exec (.deposit b p d) s = .next (s.faulted .depositRange)) ∧
    (∀ (b : BufUnit) (x : Word), (s.buf b).configured = true →
      (s.buf b).nominal s.cfg < slotOf s.cfg ((s.buf b).toFixed x.toNat) →
      exec (.endFrame b x) s = .next (s.faulted .frameOverflow)) ∧
    (∀ (b : BufUnit) (n : Word), (s.buf b).configured = true →
      (s.buf b).samplesAvail s.cfg < n.toNat →
      exec (.removeSamples b n) s = .next (s.faulted .removeRange) ∧
      exec (.removeSilence b n) s = .next (s.faulted .removeRange)) ∧
    (∀ (b : BufUnit) (n : Word), (s.buf b).configured = true →
      n.toNat ≤ (s.buf b).samplesAvail s.cfg →
      (∃ j < n.toNat, Memory.read (s.buf b).delta j ≠ 0) →
      exec (.removeSilence b n) s = .next (s.faulted .notSilent))

/-! ### Read and removal (42_buffer_read.md) -/

/-- R140 to R142: READ_SAMPLES on a configured unit takes n = min(max_count, available) slots through the
integrator, emits after each the accumulator shifted and saturated, consumes them and returns n. -/
def Obligations.ReadSamplesIntegrates : Prop :=
  ∀ (s : State) (b : BufUnit) (maxCount : Word),
    s.sysFault = 0 → s.cfg.valid = true → (s.buf b).Inv s.cfg → (s.buf b).configured = true →
    ∀ n, n = min maxCount.toNat ((s.buf b).samplesAvail s.cfg) →
    ∃ v, (s.buf b).Drained s.cfg n v ∧
      exec (.readSamples b maxCount) s =
        .next { s.setBuf b v with
          out := s.out ++ (List.range n).map fun k =>
            sat16 (asr ((s.buf b).accumAt (k + 1)).toInt 14)
          response := some ⟨.ok, BitVec.ofNat 64 n, BitVec.ofNat 32 n⟩ }

/-- R143, R144, 44_tracked_mixer.md R192: REMOVE_SAMPLES, REMOVE_SILENCE (on zero slots) and
REMOVE_ALL_SAMPLES integrate and consume slots without emitting; only REMOVE_ALL_SAMPLES returns the
count. -/
def Obligations.RemovalsDrain : Prop :=
  ∀ (s : State) (b : BufUnit),
    s.sysFault = 0 → s.cfg.valid = true → (s.buf b).Inv s.cfg → (s.buf b).configured = true →
    (∀ count : Word, count.toNat ≤ (s.buf b).samplesAvail s.cfg →
      ∃ v, (s.buf b).Drained s.cfg count.toNat v ∧
        exec (.removeSamples b count) s =
          .next { s.setBuf b v with response := some ⟨.ok, 0, 0⟩ } ∧
        ((∀ j < count.toNat, Memory.read (s.buf b).delta j = 0) →
          exec (.removeSilence b count) s =
            .next { s.setBuf b v with response := some ⟨.ok, 0, 0⟩ })) ∧
    ∃ v, (s.buf b).Drained s.cfg ((s.buf b).samplesAvail s.cfg) v ∧
      exec (.removeAllSamples b) s =
        .next { s.setBuf b v with
          response := some ⟨.ok, BitVec.ofNat 64 ((s.buf b).samplesAvail s.cfg), 0⟩ }

/-- R145 (a), (b): an empty read changes nothing; removing n available samples leaves the state reading
them leaves, but for OUT and the response, and so does REMOVE_SILENCE where it does not fault. -/
def Obligations.ReadAndRemoveAgree : Prop :=
  ∀ (s : State) (b : BufUnit), s.sysFault = 0 → s.cfg.valid = true → (s.buf b).Inv s.cfg →
    (s.buf b).configured = true →
    exec (.readSamples b 0) s = .next { s with response := some ⟨.ok, 0, 0⟩ } ∧
    ∀ n : Word, n.toNat ≤ (s.buf b).samplesAvail s.cfg →
      ∃ t u, exec (.readSamples b n) s = .next t ∧ exec (.removeSamples b n) s = .next u ∧
        { t with out := s.out, response := none } = { u with response := none } ∧
        ((∀ j < n.toNat, Memory.read (s.buf b).delta j = 0) →
          exec (.removeSilence b n) s = .next u)

/-- R145 (c): with shift 31 and accumulators that are never negative, counted from a clear, sample i of a
read is the sum of the deltas of slots 0 to i, shifted (and saturated, R142). -/
def Obligations.SamplesAreRunningSums : Prop :=
  ∀ (s t : State) (b : BufUnit) (maxCount : Word),
    s.sysFault = 0 → s.cfg.valid = true → (s.buf b).Inv s.cfg → (s.buf b).configured = true →
    (s.buf b).bassShift = 31 → (s.buf b).readerAccum = 0 →
    exec (.readSamples b maxCount) s = .next t →
    ∀ n, n = min maxCount.toNat ((s.buf b).samplesAvail s.cfg) →
    (∀ k ≤ n, 0 ≤ ((s.buf b).accumAt k).toInt) →
    ∀ i < n, t.out[s.out.length + i]? = some (sat16 (asr
      (((List.range (i + 1)).map fun j => (Memory.read (s.buf b).delta j).toInt).sum) 14))

/-- R145 (d): over zero slots a non-negative accumulator never rises and never becomes negative, a
negative one never falls and never becomes positive, for every shift; the samples emitted keep its
sign. -/
def Obligations.DecayWithoutOvershoot : Prop :=
  ∀ (s t : State) (b : BufUnit) (maxCount : Word),
    s.sysFault = 0 → s.cfg.valid = true → (s.buf b).Inv s.cfg → (s.buf b).configured = true →
    (∀ j < (s.buf b).samplesAvail s.cfg, Memory.read (s.buf b).delta j = 0) →
    exec (.readSamples b maxCount) s = .next t →
    (0 ≤ (s.buf b).readerAccum.toInt →
      0 ≤ (t.buf b).readerAccum.toInt ∧
      (t.buf b).readerAccum.toInt ≤ (s.buf b).readerAccum.toInt ∧
      ∀ x ∈ t.out.drop s.out.length, 0 ≤ x.toInt) ∧
    ((s.buf b).readerAccum.toInt < 0 →
      (s.buf b).readerAccum.toInt ≤ (t.buf b).readerAccum.toInt ∧
      (t.buf b).readerAccum.toInt ≤ 0 ∧
      ∀ x ∈ t.out.drop s.out.length, x.toInt ≤ 0)

/-! ### Synthesizers (43_synth.md) -/

/-- R162, R172: SYN_OUTPUT writes the route and SYN_SET_AMP the amplitude of the named unit, and nothing
else. -/
def Obligations.SynOutputAndSetAmp : Prop :=
  ∀ (s : State) (u : SynthSel) (kind : SynthKind) (r : SynthUnit) (route : Route)
    (amplitude : Word), s.sysFault = 0 → hasSynth s u kind r →
    exec (.synOutput u route) s =
      .next { s with
        synths := s.synths.set u.toNat { r with out := route }, response := some ⟨.ok, 0, 0⟩ } ∧
    exec (.synSetAmp u amplitude) s =
      .next { s with
        synths := s.synths.set u.toNat { r with lastAmp := amplitude }
        response := some ⟨.ok, 0, 0⟩ }

/-- R165, R166: SYN_TREBLE_EQ is a no-op on a FAST unit; on a FULL unit of width W it writes a table that
depends on the code and W alone, with RES phases of W taps, each phase summing to KERNEL_UNIT_BASE and
each tap within ±2^30, and sets `kernel_unit` to KERNEL_UNIT_BASE. It holds for every value of the open
generator; holding the generator to R166 is assumption log 7. -/
def Obligations.SynTrebleEqRebuilds : Prop :=
  ∀ c : Config, c.valid = true → ∃ generator : Word → Nat → List (List Word),
    ∀ (s : State) (u : SynthSel) (kind : SynthKind) (r : SynthUnit) (eq : Word),
      s.cfg = c → s.sysFault = 0 → hasSynth s u kind r →
      (kind = .fast → exec (.synTrebleEq u eq) s =
        .next { s with response := some ⟨.ok, 0, 0⟩ }) ∧
      (∀ w, kind = .full w →
        (∃ ku : Word, ku.toNat = c.kernelUnitBase ∧
          exec (.synTrebleEq u eq) s =
            .next { s with
              synths := s.synths.set u.toNat { r with taps := generator eq w, kernelUnit := ku }
              response := some ⟨.ok, 0, 0⟩ }) ∧
        (generator eq w).length = c.res ∧
        ∀ row ∈ generator eq w, row.length = w ∧ tapSum row = c.kernelUnitBase ∧
          ∀ k ∈ row, -(2 ^ 30) ≤ k.toInt ∧ k.toInt ≤ 2 ^ 30)

/-- R164: on a FAST unit with any shift up to 31, and on a FULL unit with shift 0, SYN_VOLUME writes
`delta_factor` and nothing else. -/
def Obligations.SynVolumeSetsFactor : Prop :=
  ∀ (s : State) (u : SynthSel) (kind : SynthKind) (r : SynthUnit) (deltaFactor shift : Word),
    s.sysFault = 0 → hasSynth s u kind r → shift.toNat ≤ 31 →
    kind = .fast ∨ shift = 0 →
    exec (.synVolume u deltaFactor shift) s =
      .next { s with
        synths := s.synths.set u.toNat { r with deltaFactor := deltaFactor }
        response := some ⟨.ok, 0, 0⟩ }

/-- R163, R164: on a FULL unit with a kernel that the shift does not make vanish, SYN_VOLUME divides
`kernel_unit` by 2^shift and every tap by 2^shift, rounded to nearest, and puts the rounding error on
tap W/2 − 1, so that every phase sums to the new `kernel_unit` exactly. -/
def Obligations.SynVolumeRescales : Prop :=
  ∀ (s : State) (u : SynthSel) (w : Nat) (r : SynthUnit) (deltaFactor shift : Word),
    s.sysFault = 0 → s.Inv → hasSynth s u (.full w) r →
    1 ≤ shift.toNat → shift.toNat ≤ 31 → r.kernelUnit.toNat / 2 ^ shift.toNat ≠ 0 →
    ∃ r' : SynthUnit, r' = { r with
          deltaFactor := deltaFactor, kernelUnit := r'.kernelUnit, taps := r'.taps } ∧
      r'.kernelUnit.toNat = r.kernelUnit.toNat / 2 ^ shift.toNat ∧
      r'.taps.length = s.cfg.res ∧
      (∀ row ∈ r'.taps, row.length = w ∧ tapSum row = (r'.kernelUnit.toNat : Int)) ∧
      (∀ p k, p < s.cfg.res → k < w → k ≠ w / 2 - 1 →
        (r'.tap p k).toInt = asr ((r.tap p k).toInt + 2 ^ (shift.toNat - 1)) shift.toNat) ∧
      exec (.synVolume u deltaFactor shift) s =
        .next { s with
          synths := s.synths.set u.toNat r', response := some ⟨.ok, 0, 0⟩ }

/-- R167, R170, R171: with target NONE, named explicitly or held by the unit, SYN_OFFSET does nothing and
SYN_UPDATE records the amplitude; both answer OK. -/
def Obligations.SynTargetNone : Prop :=
  ∀ (s : State) (u : SynthSel) (kind : SynthKind) (r : SynthUnit) (sel : BufSel)
    (ticks x : Word), s.sysFault = 0 → hasSynth s u kind r →
    sel = .explicit none ∨ sel = .routed ∧ r.out = none →
    exec (.synOffset u sel ticks x) s = .next { s with response := some ⟨.ok, 0, 0⟩ } ∧
    exec (.synUpdate u sel ticks x) s =
      .next { s with
        synths := s.synths.set u.toNat { r with lastAmp := x }, response := some ⟨.ok, 0, 0⟩ }

/-- R167 to R170: SYN_OFFSET that passes its tests adds `wrap32(delta × delta_factor)` into the target:
whole into the base slot from a FAST unit, spread by the taps of the position's phase from a FULL unit
(`synthShare`); `modified` is set; every other slot, register and unit is unchanged. -/
def Obligations.SynOffsetDeposits : Prop :=
  ∀ (s : State) (u : SynthSel) (kind : SynthKind) (r : SynthUnit) (sel : BufSel) (b : BufUnit)
    (ticks delta : Word), s.sysFault = 0 → s.Inv → hasSynth s u kind r →
    sel = .explicit (some b) ∨ sel = .routed ∧ r.out = some b →
    (s.buf b).configured = true → kind = .fast ∨ r.kernelUnit ≠ 0 →
    slotOf s.cfg ((s.buf b).toFixed ticks.toNat) < (s.buf b).nominal s.cfg →
    ∃ v, (s.buf b).Deposited v
        (synthShare s.cfg kind r ((s.buf b).toFixed ticks.toNat)
          (wrap32 (delta.toInt * r.deltaFactor.toInt))) ∧
      exec (.synOffset u sel ticks delta) s =
        .next { s.setBuf b v with response := some ⟨.ok, 0, 0⟩ }

/-- R171: SYN_UPDATE that passes the tests of SYN_OFFSET makes its deposit with
`wrap32(amplitude − last_amp)` and records the amplitude in `last_amp`; nothing else changes. -/
def Obligations.SynUpdateDeposits : Prop :=
  ∀ (s : State) (u : SynthSel) (kind : SynthKind) (r : SynthUnit) (sel : BufSel) (b : BufUnit)
    (ticks amplitude : Word), s.sysFault = 0 → s.Inv → hasSynth s u kind r →
    sel = .explicit (some b) ∨ sel = .routed ∧ r.out = some b →
    (s.buf b).configured = true → kind = .fast ∨ r.kernelUnit ≠ 0 →
    slotOf s.cfg ((s.buf b).toFixed ticks.toNat) < (s.buf b).nominal s.cfg →
    ∃ v, (s.buf b).Deposited v
        (synthShare s.cfg kind r ((s.buf b).toFixed ticks.toNat)
          (wrap32 ((wrap32 (amplitude.toInt - r.lastAmp.toInt)).toInt * r.deltaFactor.toInt))) ∧
      exec (.synUpdate u sel ticks amplitude) s =
        .next { s.setBuf b v with
          synths := s.synths.set u.toNat { r with lastAmp := amplitude }
          response := some ⟨.ok, 0, 0⟩ }

/-- R170, R171, 60_exceptions.md R256: the faults of SYN_OFFSET and SYN_UPDATE on a target, in the order
of their tests; nothing changes but SYS.fault and the response, so `last_amp` keeps its value. -/
def Obligations.SynFaults : Prop :=
  ∀ (s : State) (u : SynthSel) (kind : SynthKind) (r : SynthUnit) (sel : BufSel) (b : BufUnit)
    (ticks x : Word) (code : FaultCode), s.sysFault = 0 → hasSynth s u kind r →
    sel = .explicit (some b) ∨ sel = .routed ∧ r.out = some b →
    (¬ (s.buf b).configured = true ∧ code = .notConfigured ∨
      (s.buf b).configured = true ∧ (∃ w, kind = .full w) ∧ r.kernelUnit = 0 ∧
        code = .noKernel ∨
      (s.buf b).configured = true ∧ (kind = .fast ∨ r.kernelUnit ≠ 0) ∧
        (s.buf b).nominal s.cfg ≤ slotOf s.cfg ((s.buf b).toFixed ticks.toNat) ∧
        code = .depositRange) →
    exec (.synOffset u sel ticks x) s = .next (s.faulted code) ∧
    exec (.synUpdate u sel ticks x) s = .next (s.faulted code)

/-- R163: "the sum of what one `SYN_OFFSET` deposits is exactly `delta × delta_factor × kernel_unit`, in
every phase", modulo the 2^32 of the wraps of R169; for a FAST unit the factor is 1. -/
def Obligations.DepositedSumIsGain : Prop :=
  ∀ (s t : State) (u : SynthSel) (kind : SynthKind) (r : SynthUnit) (sel : BufSel) (b : BufUnit)
    (ticks delta : Word), s.Inv → hasSynth s u kind r → targetOf r sel = some b →
    exec (.synOffset u sel ticks delta) s = .next t → endsOk s t →
    (2 ^ 32 : Int) ∣
      ((List.range (s.buf b).bufferSize.toNat).map fun j =>
        (Memory.read (t.buf b).delta j).toInt - (Memory.read (s.buf b).delta j).toInt).sum -
      delta.toInt * r.deltaFactor.toInt *
        (match kind with
          | .fast => 1
          | .full _ => (r.kernelUnit.toNat : Int))

/-- R173: a deposit whose base slot passes the range test writes only slots below `buffer_size`, the
highest at most NOMINAL + MAXQ − 2, with two slots to spare for the widest kernel. -/
def Obligations.DepositsStayInsideBuffer : Prop :=
  (∀ (c : Config) (u : BufferUnit) (slot w : Nat), c.valid = true → u.Inv c →
    SynthKind.full w ∈ c.synths → slot < u.nominal c →
    slot + fwd c w + w - 1 ≤ u.nominal c - 1 + (c.maxq - w) / 2 + w - 1 ∧
    u.nominal c - 1 + (c.maxq - w) / 2 + w - 1 = u.nominal c + (c.maxq + w) / 2 - 2 ∧
    u.nominal c + (c.maxq + w) / 2 - 2 ≤ u.nominal c + c.maxq - 2 ∧
    u.nominal c + c.maxq - 2 < u.nominal c + c.extra ∧
    u.nominal c + c.extra = u.bufferSize.toNat) ∧
  (∀ (s t : State) (u : SynthSel) (sel : BufSel) (ticks x : Word) (i : Instr), s.Inv →
    i = .synOffset u sel ticks x ∨ i = .synUpdate u sel ticks x →
    exec i s = .next t →
    ∀ (b : BufUnit) (j : Nat),
      Memory.read (t.buf b).delta j ≠ Memory.read (s.buf b).delta j →
      j + 2 < (s.buf b).bufferSize.toNat)

/-- R174: SYN_VOLUME and SYN_TREBLE_EQ write no slot of any delta memory and no register of any buffer
unit. -/
def Obligations.VolumeIsNotRetroactive : Prop :=
  ∀ (s t : State) (u : SynthSel) (f shift eq : Word) (i : Instr),
    i = .synVolume u f shift ∨ i = .synTrebleEq u eq → exec i s = .next t →
    ∀ b, t.buf b = s.buf b

/-- 70_reset_and_hazards.md R284: additions commute, so two deposits that both succeed from a state leave
the same state in either order. -/
def Obligations.DepositsCommute : Prop :=
  ∀ (s t1 t2 : State) (i j : Instr), s.Inv →
    (∃ b p d, i = .deposit b p d) ∨ (∃ u k x d, i = .synOffset u k x d) →
    (∃ b p d, j = .deposit b p d) ∨ (∃ u k x d, j = .synOffset u k x d) →
    exec i s = .next t1 → endsOk s t1 → exec j s = .next t2 → endsOk s t2 →
    ∃ v, exec j t1 = .next v ∧ exec i t2 = .next v

/-! ### Tracking and mixer (44_tracked_mixer.md) -/

/-- R190, R191: NON_SILENT returns 1 exactly when the counter is not 0 or the accumulator is outside
0 .. 16383, else 0, and changes nothing. -/
def Obligations.NonSilentAnswer : Prop :=
  ∀ (s : State) (b : BufUnit), s.sysFault = 0 →
    ∃ v, exec (.nonSilent b) s = .next { s with response := some ⟨.ok, v, 0⟩ } ∧
      v = if (s.buf b).lastNonSilence ≠ 0 ∨ (s.buf b).readerAccum.toInt < 0 ∨
          16383 < (s.buf b).readerAccum.toInt then 1 else 0

/-- R193: for a host that keeps the per-frame discipline, a deposit of SYN_OFFSET or SYN_UPDATE at a tick
not above the coming duration d keeps the cover; the END_FRAME of duration d turns it into the
guarantee that every slot at or above the counter is 0, and, like a consume, into the cover of the next
frame whatever its duration. -/
def Obligations.TrackingGuarantee : Prop :=
  (∀ (s t : State) (u : SynthSel) (sel : BufSel) (ticks x : Word) (i : Instr) (d : Nat)
      (b : BufUnit), s.Inv → (s.buf b).TrackedUpTo s.cfg d → ticks.toNat ≤ d →
    i = .synOffset u sel ticks x ∨ i = .synUpdate u sel ticks x →
    exec i s = .next t → (t.buf b).TrackedUpTo s.cfg d) ∧
  (∀ (s t : State) (b : BufUnit) (duration : Word), s.Inv →
    (s.buf b).TrackedUpTo s.cfg duration.toNat →
    exec (.endFrame b duration) s = .next t → endsOk s t →
    (∀ j, (t.buf b).lastNonSilence.toNat ≤ j → Memory.read (t.buf b).delta j = 0) ∧
    ∀ d, (t.buf b).TrackedUpTo s.cfg d) ∧
  (∀ (s t : State) (b : BufUnit) (n : Word) (d : Nat), s.Inv →
    (s.buf b).TrackedUpTo s.cfg d →
    exec (.readSamples b n) s = .next t → (t.buf b).TrackedUpTo s.cfg d)

/-- R194, R196 (a): READ_PAIRS on three configured units takes n = min(pair_count, the three
availabilities) slots of each; if L or R is non-silent it emits, per step, center + left and
center + right, added exactly, shifted and saturated, else the center sample twice; it consumes n from
each, records n and returns n. -/
def Obligations.ReadPairsMixes : Prop :=
  ∀ (s : State) (pairCount : Word), s.sysFault = 0 → s.Inv →
    (∀ b, (s.buf b).configured = true) →
    ∀ n, n = min pairCount.toNat (min (s.left.samplesAvail s.cfg)
      (min (s.right.samplesAvail s.cfg) (s.center.samplesAvail s.cfg))) →
    ∃ l r m, s.left.Drained s.cfg n l ∧ s.right.Drained s.cfg n r ∧
      s.center.Drained s.cfg n m ∧
      exec (.readPairs pairCount) s =
        .next { s with
          left := l
          right := r
          center := m
          samplesRead := BitVec.ofNat 32 n
          out := s.out ++ (List.range n).flatMap fun k =>
            if s.left.nonSilent = true ∨ s.right.nonSilent = true then
              [sat16 (asr ((s.center.accumAt (k + 1)).toInt + (s.left.accumAt (k + 1)).toInt) 14),
                sat16 (asr ((s.center.accumAt (k + 1)).toInt +
                  (s.right.accumAt (k + 1)).toInt) 14)]
            else
              [sat16 (asr (s.center.accumAt (k + 1)).toInt 14),
                sat16 (asr (s.center.accumAt (k + 1)).toInt 14)]
          response := some ⟨.ok, BitVec.ofNat 64 n, BitVec.ofNat 32 (2 * n)⟩ }

/-- R196 (c): on either path the units end as REMOVE_SAMPLES of the same count on L, R and C leaves
them. -/
def Obligations.MixerEndStateIsRemoval : Prop :=
  ∀ (s t : State) (pairCount count : Word), s.sysFault = 0 → s.Inv →
    (∀ b, (s.buf b).configured = true) →
    count.toNat = min pairCount.toNat (min (s.left.samplesAvail s.cfg)
      (min (s.right.samplesAvail s.cfg) (s.center.samplesAvail s.cfg))) →
    exec (.readPairs pairCount) s = .next t →
    ∃ t', execAll [.removeSamples .left count, .removeSamples .right count,
        .removeSamples .center count] s = .next t' ∧
      ∀ b, t.buf b = t'.buf b

/-! ### Multi-buffer (45_multi_buffer.md) -/

/-- R211, R212, R213, R221: the channel slots: MB_SET_CHANNEL_COUNT clears every tag, MB_SET_CHANNEL_TYPE
writes B[15:0] into one, both count a structural change; MB_CHANNEL returns the routes of the
composition and the tag, and MB_CHANGED the counter, and neither changes anything. -/
def Obligations.ChannelSlots : Prop :=
  ∀ s : State, s.sysFault = 0 → s.Inv →
    (∀ n : Word, n.toNat ≤ s.cfg.maxChannels →
      ∃ count : BitVec 16, count.toNat = n.toNat ∧
        exec (.mbSetChannelCount n) s =
          .next { s with
            channelCount := count
            channelTypes := List.replicate s.cfg.maxChannels 0
            changedCount := s.changedCount + 1
            response := some ⟨.ok, 0, 0⟩ }) ∧
    (∀ index tag : Word, index.toNat < s.channelCount.toNat →
      exec (.mbSetChannelType index tag) s =
        .next { s with
          channelTypes := s.channelTypes.set index.toNat (tag.extractLsb' 0 16)
          changedCount := s.changedCount + 1
          response := some ⟨.ok, 0, 0⟩ }) ∧
    (∀ index : Word, index.toNat < s.channelCount.toNat →
      ∃ tag v, s.channelTypes[index.toNat]? = some tag ∧
        exec (.mbChannel index) s = .next { s with response := some ⟨.ok, v, 0⟩ } ∧
        v.toNat = tag.toNat * 65536 +
          (match s.cfg.composition with
            | .mono => 2 + 4 * 2 + 16 * 2
            | .stereo => 2 + 4 * 0 + 16 * 1
            | .silent => 3 + 4 * 3 + 16 * 3)) ∧
    ∃ v, exec .mbChanged s = .next { s with response := some ⟨.ok, v, 0⟩ } ∧
      v.toNat = s.changedCount.toNat

/-- R214, R215: MB_SET_SAMPLE_RATE and MB_CLOCK_RATE, where no test fails, reconfigure every unit of the
active set with the new rate (and length) and no other unit; MB_SET_SAMPLE_RATE records rate and
length. -/
def Obligations.MultiBufferRates : Prop :=
  ∀ s : State, s.sysFault = 0 → s.Inv →
    (∀ rate msec : Word, 0 < rate.toInt →
      (∀ b ∈ activeSet s.cfg, sizeFor s.cfg rate.toNat msec.toNat ≤ s.cfg.bufCapacity ∧
        (0 < (s.buf b).clockRate.toNat →
          representable (ratio s.cfg (s.buf b).clockRate.toNat rate.toNat) = true)) →
      ∃ t, exec (.mbSetSampleRate rate msec) s = .next t ∧
        t = { s with
          left := t.left, right := t.right, center := t.center
          mbSampleRate := rate, mbLengthMs := msec, response := some ⟨.ok, 0, 0⟩ } ∧
        ∀ b, if b ∈ activeSet s.cfg then
            BufferUnit.Reconfigured s.cfg
              { s.buf b with sampleRate := rate, lengthMs := msec, lengthSet := true } (t.buf b)
          else t.buf b = s.buf b) ∧
    (∀ rate : Word, 0 < rate.toInt →
      (∀ b ∈ activeSet s.cfg, 0 < (s.buf b).sampleRate.toNat →
        representable (ratio s.cfg rate.toNat (s.buf b).sampleRate.toNat) = true) →
      ∃ t, exec (.mbClockRate rate) s = .next t ∧
        t = { s with
          left := t.left, right := t.right, center := t.center
          response := some ⟨.ok, 0, 0⟩ } ∧
        ∀ b, if b ∈ activeSet s.cfg then
            BufferUnit.Reconfigured s.cfg { s.buf b with clockRate := rate } (t.buf b)
          else t.buf b = s.buf b)

/-- R210, R216, R217, R218: MB_BASS_FREQ, MB_CLEAR, and MB_END_FRAME where no test fails, complete and
leave the state that the per-unit commands on the units of the active set leave one after the other,
but for the response and, for MB_CLEAR, `MIX.samples_read`, which is 0. -/
def Obligations.MultiBufferFansOut : Prop :=
  ∀ (s : State) (x : Word), s.sysFault = 0 → s.Inv →
    (∃ t, execAll ((activeSet s.cfg).map fun b => .bassFreq b x) s = .next t ∧
      exec (.mbBassFreq x) s = .next { t with response := some ⟨.ok, 0, 0⟩ }) ∧
    (∃ t, execAll ((activeSet s.cfg).map fun b => .clear b) s = .next t ∧
      exec .mbClear s = .next { t with samplesRead := 0, response := some ⟨.ok, 0, 0⟩ }) ∧
    ((∀ b ∈ activeSet s.cfg, (s.buf b).configured = true ∧
        slotOf s.cfg ((s.buf b).toFixed x.toNat) ≤ (s.buf b).nominal s.cfg) →
      ∃ t, execAll ((activeSet s.cfg).map fun b => .endFrame b x) s = .next t ∧
        exec (.mbEndFrame x) s = .next { t with response := some ⟨.ok, 0, 0⟩ })

/-- R216 to R218, unit by unit: what MB_BASS_FREQ, MB_CLEAR, and MB_END_FRAME where no test fails, leave
in each buffer unit of the active set; every other unit and register is as it was, but for
`MIX.samples_read` under MB_CLEAR. -/
def Obligations.MultiBufferUnitwise : Prop :=
  ∀ (s : State) (x : Word), s.sysFault = 0 → s.Inv →
    (∃ t, exec (.mbBassFreq x) s = .next t ∧
      t = { s with
        left := t.left, right := t.right, center := t.center, response := some ⟨.ok, 0, 0⟩ } ∧
      ∀ b, if b ∈ activeSet s.cfg then
          t.buf b = { s.buf b with bassFreq := x, bassShift := (t.buf b).bassShift } ∧
          (t.buf b).bassShift.toNat = (if 0 < (s.buf b).sampleRate.toNat then
            bassShiftFor x.toInt (s.buf b).sampleRate.toNat else (s.buf b).bassShift.toNat)
        else t.buf b = s.buf b) ∧
    (∃ t, exec .mbClear s = .next t ∧
      t = { s with
        left := t.left, right := t.right, center := t.center, samplesRead := 0
        response := some ⟨.ok, 0, 0⟩ } ∧
      ∀ b, if b ∈ activeSet s.cfg then
          t.buf b = { s.buf b with
            offset := 0, readerAccum := 0, modified := false, lastNonSilence := 0, delta := [] }
        else t.buf b = s.buf b) ∧
    ((∀ b ∈ activeSet s.cfg, (s.buf b).configured = true ∧
        slotOf s.cfg ((s.buf b).toFixed x.toNat) ≤ (s.buf b).nominal s.cfg) →
      ∃ t, exec (.mbEndFrame x) s = .next t ∧
        t = { s with
          left := t.left, right := t.right, center := t.center
          response := some ⟨.ok, 0, 0⟩ } ∧
        ∀ b, if b ∈ activeSet s.cfg then
            t.buf b = { s.buf b with
              offset := (t.buf b).offset
              modified := false
              lastNonSilence := (t.buf b).lastNonSilence } ∧
            (t.buf b).offset.toNat =
              (s.buf b).offset.toNat + x.toNat * (s.buf b).factor.toNat ∧
            (t.buf b).lastNonSilence.toNat = (if (s.buf b).modified then
              (t.buf b).offset.toNat / 2 ^ s.cfg.fixedBits + s.cfg.extra
              else (s.buf b).lastNonSilence.toNat)
          else t.buf b = s.buf b)

/-- R219, R220: MB_READ_SAMPLES is READ_SAMPLES C in MONO, READ_PAIRS of half the count in STEREO with
the samples counted, nothing in SILENT; MB_SAMPLES_AVAIL returns what it can give. -/
def Obligations.MultiBufferReadPath : Prop :=
  ∀ (s : State) (maxCount : Word), s.sysFault = 0 → s.Inv →
    ((∀ b ∈ activeSet s.cfg, (s.buf b).configured = true) →
      ∃ t, exec (.mbReadSamples maxCount) s = .next t ∧
        match s.cfg.composition with
        | .mono => exec (.readSamples .center maxCount) s = .next t
        | .stereo => ∃ n, n = min (maxCount.toNat / 2) s.pairsAvail ∧
            t.response = some ⟨.ok, BitVec.ofNat 64 (2 * n), BitVec.ofNat 32 (2 * n)⟩ ∧
            exec (.readPairs (BitVec.ofNat 32 (maxCount.toNat / 2))) s =
              .next { t with
                response := some ⟨.ok, BitVec.ofNat 64 n, BitVec.ofNat 32 (2 * n)⟩ }
        | .silent => t = { s with response := some ⟨.ok, 0, 0⟩ }) ∧
    ∃ v, exec .mbSamplesAvail s = .next { s with response := some ⟨.ok, v, 0⟩ } ∧
      v.toNat =
        match s.cfg.composition with
        | .mono => s.center.samplesAvail s.cfg
        | .stereo => 2 * min (s.left.samplesAvail s.cfg)
            (min (s.right.samplesAvail s.cfg) (s.center.samplesAvail s.cfg))
        | .silent => 0

/-- R222: a multi-buffer command that does not end OK has written no unit and no register but the
response and SYS.fault; and the first failing test, over the units in the order L, R, C and within a
unit in the order of its rule, decides the status or the fault code. -/
def Obligations.MultiBufferIsAtomic : Prop :=
  (∀ (i : Instr) (s t : State), i.isMultiBuffer = true → exec i s = .next t → ¬ endsOk s t →
    t = { s with sysFault := t.sysFault, response := t.response }) ∧
  (∀ (s : State) (pre post : List BufUnit) (b : BufUnit), s.sysFault = 0 →
    activeSet s.cfg = pre ++ b :: post →
    (∀ x : Word,
      (∀ a ∈ pre, (s.buf a).configured = true ∧
        slotOf s.cfg ((s.buf a).toFixed x.toNat) ≤ (s.buf a).nominal s.cfg) →
      (¬ (s.buf b).configured = true →
        exec (.mbEndFrame x) s = .next (s.faulted .notConfigured)) ∧
      ((s.buf b).configured = true →
        (s.buf b).nominal s.cfg < slotOf s.cfg ((s.buf b).toFixed x.toNat) →
        exec (.mbEndFrame x) s = .next (s.faulted .frameOverflow))) ∧
    (∀ rate msec : Word, 0 < rate.toInt →
      (∀ a ∈ pre, sizeFor s.cfg rate.toNat msec.toNat ≤ s.cfg.bufCapacity ∧
        (0 < (s.buf a).clockRate.toNat →
          representable (ratio s.cfg (s.buf a).clockRate.toNat rate.toNat) = true)) →
      (s.cfg.bufCapacity < sizeFor s.cfg rate.toNat msec.toNat →
        exec (.mbSetSampleRate rate msec) s = .next (s.errored .errNomem)) ∧
      (sizeFor s.cfg rate.toNat msec.toNat ≤ s.cfg.bufCapacity →
        0 < (s.buf b).clockRate.toNat →
        representable (ratio s.cfg (s.buf b).clockRate.toNat rate.toNat) = false →
        exec (.mbSetSampleRate rate msec) s = .next (s.errored .errInvalid))) ∧
    (∀ rate : Word, 0 < rate.toInt → 0 < (s.buf b).sampleRate.toNat →
      representable (ratio s.cfg rate.toNat (s.buf b).sampleRate.toNat) = false →
      exec (.mbClockRate rate) s = .next (s.errored .errInvalid)) ∧
    (∀ m : Word, s.cfg.composition ≠ .silent → ¬ (s.buf b).configured = true →
      exec (.mbReadSamples m) s = .next (s.faulted .notConfigured)))

/-! ### System (46_system.md) -/

/-- R240: GET_STATUS returns the fault code, the composition and the pair count in their fields, in every
state, also while a fault is recorded, and changes nothing. -/
def Obligations.GetStatusWord : Prop :=
  ∀ s : State, ∃ v, exec .getStatus s = .next { s with response := some ⟨.ok, v, 0⟩ } ∧
    v.toNat = s.sysFault.toNat +
      256 * (match s.cfg.composition with
        | .mono => 0
        | .stereo => 1
        | .silent => 2) +
      2 ^ 32 * s.samplesRead.toNat
end

