-- ==== Sys2Proof/Laws/Config.lean ====
section
/-! SUPPORT. What a valid configuration gives (00_scope.md R7). -/

namespace Sys2Proof

theorem Config.valid_iff (c : Config) : c.valid = true ↔
    1 ≤ c.fixedBits ∧ c.fixedBits ≤ 31 ∧ 1 ≤ c.phaseBits ∧ c.phaseBits ≤ c.fixedBits ∧
    c.maxq % 2 = 0 ∧ 2 ≤ c.maxq ∧ 1 ≤ c.kernelUnitBase ∧ c.kernelUnitBase < 2 ^ 31 ∧
    c.extra < c.bufCapacity ∧ c.bufCapacity ≤ 2 ^ (32 - c.fixedBits) - 1 ∧
    1 ≤ c.nsynth ∧ c.nsynth ≤ 16 ∧
    (∀ k ∈ c.synths, SynthKind.widthOk c.maxq k = true) ∧ c.maxChannels ≤ 65535 := by
  simp [Config.valid, and_assoc]

theorem Config.extra_pos (c : Config) : 2 ≤ c.extra := by
  simp [Config.extra]

/-- Positions of all slots fit 32 bits. -/
theorem Config.capacity_scaled {c : Config} (h : c.valid = true) :
    (c.bufCapacity + 1) * 2 ^ c.fixedBits ≤ 2 ^ 32 := by
  have h' := c.valid_iff.1 h
  have h1 : c.bufCapacity + 1 ≤ 2 ^ (32 - c.fixedBits) := by
    have := h'.2.2.2.2.2.2.2.2.2.1
    have : 0 < 2 ^ (32 - c.fixedBits) := Nat.two_pow_pos _
    omega
  calc (c.bufCapacity + 1) * 2 ^ c.fixedBits
      ≤ 2 ^ (32 - c.fixedBits) * 2 ^ c.fixedBits := Nat.mul_le_mul_right _ h1
    _ = 2 ^ 32 := by rw [← Nat.pow_add]; congr 1; have := h'.2.1; omega

theorem Config.capacity_lt {c : Config} (h : c.valid = true) : c.bufCapacity < 2 ^ 31 := by
  have h' := c.valid_iff.1 h
  have h1 := h'.2.2.2.2.2.2.2.2.2.1
  have h2 : 2 ^ (32 - c.fixedBits) ≤ 2 ^ 31 := Nat.pow_le_pow_right (by omega) (by omega)
  have : 0 < 2 ^ (32 - c.fixedBits) := Nat.two_pow_pos _
  omega

theorem Config.extra_lt_capacity {c : Config} (h : c.valid = true) : c.extra < c.bufCapacity :=
  (c.valid_iff.1 h).2.2.2.2.2.2.2.2.1

theorem Config.widthOk_of_mem {c : Config} (h : c.valid = true) {w : Nat}
    (hm : SynthKind.full w ∈ c.synths) : w % 2 = 0 ∧ 2 ≤ w ∧ w ≤ c.maxq := by
  have := (c.valid_iff.1 h).2.2.2.2.2.2.2.2.2.2.2.2.1 _ hm
  simpa [SynthKind.widthOk, and_assoc] using this

end Sys2Proof
end

