-- ==== Sys2Proof/Laws/Arith.lean ====
section
/-! SUPPORT. Laws of the numeric functions (00_scope.md R11). -/

namespace Sys2Proof.Machine

/-- `wrap32` of a value in range is that value. -/
theorem toInt_wrap32 {v : Int} (h1 : -(2 ^ 31) ≤ v) (h2 : v < 2 ^ 31) : (wrap32 v).toInt = v := by
  unfold wrap32
  rw [BitVec.toInt_ofInt, Int.bmod_def]
  norm_num
  split <;> omega

/-- `wrap32(v)` is congruent to v modulo 2^32. -/
theorem wrap32_congr (v : Int) : (2 ^ 32 : Int) ∣ (wrap32 v).toInt - v := by
  unfold wrap32
  rw [BitVec.toInt_ofInt, Int.bmod_def]
  norm_num
  split <;> omega

@[simp] theorem wrap32_toInt (x : Word) : wrap32 x.toInt = x := BitVec.ofInt_toInt

theorem asr_nonneg {v : Int} (h : 0 ≤ v) (n : Nat) : 0 ≤ asr v n :=
  Int.ediv_nonneg h (by positivity)

theorem asr_le_self {v : Int} (h : 0 ≤ v) (n : Nat) : asr v n ≤ v :=
  Int.ediv_le_self _ h

theorem asr_neg_lt {v : Int} (h : v < 0) (n : Nat) : asr v n < 0 :=
  Int.ediv_neg_of_neg_of_pos h (by positivity)

theorem le_asr_of_neg {v : Int} (h : v < 0) (n : Nat) : v ≤ asr v n := by
  unfold asr
  rw [Int.le_ediv_iff_mul_le (by positivity)]
  have : (1 : Int) ≤ 2 ^ n := one_le_pow₀ (by norm_num)
  nlinarith

/-- `asr` by 0 bits is the value. -/
@[simp] theorem asr_zero (v : Int) : asr v 0 = v := by simp [asr]

/-- With shift 31 a non-negative 32-bit value has no feedback (40_buffer_config.md R103). -/
theorem asr_31_of_nonneg {v : Int} (h1 : 0 ≤ v) (h2 : v < 2 ^ 31) : asr v 31 = 0 :=
  Int.ediv_eq_zero_of_lt h1 h2

/-- The shift of BS is in 0 .. 31 (R103). -/
theorem bassShiftFor_le (freq : Int) (rate : Nat) : bassShiftFor freq rate ≤ 31 := by
  unfold bassShiftFor
  split
  · exact le_rfl
  · dsimp only
    split <;> omega

theorem extra_le_sizeFor (c : Config) (rate ms : Nat) : c.extra ≤ sizeFor c rate ms :=
  Nat.le_add_left _ _

theorem representable_iff (f : Nat) : representable f = true ↔ 1 ≤ f ∧ f ≤ 2 ^ 32 - 1 := by
  simp [representable]

end Sys2Proof.Machine
end

