-- ==== Sys2Proof/Laws/Kernel.lean ====
section
/-! SUPPORT. Laws of kernel tables: every table SYN_TREBLE_EQ writes meets 43_synth.md R166, and rescaling
keeps the unit sum exactly (R163). -/

namespace Sys2Proof.Machine

/-! ### Tap sums -/

@[simp] theorem tapSum_nil : tapSum [] = 0 := rfl

@[simp] theorem tapSum_cons (k : Word) (row : List Word) :
    tapSum (k :: row) = k.toInt + tapSum row := rfl

theorem tapSum_replicate_zero (n : Nat) : tapSum (List.replicate n 0) = 0 := by
  induction n with
  | zero => rfl
  | succ n ih => rw [List.replicate_succ, tapSum_cons, ih]; rfl

/-- Replacing one tap moves the sum by the difference. -/
theorem tapSum_modify (row : List Word) (f : Word → Word) :
    ∀ (i : Nat) (h : i < row.length),
      tapSum (row.modify i f) = tapSum row - row[i].toInt + (f row[i]).toInt := by
  induction row with
  | nil => intro i h; simp at h
  | cons k ks ih =>
    intro i h
    cases i with
    | zero => simp [List.modify]; omega
    | succ i =>
      have h' : i < ks.length := by simpa using h
      have e : (k :: ks).modify (i + 1) f = k :: ks.modify i f := by
        simp [List.modify]
      rw [e, tapSum_cons, ih i h']
      simp
      omega

/-! ### Shape -/

theorem tableShape_iff {c : Config} {w : Nat} {t : List (List Word)} :
    tableShape c w t = true ↔ t.length = c.res ∧ ∀ row ∈ t, row.length = w := by
  simp [tableShape]

theorem generatedOk_iff {c : Config} {w : Nat} {t : List (List Word)} :
    generatedOk c w t = true ↔ tableShape c w t = true ∧ ∀ row ∈ t,
      tapSum row = c.kernelUnitBase ∧ ∀ k ∈ row, -(2 ^ 30) ≤ k.toInt ∧ k.toInt ≤ 2 ^ 30 := by
  simp [generatedOk]

/-! ### Generated tables -/

theorem placeholderTable_ok {c : Config} (hc : c.valid = true) {w : Nat} (hw : 2 ≤ w) :
    generatedOk c w (placeholderTable c w) = true := by
  have hb := (c.valid_iff.1 hc).2.2.2.2.2.2.2.1
  rw [generatedOk_iff, tableShape_iff]
  refine ⟨⟨by simp [placeholderTable], fun row hrow => ?_⟩, fun row hrow => ?_⟩
  · obtain rfl := List.eq_of_mem_replicate hrow
    simp
    omega
  · obtain rfl := List.eq_of_mem_replicate hrow
    have e1 : (wrap32 ((c.kernelUnitBase / 2 : Nat) : Int)).toInt =
        ((c.kernelUnitBase / 2 : Nat) : Int) := toInt_wrap32 (by omega) (by omega)
    have e2 : (wrap32 ((c.kernelUnitBase - c.kernelUnitBase / 2 : Nat) : Int)).toInt =
        ((c.kernelUnitBase - c.kernelUnitBase / 2 : Nat) : Int) :=
      toInt_wrap32 (by omega) (by omega)
    refine ⟨?_, fun k hk => ?_⟩
    · rw [tapSum_cons, tapSum_cons, e1, e2, tapSum_replicate_zero]
      omega
    · rcases List.mem_cons.1 hk with rfl | hk
      · rw [e1]; omega
      · rcases List.mem_cons.1 hk with rfl | hk
        · rw [e2]; omega
        · obtain rfl := List.eq_of_mem_replicate hk
          simp

/-- Every table SYN_TREBLE_EQ can write meets R166, whatever the open generator is. -/
theorem kernelTable_ok {c : Config} (hc : c.valid = true) (eq : Word) {w : Nat} (hw : 2 ≤ w) :
    generatedOk c w (kernelTable c eq w) = true := by
  unfold kernelTable
  split
  · assumption
  · exact placeholderTable_ok hc hw

/-! ### Rescaling -/

/-- A rescaled tap is the exact rounded quotient (R163: "`wrap32` never acts"), at most 2^30 in size. -/
theorem rescaleTap_spec {sh : Nat} (h1 : 1 ≤ sh) (k : Word) :
    (rescaleTap sh k).toInt = asr (k.toInt + 2 ^ (sh - 1)) sh ∧
    -(2 ^ 30) ≤ (rescaleTap sh k).toInt ∧ (rescaleTap sh k).toInt ≤ 2 ^ 30 ∧
    2 * 2 ^ (sh - 1) * (rescaleTap sh k).toInt ≤ k.toInt + 2 ^ (sh - 1) ∧
    k.toInt - 2 ^ (sh - 1) ≤ 2 * 2 ^ (sh - 1) * (rescaleTap sh k).toInt := by
  obtain ⟨n, rfl⟩ : ∃ n, sh = n + 1 := ⟨sh - 1, by omega⟩
  simp only [Nat.add_sub_cancel]
  have hk1 := BitVec.le_toInt k
  have hk2 := BitVec.toInt_lt (x := k)
  have hP : (1 : Int) ≤ 2 ^ n := one_le_pow₀ (by norm_num)
  have hpow : (2 : Int) ^ (n + 1) = 2 * 2 ^ n := by rw [pow_succ]; ring
  obtain ⟨x, hx⟩ : ∃ x, x = asr (k.toInt + 2 ^ n) (n + 1) := ⟨_, rfl⟩
  have he : rescaleTap (n + 1) k = wrap32 x := by rw [hx]; rfl
  have hd1 : 2 * 2 ^ n * x ≤ k.toInt + 2 ^ n := by
    rw [hx]; unfold asr; rw [hpow]
    exact Int.mul_ediv_self_le (by positivity)
  have hd2 : k.toInt + 2 ^ n < 2 * 2 ^ n * x + 2 * 2 ^ n := by
    rw [hx]; unfold asr; rw [hpow]
    exact Int.lt_mul_ediv_self_add (by positivity)
  rw [← hx, he]
  clear hx he hpow
  generalize (2 : Int) ^ n = P at *
  norm_num at hk1 hk2
  have b1 : -(2 ^ 30) ≤ x := by
    by_contra hlt
    have : 2 * P * (x + 1) ≤ 2 * P * (-(2 ^ 30)) :=
      mul_le_mul_of_nonneg_left (by omega) (by omega)
    nlinarith
  have b2 : x ≤ 2 ^ 30 := by
    by_contra hlt
    have : 2 * P * (2 ^ 30 + 1) ≤ 2 * P * x :=
      mul_le_mul_of_nonneg_left (by omega) (by omega)
    nlinarith
  rw [toInt_wrap32 (by omega) (by omega)]
  exact ⟨rfl, b1, b2, hd1, by linarith⟩

/-- The sum of the divided taps of a phase, before the error is put back. -/
theorem tapSum_rescaleTap {sh : Nat} (h1 : 1 ≤ sh) (row : List Word) :
    2 * 2 ^ (sh - 1) * tapSum (row.map (rescaleTap sh)) ≤ tapSum row + 2 ^ (sh - 1) * row.length ∧
    tapSum row - 2 ^ (sh - 1) * row.length ≤
      2 * 2 ^ (sh - 1) * tapSum (row.map (rescaleTap sh)) := by
  induction row with
  | nil => simp
  | cons k ks ih =>
    obtain ⟨-, -, -, h4, h5⟩ := rescaleTap_spec h1 k
    simp only [List.map_cons, tapSum_cons, List.length_cons, Nat.cast_add, Nat.cast_one]
    constructor <;> nlinarith [ih.1, ih.2]

/-- The rounding error of a phase is at most half its width. -/
theorem rescale_error {sh w ku : Nat} (h1 : 1 ≤ sh) (he : w % 2 = 0) {row : List Word}
    (hl : row.length = w) (hs : tapSum row = (ku : Int)) :
    -((w / 2 : Nat) : Int) ≤ ((ku / 2 ^ sh : Nat) : Int) - tapSum (row.map (rescaleTap sh)) ∧
      ((ku / 2 ^ sh : Nat) : Int) - tapSum (row.map (rescaleTap sh)) ≤ ((w / 2 : Nat) : Int) := by
  obtain ⟨n, rfl⟩ : ∃ n, sh = n + 1 := ⟨sh - 1, by omega⟩
  obtain ⟨g1, g2⟩ := tapSum_rescaleTap h1 row
  obtain ⟨m, rfl⟩ : ∃ m, w = 2 * m := ⟨w / 2, by omega⟩
  rw [hl, hs] at g1 g2
  simp only [Nat.add_sub_cancel] at g1 g2
  have hq1 : 2 * 2 ^ n * (ku / 2 ^ (n + 1)) ≤ ku := by
    have := Nat.mul_div_le ku (2 ^ (n + 1))
    rwa [pow_succ, Nat.mul_comm (2 ^ n) 2] at this ⊢
  have hq2 : ku < 2 * 2 ^ n * (ku / 2 ^ (n + 1)) + 2 * 2 ^ n := by
    have := Nat.lt_mul_div_succ ku (Nat.two_pow_pos (n + 1))
    rw [pow_succ, Nat.mul_comm (2 ^ n) 2] at this ⊢
    linarith
  rw [Nat.mul_div_cancel_left m (by norm_num)]
  have hP : (1 : Int) ≤ 2 ^ n := one_le_pow₀ (by norm_num)
  zify at hq1 hq2
  generalize tapSum (row.map (rescaleTap (n + 1))) = S at *
  push_cast at g1 g2 ⊢
  generalize ((ku : Int) / 2 ^ (n + 1)) = Q at *
  generalize (2 : Int) ^ n = P at *
  constructor
  · by_contra hlt
    have : 2 * P * (Q - S + 1) ≤ 2 * P * (-(m : Int)) :=
      mul_le_mul_of_nonneg_left (by omega) (by omega)
    nlinarith
  · by_contra hlt
    have : 2 * P * ((m : Int) + 1) ≤ 2 * P * (Q - S) :=
      mul_le_mul_of_nonneg_left (by omega) (by omega)
    nlinarith

/-- Rescaling restores the unit sum of a phase exactly (R163). -/
theorem tapSum_rescaleRow {sh w ku : Nat} (h1 : 1 ≤ sh) (he : w % 2 = 0) (h2 : 2 ≤ w)
    (hb : w < 2 ^ 31) {row : List Word} (hl : row.length = w) (hs : tapSum row = (ku : Int)) :
    tapSum (rescaleRow sh w ((ku / 2 ^ sh : Nat) : Int) row) = ((ku / 2 ^ sh : Nat) : Int) := by
  obtain ⟨e1, e2⟩ := rescale_error h1 he hl hs
  unfold rescaleRow
  dsimp only
  have hi : w / 2 - 1 < (row.map (rescaleTap sh)).length := by rw [List.length_map]; omega
  rw [tapSum_modify _ _ _ hi]
  have hi' : w / 2 - 1 < row.length := by omega
  rw [List.getElem_map]
  obtain ⟨-, r1, r2, -, -⟩ := rescaleTap_spec h1 row[w / 2 - 1]
  rw [toInt_wrap32 (by omega) (by omega)]
  omega

@[simp] theorem rescaleRow_length (sh w : Nat) (ku : Int) (row : List Word) :
    (rescaleRow sh w ku row).length = row.length := by
  simp [rescaleRow]

theorem tableShape_rescale {c : Config} {w sh : Nat} {r : SynthUnit}
    (h : tableShape c w r.taps = true) : tableShape c w (r.rescale w sh).taps = true := by
  rw [tableShape_iff] at h ⊢
  refine ⟨by simpa [SynthUnit.rescale] using h.1, fun row hrow => ?_⟩
  obtain ⟨row', hr', rfl⟩ := List.mem_map.1 hrow
  rw [rescaleRow_length]
  exact h.2 row' hr'

@[simp] theorem SynthUnit.rescale_kernelUnit (w sh : Nat) (r : SynthUnit) :
    (r.rescale w sh).kernelUnit.toNat = r.kernelUnit.toNat / 2 ^ sh := by
  have := r.kernelUnit.isLt
  have : r.kernelUnit.toNat / 2 ^ sh ≤ r.kernelUnit.toNat := Nat.div_le_self _ _
  simp only [SynthUnit.rescale, BitVec.toNat_ofNat]
  exact Nat.mod_eq_of_lt (by omega)

@[simp] theorem SynthUnit.rescale_out (w sh : Nat) (r : SynthUnit) :
    (r.rescale w sh).out = r.out := rfl

@[simp] theorem SynthUnit.rescale_lastAmp (w sh : Nat) (r : SynthUnit) :
    (r.rescale w sh).lastAmp = r.lastAmp := rfl

@[simp] theorem SynthUnit.rescale_deltaFactor (w sh : Nat) (r : SynthUnit) :
    (r.rescale w sh).deltaFactor = r.deltaFactor := rfl

end Sys2Proof.Machine
end

