-- ==== Sys2Proof/Laws/Memory.lean ====
section
/-! SUPPORT. Laws of the delta memories (20_memory.md R61): every operation keeps the canonical form, and
what each slot reads afterwards. -/

namespace Sys2Proof.Machine

/-! ### Reading -/

@[simp] theorem Memory.read_nil (i : Nat) : Memory.read [] i = 0 := rfl

theorem Memory.read_cons (j : Nat) (x : Word) (m : Memory) (i : Nat) :
    Memory.read ((j, x) :: m) i = if i = j then x else Memory.read m i := by
  unfold Memory.read
  rw [List.lookup_cons]
  by_cases h : i = j
  · simp [h]
  · rw [beq_eq_false_iff_ne.2 h, if_neg h]

theorem Memory.read_eq_zero_of_forall {m : Memory} {i : Nat} (h : ∀ p ∈ m, p.1 ≠ i) :
    Memory.read m i = 0 := by
  induction m with
  | nil => rfl
  | cons p m ih =>
    obtain ⟨j, x⟩ := p
    rw [Memory.read_cons, if_neg fun e => h (j, x) (by simp) e.symm]
    exact ih fun q hq => h q (List.mem_cons_of_mem _ hq)

theorem Memory.wf_tail {p : Nat × Word} {m : Memory} (h : Memory.wf (p :: m)) : Memory.wf m :=
  ⟨(List.pairwise_cons.1 h.1).2, fun q hq => h.2 q (List.mem_cons_of_mem _ hq)⟩

theorem Memory.wf_head_lt {p : Nat × Word} {m : Memory} (h : Memory.wf (p :: m)) :
    ∀ q ∈ m, p.1 < q.1 := (List.pairwise_cons.1 h.1).1

theorem Memory.wf_cons {p : Nat × Word} {m : Memory} :
    Memory.wf (p :: m) ↔ p.2 ≠ 0 ∧ (∀ q ∈ m, p.1 < q.1) ∧ Memory.wf m := by
  constructor
  · intro h
    exact ⟨h.2 p (by simp), Memory.wf_head_lt h, Memory.wf_tail h⟩
  · rintro ⟨h0, hlt, hw⟩
    refine ⟨List.pairwise_cons.2 ⟨hlt, hw.1⟩, fun q hq => ?_⟩
    rcases List.mem_cons.1 hq with rfl | hq
    · exact h0
    · exact hw.2 q hq

/-- In a canonical memory a slot is listed exactly where it reads non-zero. -/
theorem Memory.mem_of_wf {m : Memory} (h : Memory.wf m) (i : Nat) (v : Word) :
    (i, v) ∈ m ↔ v ≠ 0 ∧ Memory.read m i = v := by
  induction m with
  | nil => simpa using fun a b => a b.symm
  | cons p m ih =>
    obtain ⟨j, x⟩ := p
    have hw := Memory.wf_cons.1 h
    rw [List.mem_cons, ih hw.2.2, Memory.read_cons, Prod.mk.injEq]
    by_cases e : i = j
    · subst e
      have hz : Memory.read m i = 0 :=
        Memory.read_eq_zero_of_forall fun q hq => (hw.2.1 q hq).ne'
      have hx : x ≠ 0 := hw.1
      rw [if_pos rfl, hz]
      constructor
      · rintro (⟨-, rfl⟩ | ⟨h1, h2⟩)
        · exact ⟨hx, rfl⟩
        · exact absurd h2.symm h1
      · rintro ⟨-, rfl⟩
        exact .inl ⟨rfl, rfl⟩
    · simp [e]

/-- Two canonical memories that read alike are the same list. -/
theorem Memory.ext_of_wf {m n : Memory} (hm : Memory.wf m) (hn : Memory.wf n)
    (h : ∀ i, Memory.read m i = Memory.read n i) : m = n := by
  have hperm : m.Perm n := by
    have nd : ∀ {l : Memory}, Memory.wf l → l.Nodup := fun hl =>
      hl.1.imp fun {a b} hab e => by rw [e] at hab; exact Nat.lt_irrefl _ hab
    rw [List.perm_ext_iff_of_nodup (nd hm) (nd hn)]
    rintro ⟨i, v⟩
    rw [Memory.mem_of_wf hm, Memory.mem_of_wf hn, h]
  exact hperm.eq_of_pairwise (fun a b _ _ h1 h2 => absurd (Nat.lt_trans h1 h2) (Nat.lt_irrefl _))
    hm.1 hn.1

/-! ### Writing -/

theorem Memory.mem_write {m : Memory} {i : Nat} {v : Word} {p : Nat × Word}
    (h : p ∈ Memory.write m i v) : p = (i, v) ∨ p ∈ m := by
  induction m with
  | nil =>
    unfold Memory.write at h
    split at h
    · cases h
    · exact .inl (by simpa using h)
  | cons q m ih =>
    obtain ⟨j, x⟩ := q
    unfold Memory.write at h
    split at h
    · rcases List.mem_cons.1 h with rfl | h
      · exact .inr (by simp)
      · exact (ih h).imp id (List.mem_cons_of_mem _)
    · have htail : ∀ r, (r ∈ if j = i then m else (j, x) :: m) → r ∈ (j, x) :: m := by
        intro r hr
        split at hr
        · exact List.mem_cons_of_mem _ hr
        · exact hr
      dsimp only at h
      by_cases hv : v = 0
      · rw [if_pos hv] at h
        exact .inr (htail p h)
      · rw [if_neg hv] at h
        exact (List.mem_cons.1 h).imp id (htail p)

/-- A write keeps the canonical form. -/
theorem Memory.wf_write {m : Memory} (h : Memory.wf m) (i : Nat) (v : Word) :
    Memory.wf (Memory.write m i v) := by
  induction m with
  | nil =>
    unfold Memory.write
    split
    · exact h
    · next hv => exact Memory.wf_cons.2 ⟨hv, by simp, h⟩
  | cons q m ih =>
    obtain ⟨j, x⟩ := q
    have hw := Memory.wf_cons.1 h
    unfold Memory.write
    split
    · next hj =>
      refine Memory.wf_cons.2 ⟨hw.1, fun p hp => ?_, ih hw.2.2⟩
      rcases Memory.mem_write hp with rfl | hp
      · exact hj
      · exact hw.2.1 p hp
    · next hj =>
      dsimp only
      by_cases e : j = i
      · subst e
        by_cases hv : v = 0
        · simpa [hv] using hw.2.2
        · simp only [if_true, if_neg hv]
          exact Memory.wf_cons.2 ⟨hv, hw.2.1, hw.2.2⟩
      · by_cases hv : v = 0
        · simpa [e, hv] using h
        · simp only [if_neg e, if_neg hv]
          have hij : i < j := by omega
          refine Memory.wf_cons.2 ⟨hv, fun p hp => ?_, h⟩
          rcases List.mem_cons.1 hp with rfl | hp
          · exact hij
          · exact hij.trans (hw.2.1 p hp)

/-- What a slot reads after a write. -/
theorem Memory.read_write {m : Memory} (h : Memory.wf m) (i k : Nat) (v : Word) :
    Memory.read (Memory.write m i v) k = if k = i then v else Memory.read m k := by
  induction m with
  | nil =>
    unfold Memory.write
    split
    · next hv => simp [hv]
    · rw [Memory.read_cons]
  | cons q m ih =>
    obtain ⟨j, x⟩ := q
    have hw := Memory.wf_cons.1 h
    have tail0 : ∀ n, n ≤ j → Memory.read m n = 0 := fun n hn =>
      Memory.read_eq_zero_of_forall fun p hp => (hn.trans_lt (hw.2.1 p hp)).ne'
    unfold Memory.write
    split
    · next hj =>
      rw [Memory.read_cons, ih hw.2.2, Memory.read_cons]
      by_cases e : k = j
      · simp [e, hj.ne]
      · simp [e]
    · next hj =>
      dsimp only
      by_cases e : j = i
      · subst e
        by_cases hv : v = 0
        · simp only [if_true, if_pos hv, Memory.read_cons]
          by_cases ek : k = j
          · simp [ek, hv, tail0 j le_rfl]
          · simp [ek]
        · simp only [if_true, if_neg hv, Memory.read_cons]
          by_cases ek : k = j <;> simp [ek]
      · by_cases hv : v = 0
        · simp only [if_neg e, if_pos hv, Memory.read_cons]
          by_cases ek : k = i
          · subst ek
            rw [if_neg fun h => e h.symm, tail0 k (by omega), if_pos rfl, hv]
          · simp [ek]
        · simp only [if_neg e, if_neg hv, Memory.read_cons]

/-! ### Adding -/

theorem Memory.wf_add {m : Memory} (h : Memory.wf m) (i : Nat) (d : Word) :
    Memory.wf (Memory.add m i d) := Memory.wf_write h i _

theorem Memory.mem_add {m : Memory} {i : Nat} {d : Word} {p : Nat × Word}
    (h : p ∈ Memory.add m i d) : p.1 = i ∨ p ∈ m :=
  (Memory.mem_write h).imp (fun e => by rw [e]) id

/-- `DELTA[i] <- wrap32(DELTA[i] + d)`, every other slot unchanged. -/
theorem Memory.read_add {m : Memory} (h : Memory.wf m) (i k : Nat) (d : Word) :
    Memory.read (Memory.add m i d) k =
      if k = i then wrap32 ((Memory.read m i).toInt + d.toInt) else Memory.read m k :=
  Memory.read_write h i k _

theorem Memory.wf_addTaps {m : Memory} (h : Memory.wf m) (i : Nat) (v : Word) (row : List Word) :
    Memory.wf (Memory.addTaps m i v row) := by
  induction row generalizing m i with
  | nil => exact h
  | cons k ks ih => exact ih (Memory.wf_add h i _) (i + 1)

theorem Memory.mem_addTaps {m : Memory} {i : Nat} {v : Word} {row : List Word} {p : Nat × Word}
    (h : p ∈ Memory.addTaps m i v row) : i ≤ p.1 ∧ p.1 < i + row.length ∨ p ∈ m := by
  induction row generalizing m i with
  | nil => exact .inr h
  | cons k ks ih =>
    simp only [List.length_cons]
    rcases ih h with h | h
    · exact .inl (by omega)
    · rcases Memory.mem_add h with h | h
      · exact .inl (by omega)
      · exact .inr h

/-- Slot n after the taps of a phase are added from slot i on: tap n − i times v is added to it, and
slots outside i .. i + W − 1 are unchanged. -/
theorem Memory.read_addTaps {m : Memory} (h : Memory.wf m) (i n : Nat) (v : Word)
    (row : List Word) :
    Memory.read (Memory.addTaps m i v row) n =
      if i ≤ n then
        match row[n - i]? with
        | some k => wrap32 ((Memory.read m n).toInt + (wrap32 (k.toInt * v.toInt)).toInt)
        | none => Memory.read m n
      else Memory.read m n := by
  induction row generalizing m i with
  | nil => simp [Memory.addTaps]
  | cons k ks ih =>
    unfold Memory.addTaps
    rw [ih (Memory.wf_add h i _), Memory.read_add h]
    by_cases h1 : n = i
    · subst h1
      simp
    · by_cases h2 : i ≤ n
      · have h3 : i + 1 ≤ n := by omega
        have h4 : n - i = (n - (i + 1)) + 1 := by omega
        simp [h1, h2, h3, h4]
      · have h3 : ¬ i + 1 ≤ n := by omega
        simp [h1, h2, h3]

/-! ### Shifting down -/

theorem Memory.mem_shiftDown {m : Memory} {size n : Nat} {p : Nat × Word}
    (h : p ∈ Memory.shiftDown m size n) :
    (∃ q ∈ m, q.1 < size ∧ n ≤ q.1 ∧ p = (q.1 - n, q.2)) ∨ (p ∈ m ∧ size ≤ p.1) := by
  unfold Memory.shiftDown at h
  obtain ⟨q, hq, hp⟩ := List.mem_filterMap.1 h
  split at hp
  · next h1 =>
    split at hp
    · next h2 => exact .inl ⟨q, hq, h1, h2, by simpa using hp.symm⟩
    · cases hp
  · next h1 =>
    obtain rfl : q = p := by simpa using hp
    exact .inr ⟨hq, by omega⟩

theorem Memory.wf_shiftDown {m : Memory} (h : Memory.wf m) (size n : Nat) :
    Memory.wf (Memory.shiftDown m size n) := by
  refine ⟨?_, fun p hp => ?_⟩
  · unfold Memory.shiftDown
    refine List.Pairwise.filterMap _ ?_ h.1
    intro a a' haa b hb b' hb'
    split at hb <;> split at hb' <;> (try split at hb) <;> (try split at hb') <;>
      simp_all <;> subst_vars <;> simp <;> omega
  · rcases Memory.mem_shiftDown hp with ⟨q, hq, -, -, rfl⟩ | ⟨hp, -⟩
    · exact h.2 q hq
    · exact h.2 p hp

/-- Slot j after the n leading slots of `size` are removed (42_buffer_read.md R141). -/
theorem Memory.read_shiftDown {m : Memory} (h : Memory.wf m) (size n j : Nat) :
    Memory.read (Memory.shiftDown m size n) j =
      if size ≤ j then Memory.read m j
      else if j + n < size then Memory.read m (j + n) else 0 := by
  have hw := Memory.wf_shiftDown h size n
  by_cases hz : Memory.read (Memory.shiftDown m size n) j = 0
  · rw [hz]
    by_cases h1 : size ≤ j
    · rw [if_pos h1]
      by_contra hne
      have : (j, Memory.read m j) ∈ m := (Memory.mem_of_wf h _ _).2 ⟨fun e => hne e.symm, rfl⟩
      have : (j, Memory.read m j) ∈ Memory.shiftDown m size n := by
        unfold Memory.shiftDown
        exact List.mem_filterMap.2 ⟨_, this, by simp; omega⟩
      have := (Memory.mem_of_wf hw _ _).1 this
      exact hne (hz.symm.trans this.2)
    · rw [if_neg h1]
      by_cases h2 : j + n < size
      · rw [if_pos h2]
        by_contra hne
        have : (j + n, Memory.read m (j + n)) ∈ m :=
          (Memory.mem_of_wf h _ _).2 ⟨fun e => hne e.symm, rfl⟩
        have : (j, Memory.read m (j + n)) ∈ Memory.shiftDown m size n := by
          unfold Memory.shiftDown
          exact List.mem_filterMap.2 ⟨_, this, by simp [h2]⟩
        have := (Memory.mem_of_wf hw _ _).1 this
        exact hne (hz.symm.trans this.2)
      · rw [if_neg h2]
  · have hm := (Memory.mem_of_wf hw j _).2 ⟨hz, rfl⟩
    rcases Memory.mem_shiftDown hm with ⟨⟨a, x⟩, hq, h1, h2, e⟩ | ⟨hp, h1⟩
    · obtain ⟨rfl, ex⟩ := Prod.mk.injEq .. ▸ e
      dsimp only at h1 h2 ex ⊢
      have h3 : ¬ size ≤ a - n := by omega
      have h4 : a - n + n = a := by omega
      rw [if_neg h3, h4, if_pos h1, ex]
      exact ((Memory.mem_of_wf h a x).1 hq).2.symm
    · have h1' : size ≤ j := h1
      rw [if_pos h1']
      exact ((Memory.mem_of_wf h j _).1 hp).2.symm

/-- Removing no slot changes nothing. -/
theorem Memory.shiftDown_zero (m : Memory) (size : Nat) : Memory.shiftDown m size 0 = m := by
  unfold Memory.shiftDown
  induction m with
  | nil => rfl
  | cons p m ih =>
    rw [List.filterMap_cons]
    by_cases h : p.1 < size <;> simp [h]

end Sys2Proof.Machine
end

