-- ==== Sys2Proof/Laws/State.lean ====
section
/-! SUPPORT. One lemma per field per update of State and of BufferUnit, each true by unfolding the update
once, so that no later proof unfolds one. -/

namespace Sys2Proof.Machine

/-! ### Reading a unit back -/

@[simp] theorem State.buf_left (s : State) :
    s.buf .left = s.left := rfl

@[simp] theorem State.buf_right (s : State) :
    s.buf .right = s.right := rfl

@[simp] theorem State.buf_center (s : State) :
    s.buf .center = s.center := rfl

@[simp] theorem State.buf_setBuf_same (s : State) (b : BufUnit) (u : BufferUnit) :
    (s.setBuf b u).buf b = u := by cases b <;> rfl

theorem State.buf_setBuf_of_ne {b b' : BufUnit} (h : b' ≠ b) (s : State) (u : BufferUnit) :
    (s.setBuf b u).buf b' = s.buf b' := by
  cases b <;> cases b' <;> first | rfl | exact absurd rfl h

theorem State.buf_setBuf (s : State) (b b' : BufUnit) (u : BufferUnit) :
    (s.setBuf b u).buf b' = if b' = b then u else s.buf b' := by
  cases b <;> cases b' <;> rfl

@[simp] theorem State.setBuf_buf (s : State) (b : BufUnit) :
    s.setBuf b (s.buf b) = s := by cases b <;> rfl

@[simp] theorem State.setBuf_setBuf (s : State) (b : BufUnit) (u v : BufferUnit) :
    (s.setBuf b u).setBuf b v = s.setBuf b v := by cases b <;> rfl

/-! ### State.setBuf -/

@[simp] theorem State.setBuf_left_left (s : State) (u : BufferUnit) :
    (s.setBuf .left u).left = u := rfl

@[simp] theorem State.setBuf_left_right (s : State) (u : BufferUnit) :
    (s.setBuf .left u).right = s.right := rfl

@[simp] theorem State.setBuf_left_center (s : State) (u : BufferUnit) :
    (s.setBuf .left u).center = s.center := rfl

@[simp] theorem State.setBuf_right_left (s : State) (u : BufferUnit) :
    (s.setBuf .right u).left = s.left := rfl

@[simp] theorem State.setBuf_right_right (s : State) (u : BufferUnit) :
    (s.setBuf .right u).right = u := rfl

@[simp] theorem State.setBuf_right_center (s : State) (u : BufferUnit) :
    (s.setBuf .right u).center = s.center := rfl

@[simp] theorem State.setBuf_center_left (s : State) (u : BufferUnit) :
    (s.setBuf .center u).left = s.left := rfl

@[simp] theorem State.setBuf_center_right (s : State) (u : BufferUnit) :
    (s.setBuf .center u).right = s.right := rfl

@[simp] theorem State.setBuf_center_center (s : State) (u : BufferUnit) :
    (s.setBuf .center u).center = u := rfl

@[simp] theorem State.setBuf_cfg (s : State) (b : BufUnit) (u : BufferUnit) :
    (s.setBuf b u).cfg = s.cfg := by cases b <;> rfl

@[simp] theorem State.setBuf_synths (s : State) (b : BufUnit) (u : BufferUnit) :
    (s.setBuf b u).synths = s.synths := by cases b <;> rfl

@[simp] theorem State.setBuf_samplesRead (s : State) (b : BufUnit) (u : BufferUnit) :
    (s.setBuf b u).samplesRead = s.samplesRead := by cases b <;> rfl

@[simp] theorem State.setBuf_channelCount (s : State) (b : BufUnit) (u : BufferUnit) :
    (s.setBuf b u).channelCount = s.channelCount := by cases b <;> rfl

@[simp] theorem State.setBuf_channelTypes (s : State) (b : BufUnit) (u : BufferUnit) :
    (s.setBuf b u).channelTypes = s.channelTypes := by cases b <;> rfl

@[simp] theorem State.setBuf_mbSampleRate (s : State) (b : BufUnit) (u : BufferUnit) :
    (s.setBuf b u).mbSampleRate = s.mbSampleRate := by cases b <;> rfl

@[simp] theorem State.setBuf_mbLengthMs (s : State) (b : BufUnit) (u : BufferUnit) :
    (s.setBuf b u).mbLengthMs = s.mbLengthMs := by cases b <;> rfl

@[simp] theorem State.setBuf_changedCount (s : State) (b : BufUnit) (u : BufferUnit) :
    (s.setBuf b u).changedCount = s.changedCount := by cases b <;> rfl

@[simp] theorem State.setBuf_sysFault (s : State) (b : BufUnit) (u : BufferUnit) :
    (s.setBuf b u).sysFault = s.sysFault := by cases b <;> rfl

@[simp] theorem State.setBuf_out (s : State) (b : BufUnit) (u : BufferUnit) :
    (s.setBuf b u).out = s.out := by cases b <;> rfl

@[simp] theorem State.setBuf_response (s : State) (b : BufUnit) (u : BufferUnit) :
    (s.setBuf b u).response = s.response := by cases b <;> rfl

@[simp] theorem State.setBuf_pending (s : State) (b : BufUnit) (u : BufferUnit) :
    (s.setBuf b u).pending = s.pending := by cases b <;> rfl

/-! ### State.setSynth -/

@[simp] theorem State.setSynth_cfg (s : State) (u : SynthSel) (r : SynthUnit) :
    (s.setSynth u r).cfg = s.cfg := rfl

@[simp] theorem State.setSynth_left (s : State) (u : SynthSel) (r : SynthUnit) :
    (s.setSynth u r).left = s.left := rfl

@[simp] theorem State.setSynth_right (s : State) (u : SynthSel) (r : SynthUnit) :
    (s.setSynth u r).right = s.right := rfl

@[simp] theorem State.setSynth_center (s : State) (u : SynthSel) (r : SynthUnit) :
    (s.setSynth u r).center = s.center := rfl

@[simp] theorem State.setSynth_synths (s : State) (u : SynthSel) (r : SynthUnit) :
    (s.setSynth u r).synths = s.synths.set u.toNat r := rfl

@[simp] theorem State.setSynth_samplesRead (s : State) (u : SynthSel) (r : SynthUnit) :
    (s.setSynth u r).samplesRead = s.samplesRead := rfl

@[simp] theorem State.setSynth_channelCount (s : State) (u : SynthSel) (r : SynthUnit) :
    (s.setSynth u r).channelCount = s.channelCount := rfl

@[simp] theorem State.setSynth_channelTypes (s : State) (u : SynthSel) (r : SynthUnit) :
    (s.setSynth u r).channelTypes = s.channelTypes := rfl

@[simp] theorem State.setSynth_mbSampleRate (s : State) (u : SynthSel) (r : SynthUnit) :
    (s.setSynth u r).mbSampleRate = s.mbSampleRate := rfl

@[simp] theorem State.setSynth_mbLengthMs (s : State) (u : SynthSel) (r : SynthUnit) :
    (s.setSynth u r).mbLengthMs = s.mbLengthMs := rfl

@[simp] theorem State.setSynth_changedCount (s : State) (u : SynthSel) (r : SynthUnit) :
    (s.setSynth u r).changedCount = s.changedCount := rfl

@[simp] theorem State.setSynth_sysFault (s : State) (u : SynthSel) (r : SynthUnit) :
    (s.setSynth u r).sysFault = s.sysFault := rfl

@[simp] theorem State.setSynth_out (s : State) (u : SynthSel) (r : SynthUnit) :
    (s.setSynth u r).out = s.out := rfl

@[simp] theorem State.setSynth_response (s : State) (u : SynthSel) (r : SynthUnit) :
    (s.setSynth u r).response = s.response := rfl

@[simp] theorem State.setSynth_pending (s : State) (u : SynthSel) (r : SynthUnit) :
    (s.setSynth u r).pending = s.pending := rfl

@[simp] theorem State.buf_setSynth (s : State) (u : SynthSel) (r : SynthUnit) (b : BufUnit) :
    (s.setSynth u r).buf b = s.buf b := by cases b <;> rfl

/-! ### State.respond -/

@[simp] theorem State.respond_cfg (s : State) (st : Status) (v : BitVec 64) (n : Word) :
    (s.respond st v n).cfg = s.cfg := rfl

@[simp] theorem State.respond_left (s : State) (st : Status) (v : BitVec 64) (n : Word) :
    (s.respond st v n).left = s.left := rfl

@[simp] theorem State.respond_right (s : State) (st : Status) (v : BitVec 64) (n : Word) :
    (s.respond st v n).right = s.right := rfl

@[simp] theorem State.respond_center (s : State) (st : Status) (v : BitVec 64) (n : Word) :
    (s.respond st v n).center = s.center := rfl

@[simp] theorem State.respond_synths (s : State) (st : Status) (v : BitVec 64) (n : Word) :
    (s.respond st v n).synths = s.synths := rfl

@[simp] theorem State.respond_samplesRead (s : State) (st : Status) (v : BitVec 64) (n : Word) :
    (s.respond st v n).samplesRead = s.samplesRead := rfl

@[simp] theorem State.respond_channelCount (s : State) (st : Status) (v : BitVec 64) (n : Word) :
    (s.respond st v n).channelCount = s.channelCount := rfl

@[simp] theorem State.respond_channelTypes (s : State) (st : Status) (v : BitVec 64) (n : Word) :
    (s.respond st v n).channelTypes = s.channelTypes := rfl

@[simp] theorem State.respond_mbSampleRate (s : State) (st : Status) (v : BitVec 64) (n : Word) :
    (s.respond st v n).mbSampleRate = s.mbSampleRate := rfl

@[simp] theorem State.respond_mbLengthMs (s : State) (st : Status) (v : BitVec 64) (n : Word) :
    (s.respond st v n).mbLengthMs = s.mbLengthMs := rfl

@[simp] theorem State.respond_changedCount (s : State) (st : Status) (v : BitVec 64) (n : Word) :
    (s.respond st v n).changedCount = s.changedCount := rfl

@[simp] theorem State.respond_sysFault (s : State) (st : Status) (v : BitVec 64) (n : Word) :
    (s.respond st v n).sysFault = s.sysFault := rfl

@[simp] theorem State.respond_out (s : State) (st : Status) (v : BitVec 64) (n : Word) :
    (s.respond st v n).out = s.out := rfl

@[simp] theorem State.respond_response (s : State) (st : Status) (v : BitVec 64) (n : Word) :
    (s.respond st v n).response = some ⟨st, v, n⟩ := rfl

@[simp] theorem State.respond_pending (s : State) (st : Status) (v : BitVec 64) (n : Word) :
    (s.respond st v n).pending = s.pending := rfl

@[simp] theorem State.buf_respond (s : State) (st : Status) (v : BitVec 64) (n : Word) (b : BufUnit) :
    (s.respond st v n).buf b = s.buf b := by cases b <;> rfl

/-! ### State.emit -/

@[simp] theorem State.emit_cfg (s : State) (xs : List Sample) :
    (s.emit xs).cfg = s.cfg := rfl

@[simp] theorem State.emit_left (s : State) (xs : List Sample) :
    (s.emit xs).left = s.left := rfl

@[simp] theorem State.emit_right (s : State) (xs : List Sample) :
    (s.emit xs).right = s.right := rfl

@[simp] theorem State.emit_center (s : State) (xs : List Sample) :
    (s.emit xs).center = s.center := rfl

@[simp] theorem State.emit_synths (s : State) (xs : List Sample) :
    (s.emit xs).synths = s.synths := rfl

@[simp] theorem State.emit_samplesRead (s : State) (xs : List Sample) :
    (s.emit xs).samplesRead = s.samplesRead := rfl

@[simp] theorem State.emit_channelCount (s : State) (xs : List Sample) :
    (s.emit xs).channelCount = s.channelCount := rfl

@[simp] theorem State.emit_channelTypes (s : State) (xs : List Sample) :
    (s.emit xs).channelTypes = s.channelTypes := rfl

@[simp] theorem State.emit_mbSampleRate (s : State) (xs : List Sample) :
    (s.emit xs).mbSampleRate = s.mbSampleRate := rfl

@[simp] theorem State.emit_mbLengthMs (s : State) (xs : List Sample) :
    (s.emit xs).mbLengthMs = s.mbLengthMs := rfl

@[simp] theorem State.emit_changedCount (s : State) (xs : List Sample) :
    (s.emit xs).changedCount = s.changedCount := rfl

@[simp] theorem State.emit_sysFault (s : State) (xs : List Sample) :
    (s.emit xs).sysFault = s.sysFault := rfl

@[simp] theorem State.emit_out (s : State) (xs : List Sample) :
    (s.emit xs).out = s.out ++ xs := rfl

@[simp] theorem State.emit_response (s : State) (xs : List Sample) :
    (s.emit xs).response = s.response := rfl

@[simp] theorem State.emit_pending (s : State) (xs : List Sample) :
    (s.emit xs).pending = s.pending := rfl

@[simp] theorem State.buf_emit (s : State) (xs : List Sample) (b : BufUnit) :
    (s.emit xs).buf b = s.buf b := by cases b <;> rfl

/-! ### State.present -/

@[simp] theorem State.present_cfg (s : State) (x : Input) :
    (s.present x).cfg = s.cfg := rfl

@[simp] theorem State.present_left (s : State) (x : Input) :
    (s.present x).left = s.left := rfl

@[simp] theorem State.present_right (s : State) (x : Input) :
    (s.present x).right = s.right := rfl

@[simp] theorem State.present_center (s : State) (x : Input) :
    (s.present x).center = s.center := rfl

@[simp] theorem State.present_synths (s : State) (x : Input) :
    (s.present x).synths = s.synths := rfl

@[simp] theorem State.present_samplesRead (s : State) (x : Input) :
    (s.present x).samplesRead = s.samplesRead := rfl

@[simp] theorem State.present_channelCount (s : State) (x : Input) :
    (s.present x).channelCount = s.channelCount := rfl

@[simp] theorem State.present_channelTypes (s : State) (x : Input) :
    (s.present x).channelTypes = s.channelTypes := rfl

@[simp] theorem State.present_mbSampleRate (s : State) (x : Input) :
    (s.present x).mbSampleRate = s.mbSampleRate := rfl

@[simp] theorem State.present_mbLengthMs (s : State) (x : Input) :
    (s.present x).mbLengthMs = s.mbLengthMs := rfl

@[simp] theorem State.present_changedCount (s : State) (x : Input) :
    (s.present x).changedCount = s.changedCount := rfl

@[simp] theorem State.present_sysFault (s : State) (x : Input) :
    (s.present x).sysFault = s.sysFault := rfl

@[simp] theorem State.present_out (s : State) (x : Input) :
    (s.present x).out = s.out := rfl

@[simp] theorem State.present_response (s : State) (x : Input) :
    (s.present x).response = s.response := rfl

@[simp] theorem State.present_pending (s : State) (x : Input) :
    (s.present x).pending = x :: s.pending := rfl

/-! ### Procedures of a buffer unit -/

@[simp] theorem BufferUnit.clear_clockRate (u : BufferUnit) :
    (u.clear).clockRate = u.clockRate := rfl

@[simp] theorem BufferUnit.clear_sampleRate (u : BufferUnit) :
    (u.clear).sampleRate = u.sampleRate := rfl

@[simp] theorem BufferUnit.clear_lengthMs (u : BufferUnit) :
    (u.clear).lengthMs = u.lengthMs := rfl

@[simp] theorem BufferUnit.clear_lengthSet (u : BufferUnit) :
    (u.clear).lengthSet = u.lengthSet := rfl

@[simp] theorem BufferUnit.clear_bassFreq (u : BufferUnit) :
    (u.clear).bassFreq = u.bassFreq := rfl

@[simp] theorem BufferUnit.clear_factor (u : BufferUnit) :
    (u.clear).factor = u.factor := rfl

@[simp] theorem BufferUnit.clear_offset (u : BufferUnit) :
    (u.clear).offset = 0 := rfl

@[simp] theorem BufferUnit.clear_bufferSize (u : BufferUnit) :
    (u.clear).bufferSize = u.bufferSize := rfl

@[simp] theorem BufferUnit.clear_readerAccum (u : BufferUnit) :
    (u.clear).readerAccum = 0 := rfl

@[simp] theorem BufferUnit.clear_bassShift (u : BufferUnit) :
    (u.clear).bassShift = u.bassShift := rfl

@[simp] theorem BufferUnit.clear_modified (u : BufferUnit) :
    (u.clear).modified = false := rfl

@[simp] theorem BufferUnit.clear_lastNonSilence (u : BufferUnit) :
    (u.clear).lastNonSilence = 0 := rfl

@[simp] theorem BufferUnit.clear_delta (u : BufferUnit) :
    (u.clear).delta = [] := rfl

@[simp] theorem BufferUnit.deposit_clockRate (u : BufferUnit) (i : Nat) (d : Word) :
    (u.deposit i d).clockRate = u.clockRate := rfl

@[simp] theorem BufferUnit.deposit_sampleRate (u : BufferUnit) (i : Nat) (d : Word) :
    (u.deposit i d).sampleRate = u.sampleRate := rfl

@[simp] theorem BufferUnit.deposit_lengthMs (u : BufferUnit) (i : Nat) (d : Word) :
    (u.deposit i d).lengthMs = u.lengthMs := rfl

@[simp] theorem BufferUnit.deposit_lengthSet (u : BufferUnit) (i : Nat) (d : Word) :
    (u.deposit i d).lengthSet = u.lengthSet := rfl

@[simp] theorem BufferUnit.deposit_bassFreq (u : BufferUnit) (i : Nat) (d : Word) :
    (u.deposit i d).bassFreq = u.bassFreq := rfl

@[simp] theorem BufferUnit.deposit_factor (u : BufferUnit) (i : Nat) (d : Word) :
    (u.deposit i d).factor = u.factor := rfl

@[simp] theorem BufferUnit.deposit_offset (u : BufferUnit) (i : Nat) (d : Word) :
    (u.deposit i d).offset = u.offset := rfl

@[simp] theorem BufferUnit.deposit_bufferSize (u : BufferUnit) (i : Nat) (d : Word) :
    (u.deposit i d).bufferSize = u.bufferSize := rfl

@[simp] theorem BufferUnit.deposit_readerAccum (u : BufferUnit) (i : Nat) (d : Word) :
    (u.deposit i d).readerAccum = u.readerAccum := rfl

@[simp] theorem BufferUnit.deposit_bassShift (u : BufferUnit) (i : Nat) (d : Word) :
    (u.deposit i d).bassShift = u.bassShift := rfl

@[simp] theorem BufferUnit.deposit_modified (u : BufferUnit) (i : Nat) (d : Word) :
    (u.deposit i d).modified = true := rfl

@[simp] theorem BufferUnit.deposit_lastNonSilence (u : BufferUnit) (i : Nat) (d : Word) :
    (u.deposit i d).lastNonSilence = u.lastNonSilence := rfl

@[simp] theorem BufferUnit.deposit_delta (u : BufferUnit) (i : Nat) (d : Word) :
    (u.deposit i d).delta = Memory.add u.delta i d := rfl

@[simp] theorem BufferUnit.depositTaps_clockRate (u : BufferUnit) (i : Nat) (v : Word) (row : List Word) :
    (u.depositTaps i v row).clockRate = u.clockRate := rfl

@[simp] theorem BufferUnit.depositTaps_sampleRate (u : BufferUnit) (i : Nat) (v : Word) (row : List Word) :
    (u.depositTaps i v row).sampleRate = u.sampleRate := rfl

@[simp] theorem BufferUnit.depositTaps_lengthMs (u : BufferUnit) (i : Nat) (v : Word) (row : List Word) :
    (u.depositTaps i v row).lengthMs = u.lengthMs := rfl

@[simp] theorem BufferUnit.depositTaps_lengthSet (u : BufferUnit) (i : Nat) (v : Word) (row : List Word) :
    (u.depositTaps i v row).lengthSet = u.lengthSet := rfl

@[simp] theorem BufferUnit.depositTaps_bassFreq (u : BufferUnit) (i : Nat) (v : Word) (row : List Word) :
    (u.depositTaps i v row).bassFreq = u.bassFreq := rfl

@[simp] theorem BufferUnit.depositTaps_factor (u : BufferUnit) (i : Nat) (v : Word) (row : List Word) :
    (u.depositTaps i v row).factor = u.factor := rfl

@[simp] theorem BufferUnit.depositTaps_offset (u : BufferUnit) (i : Nat) (v : Word) (row : List Word) :
    (u.depositTaps i v row).offset = u.offset := rfl

@[simp] theorem BufferUnit.depositTaps_bufferSize (u : BufferUnit) (i : Nat) (v : Word) (row : List Word) :
    (u.depositTaps i v row).bufferSize = u.bufferSize := rfl

@[simp] theorem BufferUnit.depositTaps_readerAccum (u : BufferUnit) (i : Nat) (v : Word) (row : List Word) :
    (u.depositTaps i v row).readerAccum = u.readerAccum := rfl

@[simp] theorem BufferUnit.depositTaps_bassShift (u : BufferUnit) (i : Nat) (v : Word) (row : List Word) :
    (u.depositTaps i v row).bassShift = u.bassShift := rfl

@[simp] theorem BufferUnit.depositTaps_modified (u : BufferUnit) (i : Nat) (v : Word) (row : List Word) :
    (u.depositTaps i v row).modified = true := rfl

@[simp] theorem BufferUnit.depositTaps_lastNonSilence (u : BufferUnit) (i : Nat) (v : Word) (row : List Word) :
    (u.depositTaps i v row).lastNonSilence = u.lastNonSilence := rfl

@[simp] theorem BufferUnit.depositTaps_delta (u : BufferUnit) (i : Nat) (v : Word) (row : List Word) :
    (u.depositTaps i v row).delta = Memory.addTaps u.delta i v row := rfl

@[simp] theorem BufferUnit.consume_clockRate (u : BufferUnit) (c : Config) (n : Nat) :
    (u.consume c n).clockRate = u.clockRate := rfl

@[simp] theorem BufferUnit.consume_sampleRate (u : BufferUnit) (c : Config) (n : Nat) :
    (u.consume c n).sampleRate = u.sampleRate := rfl

@[simp] theorem BufferUnit.consume_lengthMs (u : BufferUnit) (c : Config) (n : Nat) :
    (u.consume c n).lengthMs = u.lengthMs := rfl

@[simp] theorem BufferUnit.consume_lengthSet (u : BufferUnit) (c : Config) (n : Nat) :
    (u.consume c n).lengthSet = u.lengthSet := rfl

@[simp] theorem BufferUnit.consume_bassFreq (u : BufferUnit) (c : Config) (n : Nat) :
    (u.consume c n).bassFreq = u.bassFreq := rfl

@[simp] theorem BufferUnit.consume_factor (u : BufferUnit) (c : Config) (n : Nat) :
    (u.consume c n).factor = u.factor := rfl

@[simp] theorem BufferUnit.consume_offset (u : BufferUnit) (c : Config) (n : Nat) :
    (u.consume c n).offset = BitVec.ofNat 32 (u.offset.toNat - n * 2 ^ c.fixedBits) := rfl

@[simp] theorem BufferUnit.consume_bufferSize (u : BufferUnit) (c : Config) (n : Nat) :
    (u.consume c n).bufferSize = u.bufferSize := rfl

@[simp] theorem BufferUnit.consume_readerAccum (u : BufferUnit) (c : Config) (n : Nat) :
    (u.consume c n).readerAccum = u.readerAccum := rfl

@[simp] theorem BufferUnit.consume_bassShift (u : BufferUnit) (c : Config) (n : Nat) :
    (u.consume c n).bassShift = u.bassShift := rfl

@[simp] theorem BufferUnit.consume_modified (u : BufferUnit) (c : Config) (n : Nat) :
    (u.consume c n).modified = u.modified := rfl

@[simp] theorem BufferUnit.consume_lastNonSilence (u : BufferUnit) (c : Config) (n : Nat) :
    (u.consume c n).lastNonSilence = BitVec.ofNat 32 (u.lastNonSilence.toNat - n) := rfl

@[simp] theorem BufferUnit.consume_delta (u : BufferUnit) (c : Config) (n : Nat) :
    (u.consume c n).delta = Memory.shiftDown u.delta u.bufferSize.toNat n := rfl

@[simp] theorem BufferUnit.drain_clockRate (u : BufferUnit) (c : Config) (n : Nat) :
    (u.drain c n).clockRate = u.clockRate := rfl

@[simp] theorem BufferUnit.drain_sampleRate (u : BufferUnit) (c : Config) (n : Nat) :
    (u.drain c n).sampleRate = u.sampleRate := rfl

@[simp] theorem BufferUnit.drain_lengthMs (u : BufferUnit) (c : Config) (n : Nat) :
    (u.drain c n).lengthMs = u.lengthMs := rfl

@[simp] theorem BufferUnit.drain_lengthSet (u : BufferUnit) (c : Config) (n : Nat) :
    (u.drain c n).lengthSet = u.lengthSet := rfl

@[simp] theorem BufferUnit.drain_bassFreq (u : BufferUnit) (c : Config) (n : Nat) :
    (u.drain c n).bassFreq = u.bassFreq := rfl

@[simp] theorem BufferUnit.drain_factor (u : BufferUnit) (c : Config) (n : Nat) :
    (u.drain c n).factor = u.factor := rfl

@[simp] theorem BufferUnit.drain_offset (u : BufferUnit) (c : Config) (n : Nat) :
    (u.drain c n).offset = BitVec.ofNat 32 (u.offset.toNat - n * 2 ^ c.fixedBits) := rfl

@[simp] theorem BufferUnit.drain_bufferSize (u : BufferUnit) (c : Config) (n : Nat) :
    (u.drain c n).bufferSize = u.bufferSize := rfl

@[simp] theorem BufferUnit.drain_readerAccum (u : BufferUnit) (c : Config) (n : Nat) :
    (u.drain c n).readerAccum = (u.accums n).getLastD u.readerAccum := rfl

@[simp] theorem BufferUnit.drain_bassShift (u : BufferUnit) (c : Config) (n : Nat) :
    (u.drain c n).bassShift = u.bassShift := rfl

@[simp] theorem BufferUnit.drain_modified (u : BufferUnit) (c : Config) (n : Nat) :
    (u.drain c n).modified = u.modified := rfl

@[simp] theorem BufferUnit.drain_lastNonSilence (u : BufferUnit) (c : Config) (n : Nat) :
    (u.drain c n).lastNonSilence = BitVec.ofNat 32 (u.lastNonSilence.toNat - n) := rfl

@[simp] theorem BufferUnit.drain_delta (u : BufferUnit) (c : Config) (n : Nat) :
    (u.drain c n).delta = Memory.shiftDown u.delta u.bufferSize.toNat n := rfl

@[simp] theorem BufferUnit.reconfigure_clockRate (u : BufferUnit) (c : Config) :
    (u.reconfigure c).clockRate = u.clockRate := rfl

@[simp] theorem BufferUnit.reconfigure_sampleRate (u : BufferUnit) (c : Config) :
    (u.reconfigure c).sampleRate = u.sampleRate := rfl

@[simp] theorem BufferUnit.reconfigure_lengthMs (u : BufferUnit) (c : Config) :
    (u.reconfigure c).lengthMs = u.lengthMs := rfl

@[simp] theorem BufferUnit.reconfigure_lengthSet (u : BufferUnit) (c : Config) :
    (u.reconfigure c).lengthSet = u.lengthSet := rfl

@[simp] theorem BufferUnit.reconfigure_bassFreq (u : BufferUnit) (c : Config) :
    (u.reconfigure c).bassFreq = u.bassFreq := rfl

@[simp] theorem BufferUnit.reconfigure_offset (u : BufferUnit) (c : Config) :
    (u.reconfigure c).offset = 0 := rfl

@[simp] theorem BufferUnit.reconfigure_readerAccum (u : BufferUnit) (c : Config) :
    (u.reconfigure c).readerAccum = 0 := rfl

@[simp] theorem BufferUnit.reconfigure_modified (u : BufferUnit) (c : Config) :
    (u.reconfigure c).modified = false := rfl

@[simp] theorem BufferUnit.reconfigure_lastNonSilence (u : BufferUnit) (c : Config) :
    (u.reconfigure c).lastNonSilence = 0 := rfl

@[simp] theorem BufferUnit.reconfigure_delta (u : BufferUnit) (c : Config) :
    (u.reconfigure c).delta = [] := rfl

@[simp] theorem BufferUnit.setBass_clockRate (u : BufferUnit) (x : Word) :
    (u.setBass x).clockRate = u.clockRate := rfl

@[simp] theorem BufferUnit.setBass_sampleRate (u : BufferUnit) (x : Word) :
    (u.setBass x).sampleRate = u.sampleRate := rfl

@[simp] theorem BufferUnit.setBass_lengthMs (u : BufferUnit) (x : Word) :
    (u.setBass x).lengthMs = u.lengthMs := rfl

@[simp] theorem BufferUnit.setBass_lengthSet (u : BufferUnit) (x : Word) :
    (u.setBass x).lengthSet = u.lengthSet := rfl

@[simp] theorem BufferUnit.setBass_bassFreq (u : BufferUnit) (x : Word) :
    (u.setBass x).bassFreq = x := rfl

@[simp] theorem BufferUnit.setBass_factor (u : BufferUnit) (x : Word) :
    (u.setBass x).factor = u.factor := rfl

@[simp] theorem BufferUnit.setBass_offset (u : BufferUnit) (x : Word) :
    (u.setBass x).offset = u.offset := rfl

@[simp] theorem BufferUnit.setBass_bufferSize (u : BufferUnit) (x : Word) :
    (u.setBass x).bufferSize = u.bufferSize := rfl

@[simp] theorem BufferUnit.setBass_readerAccum (u : BufferUnit) (x : Word) :
    (u.setBass x).readerAccum = u.readerAccum := rfl

@[simp] theorem BufferUnit.setBass_modified (u : BufferUnit) (x : Word) :
    (u.setBass x).modified = u.modified := rfl

@[simp] theorem BufferUnit.setBass_lastNonSilence (u : BufferUnit) (x : Word) :
    (u.setBass x).lastNonSilence = u.lastNonSilence := rfl

@[simp] theorem BufferUnit.setBass_delta (u : BufferUnit) (x : Word) :
    (u.setBass x).delta = u.delta := rfl

@[simp] theorem BufferUnit.endFrame_clockRate (u : BufferUnit) (c : Config) (x : Word) :
    (u.endFrame c x).clockRate = u.clockRate := by
  unfold BufferUnit.endFrame; split <;> rfl

@[simp] theorem BufferUnit.endFrame_sampleRate (u : BufferUnit) (c : Config) (x : Word) :
    (u.endFrame c x).sampleRate = u.sampleRate := by
  unfold BufferUnit.endFrame; split <;> rfl

@[simp] theorem BufferUnit.endFrame_lengthMs (u : BufferUnit) (c : Config) (x : Word) :
    (u.endFrame c x).lengthMs = u.lengthMs := by
  unfold BufferUnit.endFrame; split <;> rfl

@[simp] theorem BufferUnit.endFrame_lengthSet (u : BufferUnit) (c : Config) (x : Word) :
    (u.endFrame c x).lengthSet = u.lengthSet := by
  unfold BufferUnit.endFrame; split <;> rfl

@[simp] theorem BufferUnit.endFrame_bassFreq (u : BufferUnit) (c : Config) (x : Word) :
    (u.endFrame c x).bassFreq = u.bassFreq := by
  unfold BufferUnit.endFrame; split <;> rfl

@[simp] theorem BufferUnit.endFrame_factor (u : BufferUnit) (c : Config) (x : Word) :
    (u.endFrame c x).factor = u.factor := by
  unfold BufferUnit.endFrame; split <;> rfl

@[simp] theorem BufferUnit.endFrame_bufferSize (u : BufferUnit) (c : Config) (x : Word) :
    (u.endFrame c x).bufferSize = u.bufferSize := by
  unfold BufferUnit.endFrame; split <;> rfl

@[simp] theorem BufferUnit.endFrame_readerAccum (u : BufferUnit) (c : Config) (x : Word) :
    (u.endFrame c x).readerAccum = u.readerAccum := by
  unfold BufferUnit.endFrame; split <;> rfl

@[simp] theorem BufferUnit.endFrame_bassShift (u : BufferUnit) (c : Config) (x : Word) :
    (u.endFrame c x).bassShift = u.bassShift := by
  unfold BufferUnit.endFrame; split <;> rfl

@[simp] theorem BufferUnit.endFrame_delta (u : BufferUnit) (c : Config) (x : Word) :
    (u.endFrame c x).delta = u.delta := by
  unfold BufferUnit.endFrame; split <;> rfl

@[simp] theorem BufferUnit.endFrame_offset (u : BufferUnit) (c : Config) (x : Word) :
    (u.endFrame c x).offset = BitVec.ofNat 32 (u.toFixed x.toNat) := by
  unfold BufferUnit.endFrame; split <;> rfl

@[simp] theorem BufferUnit.endFrame_modified (u : BufferUnit) (c : Config) (x : Word) :
    (u.endFrame c x).modified = false := by
  unfold BufferUnit.endFrame; split
  · rfl
  · next h => simpa using h

@[simp] theorem BufferUnit.endFrame_lastNonSilence (u : BufferUnit) (c : Config) (x : Word) :
    (u.endFrame c x).lastNonSilence = (if u.modified then
      BitVec.ofNat 32 (slotOf c (u.toFixed x.toNat) + c.extra) else u.lastNonSilence) := by
  unfold BufferUnit.endFrame; split <;> rfl

/-! ### A set of units -/

/-- What a fold over a set of units that does not repeat leaves in each unit. -/
theorem State.buf_updateBufs {bs : List BufUnit} (h : bs.Nodup) (f : BufferUnit → BufferUnit)
    (s : State) (b : BufUnit) :
    (s.updateBufs bs f).buf b = if b ∈ bs then f (s.buf b) else s.buf b := by
  unfold State.updateBufs
  induction bs generalizing s with
  | nil => simp
  | cons a bs ih =>
    rw [List.nodup_cons] at h
    rw [List.foldl_cons, ih h.2, State.buf_setBuf]
    by_cases hb : b ∈ bs
    · have : b ≠ a := fun e => h.1 (e ▸ hb)
      simp [hb, this]
    · by_cases e : b = a <;> simp [hb, e, h.1]

theorem activeSet_nodup (c : Config) : (activeSet c).Nodup := by
  unfold activeSet; split <;> decide

@[simp] theorem State.updateBufs_cfg (s : State) (bs : List BufUnit) (f : BufferUnit → BufferUnit) :
    (s.updateBufs bs f).cfg = s.cfg := by
  unfold State.updateBufs
  induction bs generalizing s with
  | nil => rfl
  | cons a bs ih => simp [ih]

@[simp] theorem State.updateBufs_synths (s : State) (bs : List BufUnit) (f : BufferUnit → BufferUnit) :
    (s.updateBufs bs f).synths = s.synths := by
  unfold State.updateBufs
  induction bs generalizing s with
  | nil => rfl
  | cons a bs ih => simp [ih]

@[simp] theorem State.updateBufs_samplesRead (s : State) (bs : List BufUnit) (f : BufferUnit → BufferUnit) :
    (s.updateBufs bs f).samplesRead = s.samplesRead := by
  unfold State.updateBufs
  induction bs generalizing s with
  | nil => rfl
  | cons a bs ih => simp [ih]

@[simp] theorem State.updateBufs_channelCount (s : State) (bs : List BufUnit) (f : BufferUnit → BufferUnit) :
    (s.updateBufs bs f).channelCount = s.channelCount := by
  unfold State.updateBufs
  induction bs generalizing s with
  | nil => rfl
  | cons a bs ih => simp [ih]

@[simp] theorem State.updateBufs_channelTypes (s : State) (bs : List BufUnit) (f : BufferUnit → BufferUnit) :
    (s.updateBufs bs f).channelTypes = s.channelTypes := by
  unfold State.updateBufs
  induction bs generalizing s with
  | nil => rfl
  | cons a bs ih => simp [ih]

@[simp] theorem State.updateBufs_mbSampleRate (s : State) (bs : List BufUnit) (f : BufferUnit → BufferUnit) :
    (s.updateBufs bs f).mbSampleRate = s.mbSampleRate := by
  unfold State.updateBufs
  induction bs generalizing s with
  | nil => rfl
  | cons a bs ih => simp [ih]

@[simp] theorem State.updateBufs_mbLengthMs (s : State) (bs : List BufUnit) (f : BufferUnit → BufferUnit) :
    (s.updateBufs bs f).mbLengthMs = s.mbLengthMs := by
  unfold State.updateBufs
  induction bs generalizing s with
  | nil => rfl
  | cons a bs ih => simp [ih]

@[simp] theorem State.updateBufs_changedCount (s : State) (bs : List BufUnit) (f : BufferUnit → BufferUnit) :
    (s.updateBufs bs f).changedCount = s.changedCount := by
  unfold State.updateBufs
  induction bs generalizing s with
  | nil => rfl
  | cons a bs ih => simp [ih]

@[simp] theorem State.updateBufs_sysFault (s : State) (bs : List BufUnit) (f : BufferUnit → BufferUnit) :
    (s.updateBufs bs f).sysFault = s.sysFault := by
  unfold State.updateBufs
  induction bs generalizing s with
  | nil => rfl
  | cons a bs ih => simp [ih]

@[simp] theorem State.updateBufs_out (s : State) (bs : List BufUnit) (f : BufferUnit → BufferUnit) :
    (s.updateBufs bs f).out = s.out := by
  unfold State.updateBufs
  induction bs generalizing s with
  | nil => rfl
  | cons a bs ih => simp [ih]

@[simp] theorem State.updateBufs_response (s : State) (bs : List BufUnit) (f : BufferUnit → BufferUnit) :
    (s.updateBufs bs f).response = s.response := by
  unfold State.updateBufs
  induction bs generalizing s with
  | nil => rfl
  | cons a bs ih => simp [ih]

@[simp] theorem State.updateBufs_pending (s : State) (bs : List BufUnit) (f : BufferUnit → BufferUnit) :
    (s.updateBufs bs f).pending = s.pending := by
  unfold State.updateBufs
  induction bs generalizing s with
  | nil => rfl
  | cons a bs ih => simp [ih]

end Sys2Proof.Machine
end

