-- ==== Sys2Proof/Laws/Units.lean ====
section
/-! SUPPORT. What the invariant of a buffer unit gives, and that each procedure of a unit keeps it
(10_state.md R26). -/

namespace Sys2Proof.Machine

variable {c : Config} {u : BufferUnit}

/-! ### What the invariant gives -/

theorem BufferUnit.Inv.avail_le (h : u.Inv c) : u.samplesAvail c ≤ u.nominal c := h.1
theorem BufferUnit.Inv.offset_zero (h : u.Inv c) (h0 : u.bufferSize = 0) : u.offset = 0 := h.2.1 h0
theorem BufferUnit.Inv.counter_le (h : u.Inv c) :
    u.lastNonSilence.toNat ≤ u.bufferSize.toNat := h.2.2.1
theorem BufferUnit.Inv.wf (h : u.Inv c) : Memory.wf u.delta := h.2.2.2.1
theorem BufferUnit.Inv.below (h : u.Inv c) : ∀ p ∈ u.delta, p.1 < u.bufferSize.toNat :=
  h.2.2.2.2.1
theorem BufferUnit.Inv.size_fits (h : u.Inv c) (hl : u.lengthSet = true) :
    sizeFor c u.sampleRate.toNat u.lengthMs.toNat ≤ c.bufCapacity := h.2.2.2.2.2.1 hl
theorem BufferUnit.Inv.ratio_fits (h : u.Inv c) (h1 : 0 < u.clockRate.toNat)
    (h2 : 0 < u.sampleRate.toNat) :
    representable (ratio c u.clockRate.toNat u.sampleRate.toNat) = true :=
  h.2.2.2.2.2.2.2.1 h1 h2

/-- `buffer_size` is SZ of the configuration, exactly, once a length is set. -/
theorem BufferUnit.Inv.size_eq (hc : c.valid = true) (h : u.Inv c) :
    u.bufferSize.toNat =
      if u.lengthSet then sizeFor c u.sampleRate.toNat u.lengthMs.toNat else 0 := by
  have h1 := h.2.2.2.2.2.2.1
  rw [h1]
  split
  · next hl =>
    rw [BitVec.toNat_ofNat]
    have := h.size_fits hl
    have := Config.capacity_lt hc
    exact Nat.mod_eq_of_lt (by omega)
  · rfl

theorem BufferUnit.Inv.size_le (hc : c.valid = true) (h : u.Inv c) :
    u.bufferSize.toNat ≤ c.bufCapacity := by
  rw [h.size_eq hc]
  split
  · next hl => exact h.size_fits hl
  · exact Nat.zero_le _

theorem BufferUnit.Inv.extra_le (hc : c.valid = true) (h : u.Inv c) (h0 : u.bufferSize ≠ 0) :
    c.extra ≤ u.bufferSize.toNat := by
  rw [h.size_eq hc]
  split
  · exact extra_le_sizeFor _ _ _
  · next hl =>
    exfalso
    apply h0
    have h1 := h.2.2.2.2.2.2.1
    rw [h1, if_neg hl]

/-- The unread slots are among those in use. -/
theorem BufferUnit.Inv.avail_le_size (h : u.Inv c) : u.samplesAvail c ≤ u.bufferSize.toNat := by
  have := h.avail_le
  unfold BufferUnit.nominal at this
  omega

theorem BufferUnit.configured_iff : u.configured = true ↔ u.factor ≠ 0 ∧ u.bufferSize ≠ 0 := by
  simp [BufferUnit.configured]

/-- The invariant gives every clause of 10_state.md R26. -/
theorem BufferUnit.Inv.meetsR26 (hc : c.valid = true) (h : u.Inv c) : u.meetsR26 c := by
  refine ⟨fun _ => h.avail_le, h.offset_zero, ?_, h.counter_le, fun i hi => ?_, fun hf => ?_⟩
  · by_cases h0 : u.bufferSize = 0
    · exact .inl h0
    · exact .inr ⟨h.extra_le hc h0, h.size_le hc⟩
  · exact Memory.read_eq_zero_of_forall fun p hp => ((h.below p hp).trans_le hi).ne
  · by_contra hn
    apply hf
    have h1 := h.2.2.2.2.2.2.2.2
    rw [h1, if_neg hn]

/-! ### Each procedure keeps the invariant -/

theorem BufferUnit.reset_inv (c : Config) : BufferUnit.reset.Inv c := by
  refine ⟨?_, fun _ => rfl, by simp [BufferUnit.reset], ⟨by simp [BufferUnit.reset],
    by simp [BufferUnit.reset]⟩, by simp [BufferUnit.reset], by simp [BufferUnit.reset], rfl,
    by simp [BufferUnit.reset], by simp [BufferUnit.reset]⟩
  simp [BufferUnit.reset, BufferUnit.samplesAvail, slotOf]

theorem BufferUnit.clear_inv (h : u.Inv c) : u.clear.Inv c := by
  refine ⟨by simp [BufferUnit.samplesAvail, slotOf], fun _ => rfl, by simp, ⟨by simp, by simp⟩,
    by simp, h.2.2.2.2.2.1, h.2.2.2.2.2.2.1, h.2.2.2.2.2.2.2.1, h.2.2.2.2.2.2.2.2⟩

theorem BufferUnit.reconfigure_inv
    (h1 : u.lengthSet = true → sizeFor c u.sampleRate.toNat u.lengthMs.toNat ≤ c.bufCapacity)
    (h2 : 0 < u.clockRate.toNat → 0 < u.sampleRate.toNat →
      representable (ratio c u.clockRate.toNat u.sampleRate.toNat) = true) :
    (u.reconfigure c).Inv c := by
  refine ⟨by simp [BufferUnit.samplesAvail, slotOf], fun _ => rfl, by simp, ⟨by simp, by simp⟩,
    by simp, by simpa using h1, rfl, by simpa using h2, rfl⟩

theorem BufferUnit.setBass_inv (h : u.Inv c) (x : Word) : (u.setBass x).Inv c := h

theorem BufferUnit.deposit_inv (h : u.Inv c) {i : Nat} (hi : i < u.bufferSize.toNat) (d : Word) :
    (u.deposit i d).Inv c := by
  refine ⟨h.1, h.2.1, h.2.2.1, Memory.wf_add h.wf i d, fun p hp => ?_, h.2.2.2.2.2⟩
  rcases Memory.mem_add hp with e | hp
  · rw [e]; exact hi
  · exact h.below p hp

theorem BufferUnit.depositTaps_inv (h : u.Inv c) {i : Nat} {row : List Word}
    (hi : i + row.length ≤ u.bufferSize.toNat) (v : Word) : (u.depositTaps i v row).Inv c := by
  refine ⟨h.1, h.2.1, h.2.2.1, Memory.wf_addTaps h.wf i v row, fun p hp => ?_, h.2.2.2.2.2⟩
  rcases Memory.mem_addTaps hp with e | hp
  · exact e.2.trans_le hi
  · exact h.below p hp

/-- A position whose slot is at most BUF_CAPACITY fits the 32 bits of `offset`. -/
theorem position_fits (hc : c.valid = true) {n : Nat} (h : slotOf c n ≤ c.bufCapacity) :
    n < 2 ^ 32 := by
  have h1 := Config.capacity_scaled hc
  have h2 : n < (slotOf c n + 1) * 2 ^ c.fixedBits := by
    have := Nat.lt_div_mul_add (a := n) (Nat.two_pow_pos c.fixedBits)
    unfold slotOf
    linarith
  have h3 : (slotOf c n + 1) * 2 ^ c.fixedBits ≤ (c.bufCapacity + 1) * 2 ^ c.fixedBits :=
    Nat.mul_le_mul_right _ (by omega)
  omega

/-- What passing the tests of END_FRAME says. -/
theorem BufferUnit.frameTest_none {x : Word} (h : u.frameTest c x = none) :
    u.configured = true ∧ slotOf c (u.toFixed x.toNat) ≤ u.nominal c := by
  unfold BufferUnit.frameTest at h
  split at h
  · cases h
  · next h1 =>
    split at h
    · cases h
    · next h2 => exact ⟨by simpa using h1, by omega⟩

theorem BufferUnit.endFrame_inv (hc : c.valid = true) (h : u.Inv c) {x : Word}
    (ht : u.frameTest c x = none) : (u.endFrame c x).Inv c := by
  obtain ⟨h1, h2⟩ := BufferUnit.frameTest_none ht
  have h0 := (BufferUnit.configured_iff.1 h1).2
  have he := h.extra_le hc h0
  have hs := h.size_le hc
  have hn : slotOf c (u.toFixed x.toNat) + c.extra ≤ u.bufferSize.toNat := by
    unfold BufferUnit.nominal at h2
    omega
  have hcap := Config.capacity_lt hc
  have hfit : u.toFixed x.toNat < 2 ^ 32 := position_fits hc (by omega)
  have hoff : (BitVec.ofNat 32 (u.toFixed x.toNat)).toNat = u.toFixed x.toNat := by
    rw [BitVec.toNat_ofNat]; exact Nat.mod_eq_of_lt hfit
  refine ⟨?_, ?_, ?_, by simpa using h.wf, by simpa using h.below, by simpa using h.size_fits,
    by simpa using h.2.2.2.2.2.2.1, by simpa using h.2.2.2.2.2.2.2.1,
    by simpa using h.2.2.2.2.2.2.2.2⟩
  · simpa [BufferUnit.samplesAvail, BufferUnit.nominal, hoff] using h2
  · simpa using fun e => absurd e h0
  · simp only [BufferUnit.endFrame_lastNonSilence, BufferUnit.endFrame_bufferSize]
    split
    · rw [BitVec.toNat_ofNat, Nat.mod_eq_of_lt (by omega)]
      exact hn
    · exact h.counter_le

/-- The registers a consume of n available slots leaves, exactly (42_buffer_read.md R141). -/
theorem BufferUnit.consume_registers {n : Nat} (hn : n ≤ u.samplesAvail c) :
    (BitVec.ofNat 32 (u.offset.toNat - n * 2 ^ c.fixedBits)).toNat + n * 2 ^ c.fixedBits =
        u.offset.toNat ∧
    (BitVec.ofNat 32 (u.lastNonSilence.toNat - n)).toNat = u.lastNonSilence.toNat - n := by
  have h1 : n * 2 ^ c.fixedBits ≤ u.offset.toNat := by
    have := Nat.mul_le_mul_right (2 ^ c.fixedBits) hn
    unfold BufferUnit.samplesAvail slotOf at this
    exact this.trans (Nat.div_mul_le_self _ _)
  have h2 := u.offset.isLt
  have h3 := u.lastNonSilence.isLt
  refine ⟨?_, ?_⟩
  · rw [BitVec.toNat_ofNat, Nat.mod_eq_of_lt (by omega)]
    omega
  · rw [BitVec.toNat_ofNat, Nat.mod_eq_of_lt (by omega)]

/-- `samples_avail` falls by n (R141). -/
theorem BufferUnit.consume_avail {n : Nat} (hn : n ≤ u.samplesAvail c) :
    slotOf c (BitVec.ofNat 32 (u.offset.toNat - n * 2 ^ c.fixedBits)).toNat =
      u.samplesAvail c - n := by
  have h := (BufferUnit.consume_registers hn).1
  have hp := Nat.two_pow_pos c.fixedBits
  have hd := Nat.add_mul_div_right
    (BitVec.ofNat 32 (u.offset.toNat - n * 2 ^ c.fixedBits)).toNat n hp
  rw [h] at hd
  unfold BufferUnit.samplesAvail slotOf
  rw [hd, Nat.add_sub_cancel]

theorem BufferUnit.consume_inv (h : u.Inv c) {n : Nat} (hn : n ≤ u.samplesAvail c) :
    (u.consume c n).Inv c := by
  have hr := BufferUnit.consume_registers hn
  have ha := BufferUnit.consume_avail hn
  refine ⟨?_, ?_, ?_, Memory.wf_shiftDown h.wf _ _, fun p hp => ?_, h.2.2.2.2.2⟩
  · have := h.avail_le
    simp only [BufferUnit.samplesAvail, BufferUnit.nominal, BufferUnit.consume_offset,
      BufferUnit.consume_bufferSize, ha] at this ⊢
    omega
  · intro h0
    have h1 := h.offset_zero h0
    simp [h1]
  · simp only [BufferUnit.consume_lastNonSilence, BufferUnit.consume_bufferSize, hr.2]
    have := h.counter_le
    omega
  · rcases Memory.mem_shiftDown hp with ⟨q, hq, h1, -, rfl⟩ | ⟨hp, -⟩
    · exact (Nat.sub_le _ _).trans_lt h1
    · exact h.below p hp

theorem BufferUnit.drain_inv (h : u.Inv c) {n : Nat} (hn : n ≤ u.samplesAvail c) :
    (u.drain c n).Inv c :=
  BufferUnit.consume_inv (u := { u with readerAccum := (u.accums n).getLastD u.readerAccum }) h hn

/-- A drain of available slots touches only slots that exist. -/
theorem BufferUnit.drainSpan_le (hc : c.valid = true) (h : u.Inv c) {n : Nat}
    (hn : n ≤ u.samplesAvail c) : u.drainSpan n ≤ c.bufCapacity := by
  have := h.size_le hc
  have := h.avail_le_size
  unfold BufferUnit.drainSpan
  omega

end Sys2Proof.Machine
end

