-- ==== Sys2Proof/Laws/Ops.lean ====
section
/-! SUPPORT. One law per shared operation of Machine/Ops.lean and Machine/Kernel.lean: what it answers and
when, so that no later proof unfolds one. -/

namespace Sys2Proof.Machine

/-! ### Guards and responses -/

theorem State.unlessFaulted_of_zero {s : State} (h : s.sysFault = 0) (k : Result) :
    s.unlessFaulted k = k := by
  simp [State.unlessFaulted, h]

theorem State.unlessFaulted_of_ne {s : State} (h : s.sysFault ≠ 0) (k : Result) :
    s.unlessFaulted k = .next (s.respond .errFaulted (s.sysFault.setWidth 64) 0) :=
  if_pos h

/-- What passing the sticky fault check gives. -/
theorem State.unlessFaulted_next {s t : State} {k : Result} (h : s.unlessFaulted k = .next t) :
    endsRefused s t ∨ s.sysFault = 0 ∧ k = .next t := by
  by_cases h0 : s.sysFault = 0
  · rw [State.unlessFaulted_of_zero h0] at h
    exact .inr ⟨h0, h⟩
  · rw [State.unlessFaulted_of_ne h0] at h
    cases h
    exact .inl ⟨h0, rfl⟩

theorem State.needSlots_of_le {s : State} {hi : Nat} (h : hi ≤ s.cfg.bufCapacity) (k : Result) :
    s.needSlots hi k = k := by
  simp [State.needSlots, h]

theorem State.needSlots_next {s t : State} {hi : Nat} {k : Result}
    (h : s.needSlots hi k = .next t) : k = .next t := by
  unfold State.needSlots at h
  split at h
  · exact h
  · cases h

theorem State.answer_next {s t : State} {v : BitVec 64} {n : Nat} (h : s.answer v n = .next t) :
    t = s.respond .ok v (BitVec.ofNat 32 n) := by
  cases h; rfl

theorem State.done_next {s t : State} (h : s.done = .next t) : t = s.respond .ok 0 0 := by
  cases h; rfl

theorem State.fail_next {s t : State} {status : Status} (h : s.fail status = .next t) :
    t = s.respond status 0 0 := by
  cases h; rfl

theorem State.raiseFault_next {s t : State} {code : FaultCode} (h : s.raiseFault code = .next t) :
    t = State.respond { s with sysFault := code.code } .fault (code.code.setWidth 64) 0 := by
  cases h; rfl

theorem endsInError_of_fail {s t : State} {status : Status} (h : s.fail status = .next t)
    (hs : status = .errInvalid ∨ status = .errNomem ∨ status = .errIllegal) : endsInError s t :=
  ⟨status, hs, State.fail_next h⟩

theorem endsInFault_of_raiseFault {s t : State} {code : FaultCode} (h0 : s.sysFault = 0)
    (h : s.raiseFault code = .next t) : endsInFault s t :=
  ⟨code, h0, State.raiseFault_next h⟩

/-- No violation records the code 0 (60_exceptions.md R254). -/
theorem FaultCode.code_ne_zero (code : FaultCode) : code.code ≠ 0 := by cases code <;> decide

theorem FaultCode.code_le (code : FaultCode) : code.code.toNat ≤ 6 := by cases code <;> decide

/-! ### Selecting a synthesizer unit -/

theorem State.withSynth_of {s : State} {u : SynthSel} {kind : SynthKind} {r : SynthUnit}
    (hk : s.cfg.synths[u.toNat]? = some kind) (hr : s.synths[u.toNat]? = some r)
    (k : SynthKind → SynthUnit → Result) : s.withSynth u k = k kind r := by
  simp [State.withSynth, hk, hr]

theorem State.withSynth_next {s t : State} {u : SynthSel} {k : SynthKind → SynthUnit → Result}
    (h : s.withSynth u k = .next t) :
    ∃ kind r, s.cfg.synths[u.toNat]? = some kind ∧ s.synths[u.toNat]? = some r ∧
      k kind r = .next t := by
  unfold State.withSynth at h
  split at h
  · next kind r hk hr => exact ⟨kind, r, hk, hr, h⟩
  · cases h

/-! ### Accumulators -/

theorem accumsFrom_length (shift : Nat) (m : Memory) (a : Word) (i n : Nat) :
    (accumsFrom shift m a i n).length = n := by
  induction n generalizing a i with
  | zero => rfl
  | succ n ih => simp [accumsFrom, ih]

@[simp] theorem BufferUnit.accums_length (u : BufferUnit) (n : Nat) : (u.accums n).length = n :=
  accumsFrom_length _ _ _ _ _

theorem accumsFrom_eq (u : BufferUnit) (i n : Nat) :
    accumsFrom u.bassShift.toNat u.delta (u.accumAt i) i n =
      (List.range n).map fun k => u.accumAt (i + k + 1) := by
  induction n generalizing i with
  | zero => rfl
  | succ n ih =>
    rw [List.range_succ_eq_map, List.map_cons, List.map_map, accumsFrom]
    have hs : integrate u.bassShift.toNat (u.accumAt i) (Memory.read u.delta i) =
        u.accumAt (i + 1) := rfl
    rw [hs, ih]
    refine congrArg₂ _ rfl (List.map_congr_left fun k _ => ?_)
    simp only [Function.comp_apply, Nat.succ_eq_add_one]
    congr 1
    omega

/-- The accumulators a run of n steps passes through: those after steps 1 to n (42_buffer_read.md
R140). -/
theorem BufferUnit.accums_eq (u : BufferUnit) (n : Nat) :
    u.accums n = (List.range n).map fun k => u.accumAt (k + 1) := by
  have := accumsFrom_eq u 0 n
  simpa [BufferUnit.accums, BufferUnit.accumAt] using this

/-- The accumulator a run of n steps ends with. -/
theorem BufferUnit.accums_getLastD (u : BufferUnit) (n : Nat) :
    (u.accums n).getLastD u.readerAccum = u.accumAt n := by
  rw [BufferUnit.accums_eq]
  cases n with
  | zero => rfl
  | succ n => simp [List.range_succ]

/-- A drain of n slots is n integrator steps and a consume (42_buffer_read.md R141). -/
theorem BufferUnit.drain_drained {c : Config} {u : BufferUnit} {n : Nat} (hw : Memory.wf u.delta)
    (hn : n ≤ u.samplesAvail c) : u.Drained c n (u.drain c n) := by
  have hr := BufferUnit.consume_registers hn
  refine ⟨?_, hr.1, hr.2, Memory.wf_shiftDown hw _ _, fun j => Memory.read_shiftDown hw _ _ j⟩
  simp only [BufferUnit.drain, BufferUnit.consume, BufferUnit.accums_getLastD]

/-- The description of a drain determines the unit. -/
theorem BufferUnit.Drained.unique {c : Config} {u v w : BufferUnit} {n : Nat}
    (hv : u.Drained c n v) (hw : u.Drained c n w) : v = w := by
  obtain ⟨v1, v2, v3, v4, v5⟩ := hv
  obtain ⟨w1, w2, w3, w4, w5⟩ := hw
  have h1 : v.offset = w.offset := BitVec.eq_of_toNat_eq (by omega)
  have h2 : v.lastNonSilence = w.lastNonSilence := BitVec.eq_of_toNat_eq (by omega)
  have h3 : v.delta = w.delta := Memory.ext_of_wf v4 w4 fun i => (v5 i).trans (w5 i).symm
  rw [v1, w1, h1, h2, h3]

/-- A drain of no slot changes nothing (42_buffer_read.md R141: "With n = 0 nothing changes"). -/
theorem BufferUnit.drain_zero (c : Config) (u : BufferUnit) : u.drain c 0 = u := by
  simp [BufferUnit.drain, BufferUnit.consume, BufferUnit.accums, accumsFrom, Memory.shiftDown_zero]

/-! ### Reading and removing -/

/-- What READ_SAMPLES answers on a configured unit whose slots exist. -/
theorem State.readUnit_of {s : State} {b : BufUnit} {maxCount : Nat}
    (hc : (s.buf b).configured = true) (hs : (s.buf b).bufferSize.toNat ≤ s.cfg.bufCapacity)
    (ha : (s.buf b).samplesAvail s.cfg ≤ s.cfg.bufCapacity) :
    s.readUnit b maxCount =
      let n := min maxCount ((s.buf b).samplesAvail s.cfg)
      .next (((s.setBuf b ((s.buf b).drain s.cfg n)).emit
        (((s.buf b).accums n).map fun a => sampleOf a.toInt)).respond .ok
          (BitVec.ofNat 64 n) (BitVec.ofNat 32 n)) := by
  have hle : BufferUnit.drainSpan (min maxCount ((s.buf b).samplesAvail s.cfg)) (s.buf b) ≤
      s.cfg.bufCapacity := by
    unfold BufferUnit.drainSpan
    omega
  simp only [State.readUnit, hc, Bool.not_true, Bool.false_eq_true, if_false]
  rw [State.needSlots_of_le hle]
  rfl

theorem State.readUnit_next {s t : State} {b : BufUnit} {maxCount : Nat}
    (h : s.readUnit b maxCount = .next t) (h0 : s.sysFault = 0) :
    endsInFault s t ∨ ∃ n, n = min maxCount ((s.buf b).samplesAvail s.cfg) ∧
      t = ((s.setBuf b ((s.buf b).drain s.cfg n)).emit
        (((s.buf b).accums n).map fun a => sampleOf a.toInt)).respond .ok
          (BitVec.ofNat 64 n) (BitVec.ofNat 32 n) := by
  unfold State.readUnit at h
  dsimp only at h
  split at h
  · exact .inl (endsInFault_of_raiseFault h0 h)
  · exact .inr ⟨_, rfl, State.answer_next (State.needSlots_next h)⟩

theorem State.removeUnit_of {s : State} {b : BufUnit} {n : Nat} {v : BitVec 64}
    (h : (s.buf b).drainSpan n ≤ s.cfg.bufCapacity) :
    s.removeUnit b n v = .next ((s.setBuf b ((s.buf b).drain s.cfg n)).respond .ok v 0) := by
  unfold State.removeUnit
  rw [State.needSlots_of_le h]
  rfl

theorem State.removeUnit_next {s t : State} {b : BufUnit} {n : Nat} {v : BitVec 64}
    (h : s.removeUnit b n v = .next t) :
    t = (s.setBuf b ((s.buf b).drain s.cfg n)).respond .ok v 0 :=
  State.answer_next (State.needSlots_next h)

theorem BufferUnit.removeTest_none {c : Config} {u : BufferUnit} {count : Word} :
    u.removeTest c count = none ↔ u.configured = true ∧ count.toNat ≤ u.samplesAvail c := by
  unfold BufferUnit.removeTest
  split
  · next h => simp_all
  · next h =>
    split
    · next h2 => simp_all
    · next h2 => simp_all

theorem BufferUnit.frameTest_eq_none {c : Config} {u : BufferUnit} {x : Word} :
    u.frameTest c x = none ↔
      u.configured = true ∧ slotOf c (u.toFixed x.toNat) ≤ u.nominal c := by
  refine ⟨BufferUnit.frameTest_none, fun ⟨h1, h2⟩ => ?_⟩
  unfold BufferUnit.frameTest
  rw [if_neg (by simp [h1]), if_neg (by omega)]

/-! ### The stereo mixer -/

/-- The samples of n stereo pairs: for each step, center + left and center + right, each sum exact
(44_tracked_mixer.md R194). -/
theorem mixStereo_map (l r m : Nat → Word) (ks : List Nat) :
    mixStereo (ks.map l) (ks.map r) (ks.map m) =
      ks.flatMap fun k => [sampleOf ((m k).toInt + (l k).toInt),
        sampleOf ((m k).toInt + (r k).toInt)] := by
  induction ks with
  | nil => rfl
  | cons k ks ih => simp [mixStereo, ih]

theorem mixMono_map (m : Nat → Word) (ks : List Nat) :
    mixMono (ks.map m) = ks.flatMap fun k => [sampleOf (m k).toInt, sampleOf (m k).toInt] := by
  induction ks with
  | nil => rfl
  | cons k ks ih => simp [mixMono, ih]

theorem flatMap_pair_length {α β : Type} (f g : α → β) (ks : List α) :
    (ks.flatMap fun k => [f k, g k]).length = 2 * ks.length := by
  induction ks with
  | nil => rfl
  | cons k ks ih => simp; omega

@[simp] theorem State.mixOut_length (s : State) (n : Nat) : (s.mixOut n).length = 2 * n := by
  unfold State.mixOut
  simp only [BufferUnit.accums_eq]
  split
  · rw [mixStereo_map, flatMap_pair_length, List.length_range]
  · rw [mixMono_map, flatMap_pair_length, List.length_range]

theorem State.pairsAvail_le_left (s : State) : s.pairsAvail ≤ s.left.samplesAvail s.cfg := by
  unfold State.pairsAvail; omega

theorem State.pairsAvail_le_right (s : State) : s.pairsAvail ≤ s.right.samplesAvail s.cfg := by
  unfold State.pairsAvail; omega

theorem State.pairsAvail_le_center (s : State) : s.pairsAvail ≤ s.center.samplesAvail s.cfg := by
  unfold State.pairsAvail; omega

theorem State.readPairs_next {s t : State} {pairCount perPair : Nat}
    (h : s.readPairs pairCount perPair = .next t) (h0 : s.sysFault = 0) :
    endsInFault s t ∨ ∃ n, n = min pairCount s.pairsAvail ∧
      t = (State.emit { s with
          left := s.left.drain s.cfg n
          right := s.right.drain s.cfg n
          center := s.center.drain s.cfg n
          samplesRead := BitVec.ofNat 32 n } (s.mixOut n)).respond .ok
        (BitVec.ofNat 64 (perPair * n)) (BitVec.ofNat 32 (2 * n)) := by
  unfold State.readPairs at h
  split at h
  · exact .inl (endsInFault_of_raiseFault h0 h)
  · exact .inr ⟨_, rfl, State.answer_next (State.needSlots_next h)⟩

/-- What READ_PAIRS answers when the three units are configured and their slots exist. -/
theorem State.readPairs_of {s : State} {pairCount perPair : Nat}
    (h1 : s.left.configured = true) (h2 : s.right.configured = true)
    (h3 : s.center.configured = true)
    (hc : s.cfg.valid = true) (i1 : s.left.Inv s.cfg) (i2 : s.right.Inv s.cfg)
    (i3 : s.center.Inv s.cfg) :
    s.readPairs pairCount perPair =
      let n := min pairCount s.pairsAvail
      .next ((State.emit { s with
          left := s.left.drain s.cfg n
          right := s.right.drain s.cfg n
          center := s.center.drain s.cfg n
          samplesRead := BitVec.ofNat 32 n } (s.mixOut n)).respond .ok
        (BitVec.ofNat 64 (perPair * n)) (BitVec.ofNat 32 (2 * n))) := by
  have l1 := s.pairsAvail_le_left
  have l2 := s.pairsAvail_le_right
  have l3 := s.pairsAvail_le_center
  have d1 := BufferUnit.drainSpan_le hc i1 (n := min pairCount s.pairsAvail) (by omega)
  have d2 := BufferUnit.drainSpan_le hc i2 (n := min pairCount s.pairsAvail) (by omega)
  have d3 := BufferUnit.drainSpan_le hc i3 (n := min pairCount s.pairsAvail) (by omega)
  simp only [State.readPairs, h1, h2, h3, Bool.and_self, Bool.not_true, Bool.false_eq_true, if_false]
  rw [State.needSlots_of_le (by omega)]
  rfl

end Sys2Proof.Machine
end

