-- ==== Sys2Proof/Laws/Synth.lean ====
section
/-! SUPPORT. Laws of the synthesizer operations of Machine/Ops.lean (43_synth.md R167 to R173). -/

namespace Sys2Proof.Machine

variable {c : Config} {kind : SynthKind} {r : SynthUnit} {u v : BufferUnit} {ticks delta : Word}

/-- When the tests of SYN_OFFSET and SYN_UPDATE all pass (R170). -/
theorem synthTest_eq_none :
    synthTest c kind r ticks u = none ↔
      u.configured = true ∧ (kind = .fast ∨ r.kernelUnit ≠ 0) ∧
        slotOf c (u.toFixed ticks.toNat) < u.nominal c := by
  unfold synthTest
  by_cases h1 : u.configured = true
  · by_cases h2 : kind ≠ .fast ∧ r.kernelUnit = 0
    · simp [h1, h2.1, h2.2]
    · have h2' : kind = .fast ∨ r.kernelUnit ≠ 0 := by
        by_contra hn
        push Not at hn
        exact h2 hn
      rw [if_neg (by simp [h1]), if_neg h2]
      by_cases h3 : u.nominal c ≤ slotOf c (u.toFixed ticks.toNat)
      · simp [h3]
      · rw [if_neg h3]
        exact ⟨fun _ => ⟨h1, h2', by omega⟩, fun _ => rfl⟩
  · simp [h1]

/-- The capacity bound (R173): from a base slot below NOMINAL the highest tap stays two slots below
`buffer_size`. -/
theorem taps_fit {slot w size : Nat} (hw : w % 2 = 0) (hq : w ≤ c.maxq)
    (hslot : slot < size - c.extra) : slot + fwd c w + w + 2 ≤ size := by
  unfold fwd Config.extra at *
  omega

theorem depositTaps_deposited {i : Nat} {x : Word} {row : List Word} (hw : Memory.wf u.delta) :
    u.Deposited (u.depositTaps i x row) fun j =>
      if i ≤ j ∧ j < i + row.length then
        some (wrap32 ((row.getD (j - i) 0).toInt * x.toInt))
      else none := by
  refine ⟨rfl, Memory.wf_addTaps hw _ _ _, fun j => ?_⟩
  rw [BufferUnit.depositTaps_delta, Memory.read_addTaps hw]
  by_cases h1 : i ≤ j
  · by_cases h2 : j < i + row.length
    · have h3 : j - i < row.length := by omega
      simp [h1, h2, List.getElem?_eq_getElem h3]
    · have h3 : row[j - i]? = none := List.getElem?_eq_none (by omega)
      simp [h1, h2, h3]
  · simp [h1]

theorem deposit_deposited {i : Nat} {x : Word} (hw : Memory.wf u.delta) :
    u.Deposited (u.deposit i x) fun j => if j = i then some x else none := by
  refine ⟨rfl, Memory.wf_add hw _ _, fun j => ?_⟩
  rw [BufferUnit.deposit_delta, Memory.read_add hw]
  by_cases h : j = i
  · simp [h]
  · simp [h]

/-- What a synthesized deposit leaves, if it is made (R168, R169). -/
theorem synthDeposit_ok (h : synthDeposit c kind r ticks delta u = .ok v) :
    (kind = .fast ∧ slotOf c (u.toFixed ticks.toNat) < c.bufCapacity ∧
      v = u.deposit (slotOf c (u.toFixed ticks.toNat))
        (wrap32 (delta.toInt * r.deltaFactor.toInt))) ∨
    ∃ w row, kind = .full w ∧ r.taps[phaseOf c (u.toFixed ticks.toNat)]? = some row ∧
      row.length = w ∧ slotOf c (u.toFixed ticks.toNat) + fwd c w + w ≤ c.bufCapacity ∧
      v = u.depositTaps (slotOf c (u.toFixed ticks.toNat) + fwd c w)
        (wrap32 (delta.toInt * r.deltaFactor.toInt)) row := by
  unfold synthDeposit at h
  dsimp only at h
  split at h
  · split at h
    · next hs => exact .inl ⟨rfl, hs, by cases h; rfl⟩
    · cases h
  · next w =>
    split at h
    · cases h
    · next row hrow =>
      split at h
      · cases h
      · next hl =>
        split at h
        · cases h
        · next hs => exact .inr ⟨w, row, rfl, hrow, by omega, by omega, by cases h; rfl⟩

theorem synthDeposit_deposited (hw : Memory.wf u.delta)
    (h : synthDeposit c kind r ticks delta u = .ok v) :
    u.Deposited v (synthShare c kind r (u.toFixed ticks.toNat)
      (wrap32 (delta.toInt * r.deltaFactor.toInt))) := by
  rcases synthDeposit_ok h with ⟨rfl, -, rfl⟩ | ⟨w, row, rfl, hrow, hl, -, rfl⟩
  · exact deposit_deposited hw
  · have ht : ∀ k, r.tap (phaseOf c (u.toFixed ticks.toNat)) k = row.getD k 0 := by
      intro k
      unfold SynthUnit.tap
      simp only [List.getD_eq_getElem?_getD, hrow, Option.getD_some]
    have hd := depositTaps_deposited (u := u) (i := slotOf c (u.toFixed ticks.toNat) + fwd c w)
      (x := wrap32 (delta.toInt * r.deltaFactor.toInt)) (row := row) hw
    rw [hl] at hd
    refine ⟨hd.1, hd.2.1, fun j => ?_⟩
    rw [hd.2.2 j]
    simp only [synthShare, ht]

/-- A synthesized deposit that passes the tests is made, and keeps the invariant of its target. -/
theorem synthDeposit_total (hc : c.valid = true) (hm : kind ∈ c.synths) (hr : SynthUnit.Inv c kind r)
    (hu : u.Inv c) (ht : synthTest c kind r ticks u = none) :
    ∃ v, synthDeposit c kind r ticks delta u = .ok v ∧ v.Inv c := by
  obtain ⟨-, h2, h3⟩ := synthTest_eq_none.1 ht
  have hsz := hu.size_le hc
  have hslot : slotOf c (u.toFixed ticks.toNat) < u.bufferSize.toNat - c.extra := h3
  unfold synthDeposit
  dsimp only
  cases kind with
  | fast =>
    have hlt : slotOf c (u.toFixed ticks.toNat) < u.bufferSize.toNat := by omega
    exact ⟨_, if_pos (by omega), BufferUnit.deposit_inv hu hlt _⟩
  | full w =>
    obtain ⟨w1, -, w3⟩ := Config.widthOk_of_mem hc hm
    have hk : r.kernelUnit ≠ 0 := h2.resolve_left (by simp)
    obtain ⟨hshape, -⟩ := (show r.kernelUnit = 0 ∨ _ from hr).resolve_left hk
    obtain ⟨s1, s2⟩ := tableShape_iff.1 hshape
    have hph : phaseOf c (u.toFixed ticks.toNat) < r.taps.length := by
      rw [s1]; exact Nat.mod_lt _ (Nat.two_pow_pos _)
    have hfit := taps_fit (c := c) w1 w3 hslot
    have hl := s2 _ (List.getElem_mem hph)
    rw [List.getElem?_eq_getElem hph]
    dsimp only
    rw [if_neg (by simpa using hl), if_neg (by omega)]
    exact ⟨_, rfl, BufferUnit.depositTaps_inv hu (by rw [hl]; omega) _⟩

/-- What a made deposit leaves satisfies the invariant of its target. -/
theorem synthDeposit_inv (hc : c.valid = true) (hm : kind ∈ c.synths) (hu : u.Inv c)
    (ht : synthTest c kind r ticks u = none) (h : synthDeposit c kind r ticks delta u = .ok v) :
    v.Inv c := by
  obtain ⟨-, -, h3⟩ := synthTest_eq_none.1 ht
  have hslot : slotOf c (u.toFixed ticks.toNat) < u.bufferSize.toNat - c.extra := h3
  rcases synthDeposit_ok h with ⟨rfl, -, rfl⟩ | ⟨w, row, rfl, -, hl, -, rfl⟩
  · exact BufferUnit.deposit_inv hu (by omega) _
  · obtain ⟨w1, -, w3⟩ := Config.widthOk_of_mem hc hm
    have hfit := taps_fit (c := c) w1 w3 hslot
    exact BufferUnit.depositTaps_inv hu (by rw [hl]; omega) _

/-- What SYN_OFFSET and SYN_UPDATE on a target do when they answer a next state. -/
theorem State.synthesize_next {s t : State} {b : BufUnit} {also : State → State}
    (h : s.synthesize kind r b ticks delta also = .next t) (h0 : s.sysFault = 0) :
    endsInFault s t ∨ ∃ v, synthTest s.cfg kind r ticks (s.buf b) = none ∧
      synthDeposit s.cfg kind r ticks delta (s.buf b) = .ok v ∧
      t = (also (s.setBuf b v)).respond .ok 0 0 := by
  unfold State.synthesize at h
  split at h
  · exact .inl (endsInFault_of_raiseFault h0 h)
  · next ht =>
    split at h
    · cases h
    · next v hv => exact .inr ⟨v, ht, hv, State.done_next h⟩

theorem State.synthesize_of {s : State} {b : BufUnit} {also : State → State}
    (ht : synthTest s.cfg kind r ticks (s.buf b) = none)
    (hv : synthDeposit s.cfg kind r ticks delta (s.buf b) = .ok v) :
    s.synthesize kind r b ticks delta also =
      .next ((also (s.setBuf b v)).respond .ok 0 0) := by
  simp only [State.synthesize, ht, hv]
  rfl

/-! ### Units of the machine -/

/-- The variant of a unit is one the configuration lists. -/
theorem mem_of_getElem? {α : Type} {l : List α} {n : Nat} {a : α} (h : l[n]? = some a) : a ∈ l :=
  List.mem_of_getElem? h

/-- The invariant of the synthesizer units, unit by unit. -/
theorem synthInv_of_getElem? {s : State} (h : s.Inv) {n : Nat} {kind : SynthKind} {r : SynthUnit}
    (hk : s.cfg.synths[n]? = some kind) (hr : s.synths[n]? = some r) :
    SynthUnit.Inv s.cfg kind r := by
  refine h.2.2.2.2.2.1 (kind, r) (List.mem_of_getElem? (i := n) ?_)
  rw [List.getElem?_zip_eq_some]
  exact ⟨hk, hr⟩

/-- Replacing the registers of a unit keeps the invariant of the units if the new ones satisfy it. -/
theorem synthInv_set {s : State} (h : s.Inv) {n : Nat} {kind : SynthKind} {r : SynthUnit}
    (hk : s.cfg.synths[n]? = some kind) (hr : SynthUnit.Inv s.cfg kind r) :
    ∀ p ∈ s.cfg.synths.zip (s.synths.set n r), SynthUnit.Inv s.cfg p.1 p.2 := by
  rintro ⟨k', r'⟩ hp
  obtain ⟨m, hm⟩ := List.mem_iff_getElem?.1 hp
  rw [List.getElem?_zip_eq_some] at hm
  obtain ⟨h1, h2⟩ := hm
  dsimp only at h1 h2
  rw [List.getElem?_set] at h2
  by_cases e : n = m
  · subst e
    rw [if_pos rfl] at h2
    split at h2
    · cases h2
      rw [hk] at h1
      cases h1
      exact hr
    · cases h2
  · rw [if_neg e] at h2
    exact synthInv_of_getElem? h h1 h2

end Sys2Proof.Machine
end

