-- ==== Sys2Proof/Laws/Commands.lean ====
section
/-! SUPPORT. One inversion law per command: what a next state of it can be. It ends without effect
(60_exceptions.md R250 (2) to (4)), or it is the effect its rule gives, with the tests it passed. -/

namespace Sys2Proof.Machine

variable {s t : State}

/-- The common shape: the sticky fault check, then the command. -/
theorem next_of_unlessFaulted {k : Result} {P : Prop} (h : s.unlessFaulted k = .next t)
    (hk : s.sysFault = 0 → k = .next t → endsInError s t ∨ endsInFault s t ∨ P) :
    endsWithoutEffect s t ∨ s.sysFault = 0 ∧ P := by
  rcases State.unlessFaulted_next h with h | ⟨h0, h⟩
  · exact .inl (.inr (.inr h))
  · rcases hk h0 h with h | h | h
    · exact .inl (.inl h)
    · exact .inl (.inr (.inl h))
    · exact .inr ⟨h0, h⟩

/-! ### Buffer configuration -/

theorem execSetRates_next {b : BufUnit} {k r : Word} (h : execSetRates b k r s = .next t) :
    endsWithoutEffect s t ∨ s.sysFault = 0 ∧
      0 < k.toInt ∧ 0 < r.toInt ∧ representable (ratio s.cfg k.toNat r.toNat) = true ∧
      ((s.buf b).lengthSet = true →
        sizeFor s.cfg r.toNat (s.buf b).lengthMs.toNat ≤ s.cfg.bufCapacity) ∧
      t = (s.setBuf b (BufferUnit.reconfigure s.cfg
        { s.buf b with clockRate := k, sampleRate := r })).respond .ok 0 0 := by
  refine next_of_unlessFaulted h fun h0 h => ?_
  dsimp only at h
  split at h
  · exact .inl (endsInError_of_fail h (by simp))
  · next h1 =>
    split at h
    · exact .inl (endsInError_of_fail h (by simp))
    · next h2 =>
      split at h
      · exact .inl (endsInError_of_fail h (by simp))
      · next h3 =>
        refine .inr (.inr ⟨by omega, by omega, by simpa using h2, fun hl => ?_, State.done_next h⟩)
        by_contra hn
        exact h3 ⟨hl, by omega⟩

theorem execSetLength_next {b : BufUnit} {ms : Word} (h : execSetLength b ms s = .next t) :
    endsWithoutEffect s t ∨ s.sysFault = 0 ∧
      sizeFor s.cfg (s.buf b).sampleRate.toNat ms.toNat ≤ s.cfg.bufCapacity ∧
      t = (s.setBuf b (BufferUnit.reconfigure s.cfg
        { s.buf b with lengthMs := ms, lengthSet := true })).respond .ok 0 0 := by
  refine next_of_unlessFaulted h fun h0 h => ?_
  dsimp only at h
  split at h
  · exact .inl (endsInError_of_fail h (by simp))
  · next h1 => exact .inr (.inr ⟨by omega, State.done_next h⟩)

theorem execBassFreq_next {b : BufUnit} {freq : Word} (h : execBassFreq b freq s = .next t) :
    endsWithoutEffect s t ∨ s.sysFault = 0 ∧
      t = (s.setBuf b ((s.buf b).setBass freq)).respond .ok 0 0 :=
  next_of_unlessFaulted h fun _ h => .inr (.inr (State.done_next h))

theorem execClear_next {b : BufUnit} (h : execClear b s = .next t) :
    endsWithoutEffect s t ∨ s.sysFault = 0 ∧
      t = (s.setBuf b (s.buf b).clear).respond .ok 0 0 :=
  next_of_unlessFaulted h fun _ h => .inr (.inr (State.done_next h))

/-- The eight commands that only read: a value is answered (46_system.md R243). -/
theorem answer_next_of_unlessFaulted {v : BitVec 64}
    (h : s.unlessFaulted (s.answer v 0) = .next t) :
    endsWithoutEffect s t ∨ s.sysFault = 0 ∧ t = s.respond .ok v 0 :=
  next_of_unlessFaulted h fun _ h => .inr (.inr (State.answer_next h))

theorem execGetFlags_next {b : BufUnit} (h : execGetFlags b s = .next t) :
    endsWithoutEffect s t ∨ s.sysFault = 0 ∧
      t = s.respond .ok (BitVec.ofNat 64 (s.buf b).flagWord) 0 :=
  answer_next_of_unlessFaulted h

/-! ### Time mapping, deposit, end of frame -/

theorem execToFixed_next {b : BufUnit} {x : Word} (h : execToFixed b x s = .next t) :
    endsWithoutEffect s t ∨ s.sysFault = 0 ∧
      t = s.respond .ok (BitVec.ofNat 64 ((s.buf b).toFixed x.toNat)) 0 :=
  answer_next_of_unlessFaulted h

theorem execDeposit_next {b : BufUnit} {p d : Word} (h : execDeposit b p d s = .next t) :
    endsWithoutEffect s t ∨ s.sysFault = 0 ∧
      (s.buf b).configured = true ∧ slotOf s.cfg p.toNat < (s.buf b).bufferSize.toNat ∧
      t = (s.setBuf b ((s.buf b).deposit (slotOf s.cfg p.toNat) d)).respond .ok 0 0 := by
  refine next_of_unlessFaulted h fun h0 h => ?_
  dsimp only at h
  split at h
  · exact .inr (.inl (endsInFault_of_raiseFault h0 h))
  · next h1 =>
    split at h
    · exact .inr (.inl (endsInFault_of_raiseFault h0 h))
    · next h2 =>
      exact .inr (.inr ⟨by simpa using h1, by omega, State.done_next (State.needSlots_next h)⟩)

theorem execEndFrame_next {b : BufUnit} {x : Word} (h : execEndFrame b x s = .next t) :
    endsWithoutEffect s t ∨ s.sysFault = 0 ∧
      (s.buf b).frameTest s.cfg x = none ∧
      t = (s.setBuf b ((s.buf b).endFrame s.cfg x)).respond .ok 0 0 := by
  refine next_of_unlessFaulted h fun h0 h => ?_
  split at h
  · exact .inr (.inl (endsInFault_of_raiseFault h0 h))
  · next h1 => exact .inr (.inr ⟨h1, State.done_next h⟩)

theorem execSamplesAvail_next {b : BufUnit} (h : execSamplesAvail b s = .next t) :
    endsWithoutEffect s t ∨ s.sysFault = 0 ∧
      t = s.respond .ok (BitVec.ofNat 64 ((s.buf b).samplesAvail s.cfg)) 0 :=
  answer_next_of_unlessFaulted h

/-! ### Read and removal -/

/-- What a command that reads n samples of one unit leaves (42_buffer_read.md R142). -/
def readsUnit (s t : State) (b : BufUnit) (n : Nat) : Prop :=
  n ≤ (s.buf b).samplesAvail s.cfg ∧
  t = ((s.setBuf b ((s.buf b).drain s.cfg n)).emit
    (((s.buf b).accums n).map fun a => sampleOf a.toInt)).respond .ok
      (BitVec.ofNat 64 n) (BitVec.ofNat 32 n)

/-- What a command that removes n samples of one unit leaves (R143). -/
def removesFrom (s t : State) (b : BufUnit) (n : Nat) (v : BitVec 64) : Prop :=
  n ≤ (s.buf b).samplesAvail s.cfg ∧
  t = (s.setBuf b ((s.buf b).drain s.cfg n)).respond .ok v 0

theorem readUnit_readsUnit {b : BufUnit} {m : Nat} (h : s.readUnit b m = .next t)
    (h0 : s.sysFault = 0) :
    endsInFault s t ∨ readsUnit s t b (min m ((s.buf b).samplesAvail s.cfg)) := by
  rcases State.readUnit_next h h0 with h | ⟨n, rfl, h⟩
  · exact .inl h
  · exact .inr ⟨Nat.min_le_right _ _, h⟩

theorem execReadSamples_next {b : BufUnit} {m : Word} (h : execReadSamples b m s = .next t) :
    endsWithoutEffect s t ∨ s.sysFault = 0 ∧
      readsUnit s t b (min m.toNat ((s.buf b).samplesAvail s.cfg)) :=
  next_of_unlessFaulted h fun h0 h => .inr (readUnit_readsUnit h h0)

theorem execRemoveSamples_next {b : BufUnit} {n : Word} (h : execRemoveSamples b n s = .next t) :
    endsWithoutEffect s t ∨ s.sysFault = 0 ∧ removesFrom s t b n.toNat 0 := by
  refine next_of_unlessFaulted h fun h0 h => ?_
  split at h
  · exact .inr (.inl (endsInFault_of_raiseFault h0 h))
  · next h1 =>
    exact .inr (.inr ⟨(BufferUnit.removeTest_none.1 h1).2, State.removeUnit_next h⟩)

theorem execRemoveSilence_next {b : BufUnit} {n : Word} (h : execRemoveSilence b n s = .next t) :
    endsWithoutEffect s t ∨ s.sysFault = 0 ∧
      Memory.silentBelow (s.buf b).delta n.toNat = true ∧ removesFrom s t b n.toNat 0 := by
  refine next_of_unlessFaulted h fun h0 h => ?_
  split at h
  · exact .inr (.inl (endsInFault_of_raiseFault h0 h))
  · next h1 =>
    split at h
    · exact .inr (.inl (endsInFault_of_raiseFault h0 h))
    · next h2 =>
      exact .inr (.inr ⟨by simpa using h2, (BufferUnit.removeTest_none.1 h1).2,
        State.removeUnit_next h⟩)

theorem execRemoveAllSamples_next {b : BufUnit} (h : execRemoveAllSamples b s = .next t) :
    endsWithoutEffect s t ∨ s.sysFault = 0 ∧
      removesFrom s t b ((s.buf b).samplesAvail s.cfg)
        (BitVec.ofNat 64 ((s.buf b).samplesAvail s.cfg)) := by
  refine next_of_unlessFaulted h fun h0 h => ?_
  dsimp only at h
  split at h
  · exact .inr (.inl (endsInFault_of_raiseFault h0 h))
  · exact .inr (.inr ⟨le_rfl, State.removeUnit_next h⟩)

theorem execNonSilent_next {b : BufUnit} (h : execNonSilent b s = .next t) :
    endsWithoutEffect s t ∨ s.sysFault = 0 ∧
      t = s.respond .ok (BitVec.ofNat 64 (s.buf b).nonSilent.toNat) 0 :=
  answer_next_of_unlessFaulted h

/-- What a command that reads n pairs leaves (44_tracked_mixer.md R194). -/
def readsPairs (s t : State) (perPair n : Nat) : Prop :=
  n ≤ s.pairsAvail ∧
  t = (State.emit { s with
      left := s.left.drain s.cfg n
      right := s.right.drain s.cfg n
      center := s.center.drain s.cfg n
      samplesRead := BitVec.ofNat 32 n } (s.mixOut n)).respond .ok
    (BitVec.ofNat 64 (perPair * n)) (BitVec.ofNat 32 (2 * n))

theorem readPairs_readsPairs {m k : Nat} (h : s.readPairs m k = .next t) (h0 : s.sysFault = 0) :
    endsInFault s t ∨ readsPairs s t k (min m s.pairsAvail) := by
  rcases State.readPairs_next h h0 with h | ⟨n, rfl, h⟩
  · exact .inl h
  · exact .inr ⟨Nat.min_le_right _ _, h⟩

theorem execReadPairs_next {m : Word} (h : execReadPairs m s = .next t) :
    endsWithoutEffect s t ∨ s.sysFault = 0 ∧ readsPairs s t 1 (min m.toNat s.pairsAvail) :=
  next_of_unlessFaulted h fun h0 h => .inr (readPairs_readsPairs h h0)

/-! ### Synthesizers -/

theorem next_of_withSynth {u : SynthSel} {k : SynthKind → SynthUnit → Result}
    {P : SynthKind → SynthUnit → Prop} (h : s.unlessFaulted (s.withSynth u k) = .next t)
    (hk : ∀ kind r, s.sysFault = 0 → hasSynth s u kind r → k kind r = .next t →
      endsInError s t ∨ endsInFault s t ∨ P kind r) :
    endsWithoutEffect s t ∨ s.sysFault = 0 ∧ ∃ kind r, hasSynth s u kind r ∧ P kind r := by
  refine next_of_unlessFaulted h fun h0 h => ?_
  obtain ⟨kind, r, h1, h2, h⟩ := State.withSynth_next h
  rcases hk kind r h0 ⟨h1, h2⟩ h with h | h | h
  · exact .inl h
  · exact .inr (.inl h)
  · exact .inr (.inr ⟨kind, r, ⟨h1, h2⟩, h⟩)

theorem execSynOutput_next {u : SynthSel} {route : Route} (h : execSynOutput u route s = .next t) :
    endsWithoutEffect s t ∨ s.sysFault = 0 ∧ ∃ kind r, hasSynth s u kind r ∧
      t = (s.setSynth u { r with out := route }).respond .ok 0 0 :=
  next_of_withSynth h fun _ _ _ _ h => .inr (.inr (State.done_next h))

theorem execSynSetAmp_next {u : SynthSel} {a : Word} (h : execSynSetAmp u a s = .next t) :
    endsWithoutEffect s t ∨ s.sysFault = 0 ∧ ∃ kind r, hasSynth s u kind r ∧
      t = (s.setSynth u { r with lastAmp := a }).respond .ok 0 0 :=
  next_of_withSynth h fun _ _ _ _ h => .inr (.inr (State.done_next h))

theorem execSynTrebleEq_next {u : SynthSel} {eq : Word} (h : execSynTrebleEq u eq s = .next t) :
    endsWithoutEffect s t ∨ s.sysFault = 0 ∧ ∃ kind r, hasSynth s u kind r ∧
      (kind = .fast ∧ t = s.respond .ok 0 0 ∨
        ∃ w, kind = .full w ∧ t = (s.setSynth u
          { r with
            taps := kernelTable s.cfg eq w
            kernelUnit := BitVec.ofNat 32 s.cfg.kernelUnitBase }).respond .ok 0 0) := by
  refine next_of_withSynth h fun kind r _ _ h => .inr (.inr ?_)
  cases kind with
  | fast => exact .inl ⟨rfl, State.done_next h⟩
  | full w => exact .inr ⟨w, rfl, State.done_next h⟩

theorem execSynVolume_next {u : SynthSel} {f sh : Word} (h : execSynVolume u f sh s = .next t) :
    endsWithoutEffect s t ∨ s.sysFault = 0 ∧ ∃ kind r, hasSynth s u kind r ∧ sh.toNat ≤ 31 ∧
      ((kind = .fast ∨ sh.toNat = 0) ∧
          t = (s.setSynth u { r with deltaFactor := f }).respond .ok 0 0 ∨
        ∃ w, kind = .full w ∧ 1 ≤ sh.toNat ∧ r.kernelUnit.toNat / 2 ^ sh.toNat ≠ 0 ∧
          tableShape s.cfg w r.taps = true ∧
          t = (s.setSynth u { r.rescale w sh.toNat with deltaFactor := f }).respond .ok 0 0) := by
  refine next_of_withSynth h fun kind r _ _ h => ?_
  split at h
  · exact .inl (endsInError_of_fail h (by simp))
  · next h1 =>
    cases kind with
    | fast => exact .inr (.inr ⟨by omega, .inl ⟨.inl rfl, State.done_next h⟩⟩)
    | full w =>
      dsimp only at h
      split at h
      · next h2 => exact .inr (.inr ⟨by omega, .inl ⟨.inr h2, State.done_next h⟩⟩)
      · next h2 =>
        split at h
        · exact .inl (endsInError_of_fail h (by simp))
        · next h3 =>
          split at h
          · cases h
          · next h4 =>
            exact .inr (.inr ⟨by omega, .inr ⟨w, rfl, by omega, h3, by simpa using h4,
              State.done_next h⟩⟩)

theorem execSynOffset_next {u : SynthSel} {sel : BufSel} {x d : Word}
    (h : execSynOffset u sel x d s = .next t) :
    endsWithoutEffect s t ∨ s.sysFault = 0 ∧ ∃ kind r, hasSynth s u kind r ∧
      (targetOf r sel = none ∧ t = s.respond .ok 0 0 ∨
        ∃ b v, targetOf r sel = some b ∧ synthTest s.cfg kind r x (s.buf b) = none ∧
          synthDeposit s.cfg kind r x d (s.buf b) = .ok v ∧
          t = (s.setBuf b v).respond .ok 0 0) := by
  refine next_of_withSynth h fun kind r h0 _ h => ?_
  split at h
  · next ht => exact .inr (.inr (.inl ⟨ht, State.done_next h⟩))
  · next b ht =>
    rcases State.synthesize_next h h0 with h | ⟨v, h1, h2, h3⟩
    · exact .inr (.inl h)
    · exact .inr (.inr (.inr ⟨b, v, ht, h1, h2, h3⟩))

theorem execSynUpdate_next {u : SynthSel} {sel : BufSel} {x a : Word}
    (h : execSynUpdate u sel x a s = .next t) :
    endsWithoutEffect s t ∨ s.sysFault = 0 ∧ ∃ kind r, hasSynth s u kind r ∧
      (targetOf r sel = none ∧ t = (s.setSynth u { r with lastAmp := a }).respond .ok 0 0 ∨
        ∃ b v, targetOf r sel = some b ∧ synthTest s.cfg kind r x (s.buf b) = none ∧
          synthDeposit s.cfg kind r x (wrap32 (a.toInt - r.lastAmp.toInt)) (s.buf b) = .ok v ∧
          t = ((s.setBuf b v).setSynth u { r with lastAmp := a }).respond .ok 0 0) := by
  refine next_of_withSynth h fun kind r h0 _ h => ?_
  dsimp only at h
  split at h
  · next ht => exact .inr (.inr (.inl ⟨ht, State.done_next h⟩))
  · next b ht =>
    rcases State.synthesize_next h h0 with h | ⟨v, h1, h2, h3⟩
    · exact .inr (.inl h)
    · exact .inr (.inr (.inr ⟨b, v, ht, h1, h2, h3⟩))

/-! ### Multi-buffer commands -/

theorem execMbSetChannelCount_next {n : Word} (h : execMbSetChannelCount n s = .next t) :
    endsWithoutEffect s t ∨ s.sysFault = 0 ∧ n.toNat ≤ s.cfg.maxChannels ∧
      t = State.respond { s with
          channelCount := BitVec.ofNat 16 n.toNat
          channelTypes := List.replicate s.cfg.maxChannels 0
          changedCount := s.changedCount + 1 } .ok 0 0 := by
  refine next_of_unlessFaulted h fun h0 h => ?_
  split at h
  · exact .inl (endsInError_of_fail h (by simp))
  · next h1 => exact .inr (.inr ⟨by omega, State.done_next h⟩)

theorem execMbSetChannelType_next {i tag : Word} (h : execMbSetChannelType i tag s = .next t) :
    endsWithoutEffect s t ∨ s.sysFault = 0 ∧ i.toNat < s.channelCount.toNat ∧
      t = State.respond { s with
          channelTypes := s.channelTypes.set i.toNat (tag.setWidth 16)
          changedCount := s.changedCount + 1 } .ok 0 0 := by
  refine next_of_unlessFaulted h fun h0 h => ?_
  split at h
  · exact .inl (endsInError_of_fail h (by simp))
  · next h1 =>
    split at h
    · cases h
    · exact .inr (.inr ⟨by omega, State.done_next h⟩)

theorem execMbChannel_next {i : Word} (h : execMbChannel i s = .next t) :
    endsWithoutEffect s t ∨ s.sysFault = 0 ∧ i.toNat < s.channelCount.toNat ∧
      ∃ tag, s.channelTypes[i.toNat]? = some tag ∧
        t = s.respond .ok (routingWord s.cfg.composition tag) 0 := by
  refine next_of_unlessFaulted h fun h0 h => ?_
  split at h
  · exact .inl (endsInError_of_fail h (by simp))
  · next h1 =>
    split at h
    · cases h
    · next tag ht => exact .inr (.inr ⟨by omega, tag, ht, State.answer_next h⟩)

theorem sampleRateTest_none {c : Config} {r ms : Word} {u : BufferUnit} :
    sampleRateTest c r ms u = none ↔ sizeFor c r.toNat ms.toNat ≤ c.bufCapacity ∧
      (0 < u.clockRate.toNat → representable (ratio c u.clockRate.toNat r.toNat) = true) := by
  unfold sampleRateTest
  by_cases h1 : c.bufCapacity < sizeFor c r.toNat ms.toNat
  · simp [h1]
  · by_cases h2 : 0 < u.clockRate.toNat ∧
        (!representable (ratio c u.clockRate.toNat r.toNat)) = true
    · rw [if_neg h1, if_pos h2]
      simp_all
    · rw [if_neg h1, if_neg h2]
      refine ⟨fun _ => ⟨by omega, fun h => ?_⟩, fun _ => rfl⟩
      by_contra hn
      exact h2 ⟨h, by simpa using hn⟩

theorem clockRateTest_none {c : Config} {k : Word} {u : BufferUnit} :
    clockRateTest c k u = none ↔
      (0 < u.sampleRate.toNat → representable (ratio c k.toNat u.sampleRate.toNat) = true) := by
  unfold clockRateTest
  by_cases h2 : 0 < u.sampleRate.toNat ∧
      (!representable (ratio c k.toNat u.sampleRate.toNat)) = true
  · rw [if_pos h2]
    simp_all
  · rw [if_neg h2]
    refine ⟨fun _ h => ?_, fun _ => rfl⟩
    by_contra hn
    exact h2 ⟨h, by simpa using hn⟩

theorem sampleRateTest_error {c : Config} {r ms : Word} {u : BufferUnit} {status : Status}
    (h : sampleRateTest c r ms u = some status) : status = .errInvalid ∨ status = .errNomem := by
  unfold sampleRateTest at h
  split at h
  · cases h; simp
  · split at h
    · cases h; simp
    · cases h

theorem clockRateTest_error {c : Config} {k : Word} {u : BufferUnit} {status : Status}
    (h : clockRateTest c k u = some status) : status = .errInvalid := by
  unfold clockRateTest at h
  split at h
  · cases h; rfl
  · cases h

theorem execMbSetSampleRate_next {r ms : Word} (h : execMbSetSampleRate r ms s = .next t) :
    endsWithoutEffect s t ∨ s.sysFault = 0 ∧ 0 < r.toInt ∧
      (∀ b ∈ activeSet s.cfg, sampleRateTest s.cfg r ms (s.buf b) = none) ∧
      t = ((State.updateBufs { s with mbSampleRate := r, mbLengthMs := ms } (activeSet s.cfg)
        fun u => BufferUnit.reconfigure s.cfg
          { u with sampleRate := r, lengthMs := ms, lengthSet := true }).respond .ok 0 0) := by
  refine next_of_unlessFaulted h fun h0 h => ?_
  split at h
  · exact .inl (endsInError_of_fail h (by simp))
  · next h1 =>
    split at h
    · next status ht =>
      obtain ⟨b, -, hb⟩ := List.exists_of_findSome?_eq_some ht
      exact .inl (endsInError_of_fail h ((sampleRateTest_error hb).imp id .inl))
    · next ht =>
      exact .inr (.inr ⟨by omega, List.findSome?_eq_none_iff.1 ht, State.done_next h⟩)

theorem execMbClockRate_next {k : Word} (h : execMbClockRate k s = .next t) :
    endsWithoutEffect s t ∨ s.sysFault = 0 ∧ 0 < k.toInt ∧
      (∀ b ∈ activeSet s.cfg, clockRateTest s.cfg k (s.buf b) = none) ∧
      t = (s.updateBufs (activeSet s.cfg) fun u =>
        BufferUnit.reconfigure s.cfg { u with clockRate := k }).respond .ok 0 0 := by
  refine next_of_unlessFaulted h fun h0 h => ?_
  split at h
  · exact .inl (endsInError_of_fail h (by simp))
  · next h1 =>
    split at h
    · next status ht =>
      obtain ⟨b, -, hb⟩ := List.exists_of_findSome?_eq_some ht
      exact .inl (endsInError_of_fail h (.inl (clockRateTest_error hb)))
    · next ht =>
      exact .inr (.inr ⟨by omega, List.findSome?_eq_none_iff.1 ht, State.done_next h⟩)

theorem execMbBassFreq_next {freq : Word} (h : execMbBassFreq freq s = .next t) :
    endsWithoutEffect s t ∨ s.sysFault = 0 ∧
      t = (s.updateBufs (activeSet s.cfg) (BufferUnit.setBass freq)).respond .ok 0 0 :=
  next_of_unlessFaulted h fun _ h => .inr (.inr (State.done_next h))

theorem execMbClear_next (h : execMbClear s = .next t) :
    endsWithoutEffect s t ∨ s.sysFault = 0 ∧
      t = State.respond { s.updateBufs (activeSet s.cfg) BufferUnit.clear with samplesRead := 0 }
        .ok 0 0 :=
  next_of_unlessFaulted h fun _ h => .inr (.inr (State.done_next h))

theorem execMbEndFrame_next {x : Word} (h : execMbEndFrame x s = .next t) :
    endsWithoutEffect s t ∨ s.sysFault = 0 ∧
      (∀ b ∈ activeSet s.cfg, (s.buf b).frameTest s.cfg x = none) ∧
      t = (s.updateBufs (activeSet s.cfg) (BufferUnit.endFrame s.cfg x)).respond .ok 0 0 := by
  refine next_of_unlessFaulted h fun h0 h => ?_
  split at h
  · exact .inr (.inl (endsInFault_of_raiseFault h0 h))
  · next ht => exact .inr (.inr ⟨List.findSome?_eq_none_iff.1 ht, State.done_next h⟩)

theorem execMbReadSamples_next {m : Word} (h : execMbReadSamples m s = .next t) :
    endsWithoutEffect s t ∨ s.sysFault = 0 ∧
      (s.cfg.composition = .mono ∧
          readsUnit s t .center (min m.toNat (s.center.samplesAvail s.cfg)) ∨
        s.cfg.composition = .stereo ∧ readsPairs s t 2 (min (m.toNat / 2) s.pairsAvail) ∨
        s.cfg.composition = .silent ∧ t = s.respond .ok 0 0) := by
  refine next_of_unlessFaulted h fun h0 h => ?_
  split at h
  · next hc =>
    rcases readUnit_readsUnit h h0 with h | h
    · exact .inr (.inl h)
    · exact .inr (.inr (.inl ⟨hc, h⟩))
  · next hc =>
    rcases readPairs_readsPairs h h0 with h | h
    · exact .inr (.inl h)
    · exact .inr (.inr (.inr (.inl ⟨hc, h⟩)))
  · next hc => exact .inr (.inr (.inr (.inr ⟨hc, State.done_next h⟩)))

theorem execMbSamplesAvail_next (h : execMbSamplesAvail s = .next t) :
    endsWithoutEffect s t ∨ s.sysFault = 0 ∧ ∃ v, t = s.respond .ok v 0 := by
  refine next_of_unlessFaulted h fun h0 h => .inr (.inr ?_)
  split at h
  · exact ⟨_, State.answer_next h⟩
  · exact ⟨_, State.answer_next h⟩
  · exact ⟨0, State.done_next h⟩

theorem execMbChanged_next (h : execMbChanged s = .next t) :
    endsWithoutEffect s t ∨ s.sysFault = 0 ∧
      t = s.respond .ok (s.changedCount.setWidth 64) 0 :=
  answer_next_of_unlessFaulted h

theorem execGetStatus_next (h : execGetStatus s = .next t) :
    t = s.respond .ok s.statusWord 0 := State.answer_next h

end Sys2Proof.Machine
end

