-- ==== Sys2Proof/Laws/Encoding.lean ====
section
/-! SUPPORT. Laws of frames and headers: what each field of an assembled frame reads (30_encoding.md R81). -/

namespace Sys2Proof

open Sys2Proof.Machine

/-! ### Bits -/

theorem getLsbD_ofWords (w0 a b : Word) (i : Nat) :
    (Frame.ofWords w0 a b).getLsbD i =
      if i < 32 then w0.getLsbD i
      else if i - 32 < 32 then a.getLsbD (i - 32) else b.getLsbD (i - 64) := by
  show BitVec.getLsbD ((b ++ a) ++ w0 : BitVec (32 + 32 + 32)) i = _
  rw [BitVec.getLsbD_append, BitVec.getLsbD_append]
  rfl

theorem getLsbD_headerOf (opcode : BitVec 8) (u : BitVec 4) (sel : BitVec 3) (i : Nat) :
    (headerOf opcode u sel).getLsbD i =
      if i < 8 then opcode.getLsbD i
      else if i - 8 < 4 then u.getLsbD (i - 8)
      else if i - 12 < 3 then sel.getLsbD (i - 12) else false := by
  show BitVec.getLsbD (((0#17 ++ sel) ++ u) ++ opcode : BitVec (17 + 3 + 4 + 8)) i = _
  simp only [BitVec.getLsbD_append, BitVec.getLsbD_zero]
  grind

/-! ### Words of a frame -/

@[simp] theorem header_ofWords (w0 a b : Word) : (Frame.ofWords w0 a b).header = w0 := by
  apply BitVec.eq_of_getLsbD_eq
  intro i hi
  rw [Frame.header, BitVec.getLsbD_extractLsb', getLsbD_ofWords, if_pos (by omega)]
  simp [hi]

@[simp] theorem operandA_ofWords (w0 a b : Word) : (Frame.ofWords w0 a b).operandA = a := by
  apply BitVec.eq_of_getLsbD_eq
  intro i hi
  rw [Frame.operandA, BitVec.getLsbD_extractLsb', getLsbD_ofWords, if_neg (by omega),
    if_pos (by omega)]
  simp [hi]

@[simp] theorem operandB_ofWords (w0 a b : Word) : (Frame.ofWords w0 a b).operandB = b := by
  apply BitVec.eq_of_getLsbD_eq
  intro i hi
  rw [Frame.operandB, BitVec.getLsbD_extractLsb', getLsbD_ofWords, if_neg (by omega),
    if_neg (by omega)]
  simp [hi]

/-- A frame is its three words. -/
theorem ofWords_words (f : Frame) : Frame.ofWords f.header f.operandA f.operandB = f := by
  apply BitVec.eq_of_getLsbD_eq
  intro i hi
  rw [getLsbD_ofWords]
  simp only [Frame.header, Frame.operandA, Frame.operandB, BitVec.getLsbD_extractLsb']
  split
  · next h => simp [h]
  · split
    · next h1 h2 => simp [h2, show 32 + (i - 32) = i by omega]
    · next h1 h2 => simp [show 64 + (i - 64) = i by omega, show i - 64 < 32 by omega]

/-! ### Fields of a header -/

variable (opcode : BitVec 8) (u : BitVec 4) (sel : BitVec 3) (a b : Word)

@[simp] theorem opcode_headerOf :
    Frame.opcode (Frame.ofWords (headerOf opcode u sel) a b) = opcode := by
  apply BitVec.eq_of_getLsbD_eq
  intro i hi
  rw [Frame.opcode, BitVec.getLsbD_extractLsb', getLsbD_ofWords, if_pos (by omega),
    getLsbD_headerOf, if_pos (by omega)]
  simp [hi]

@[simp] theorem unitField_headerOf :
    Frame.unitField (Frame.ofWords (headerOf opcode u sel) a b) = u := by
  apply BitVec.eq_of_getLsbD_eq
  intro i hi
  rw [Frame.unitField, BitVec.getLsbD_extractLsb', getLsbD_ofWords, if_pos (by omega),
    getLsbD_headerOf, if_neg (by omega), if_pos (by omega)]
  simp [hi]

@[simp] theorem selField_headerOf :
    Frame.selField (Frame.ofWords (headerOf opcode u sel) a b) = sel := by
  apply BitVec.eq_of_getLsbD_eq
  intro i hi
  rw [Frame.selField, BitVec.getLsbD_extractLsb', getLsbD_ofWords, if_pos (by omega),
    getLsbD_headerOf, if_neg (by omega), if_neg (by omega), if_pos (by omega)]
  simp [hi]

@[simp] theorem reserved_headerOf :
    Frame.reserved (Frame.ofWords (headerOf opcode u sel) a b) = 0 := by
  apply BitVec.eq_of_getLsbD_eq
  intro i hi
  rw [Frame.reserved, BitVec.getLsbD_extractLsb', getLsbD_ofWords, if_pos (by omega),
    getLsbD_headerOf, if_neg (by omega), if_neg (by omega), if_neg (by omega)]
  simp

/-- A header is its fields. -/
theorem headerOf_fields (f : Frame) (h : Frame.reserved f = 0) :
    headerOf f.opcode f.unitField f.selField = f.header := by
  apply BitVec.eq_of_getLsbD_eq
  intro i hi
  have hr : 15 ≤ i → f.getLsbD i = false := fun h1 => by
    have := congrArg (BitVec.getLsbD · (i - 15)) h
    simp only [Frame.reserved, BitVec.getLsbD_extractLsb', BitVec.ofNat_eq_ofNat,
      BitVec.getLsbD_zero] at this
    simpa [show i - 15 < 17 by omega, show 15 + (i - 15) = i by omega] using this
  rw [getLsbD_headerOf]
  simp only [Frame.opcode, Frame.unitField, Frame.selField, Frame.header,
    BitVec.getLsbD_extractLsb']
  split
  · next h1 => simp [h1, hi]
  · split
    · next h1 h2 => simp [h2, hi, show 8 + (i - 8) = i by omega]
    · split
      · next h1 h2 h3 => simp [h3, hi, show 12 + (i - 12) = i by omega]
      · next h1 h2 h3 => simp [hr (by omega)]

/-! ### Selector codes (30_encoding.md R85) -/

@[simp] theorem bufUnitOf_code (x : BufUnit) : bufUnitOf x.code = some x := by cases x <;> rfl

@[simp] theorem bufSelOf_code (k : BufSel) : bufSelOf k.code = some k := by
  rcases k with (_ | (_ | _ | _)) | _ <;> rfl

theorem bufUnitOf_eq_some {x : BitVec 4} {y : BufUnit} (h : bufUnitOf x = some y) : x = y.code := by
  revert h; revert y; revert x; decide

theorem bufSelOf_eq_some {x : BitVec 3} {k : BufSel} (h : bufSelOf x = some k) : x = k.code := by
  unfold bufSelOf at h
  repeat' split at h
  all_goals first | (cases h; subst_vars; rfl) | cases h

/-! ### Masks (30_encoding.md R87) -/

theorem headerSB_masked : headerOf opcode u sel &&& maskOf .sb = opcode.setWidth 32 := by
  apply BitVec.eq_of_getLsbD_eq
  intro i hi
  rw [BitVec.getLsbD_and, getLsbD_headerOf, BitVec.getLsbD_setWidth]
  interval_cases i <;> simp [maskOf]

theorem headerS_masked : headerOf opcode u 0 &&& maskOf .s = opcode.setWidth 32 := by
  apply BitVec.eq_of_getLsbD_eq
  intro i hi
  rw [BitVec.getLsbD_and, getLsbD_headerOf, BitVec.getLsbD_setWidth]
  interval_cases i <;> simp [maskOf]

theorem headerN_masked : headerOf opcode 0 0 &&& maskOf .n = opcode.setWidth 32 := by
  apply BitVec.eq_of_getLsbD_eq
  intro i hi
  rw [BitVec.getLsbD_and, getLsbD_headerOf, BitVec.getLsbD_setWidth]
  interval_cases i <;> simp [maskOf]

end Sys2Proof
end

