-- ==== Sys2Proof/Laws/Invariant.lean ====
section
/-! SUPPORT. Which updates of the machine keep its invariant (10_state.md R26, R29, R30, R32). -/

namespace Sys2Proof.Machine

variable {s t : State}

/-- The invariant of each buffer unit. -/
theorem State.Inv.buf (h : s.Inv) (b : BufUnit) : (s.buf b).Inv s.cfg := by
  cases b
  · exact h.2.1
  · exact h.2.2.1
  · exact h.2.2.2.1

/-- A state with the parameters of `s` meets the invariant when its parts do. -/
theorem State.Inv.of_parts (h : s.Inv) (hc : t.cfg = s.cfg) (hb : ∀ b, (t.buf b).Inv s.cfg)
    (hl : t.synths.length = s.synths.length)
    (hs : ∀ p ∈ s.cfg.synths.zip t.synths, SynthUnit.Inv s.cfg p.1 p.2)
    (h1 : t.channelCount.toNat ≤ s.cfg.maxChannels)
    (h2 : t.channelTypes.length = s.cfg.maxChannels) (h3 : t.sysFault.toNat ≤ 6) : t.Inv := by
  unfold State.Inv
  rw [hc]
  exact ⟨h.1, hb .left, hb .right, hb .center, hl.trans h.2.2.2.2.1, hs, h1, h2, h3⟩

theorem State.Inv.setBuf (h : s.Inv) {b : BufUnit} {v : BufferUnit} (hv : v.Inv s.cfg) :
    (s.setBuf b v).Inv := by
  obtain ⟨-, -, -, -, -, h6, h7, h8, h9⟩ := id h
  refine h.of_parts (by simp) (fun b' => ?_) (by simp) (by simpa using h6) (by simpa using h7)
    (by simpa using h8) (by simpa using h9)
  rw [State.buf_setBuf]
  split
  · exact hv
  · exact h.buf b'

theorem State.Inv.updateBufs (h : s.Inv) {bs : List BufUnit} (hn : bs.Nodup)
    {f : BufferUnit → BufferUnit} (hv : ∀ b ∈ bs, (f (s.buf b)).Inv s.cfg) :
    (s.updateBufs bs f).Inv := by
  obtain ⟨-, -, -, -, -, h6, h7, h8, h9⟩ := id h
  refine h.of_parts (by simp) (fun b' => ?_) (by simp) (by simpa using h6) (by simpa using h7)
    (by simpa using h8) (by simpa using h9)
  rw [State.buf_updateBufs hn]
  split
  · exact hv _ ‹_›
  · exact h.buf b'

theorem State.Inv.setSynth (h : s.Inv) {u : SynthSel} {kind : SynthKind} {r : SynthUnit}
    (hk : s.cfg.synths[u.toNat]? = some kind) (hr : SynthUnit.Inv s.cfg kind r) :
    (s.setSynth u r).Inv := by
  obtain ⟨h1, h2, h3, h4, h5, h6, h7, h8, h9⟩ := id h
  exact ⟨h1, h2, h3, h4, by simpa using h5, synthInv_set h hk hr, h7, h8, h9⟩

/-- The invariant says nothing of the response and of OUT. -/
theorem State.Inv.respond (h : s.Inv) (status : Status) (val : BitVec 64) (nout : Word) :
    (s.respond status val nout).Inv := h

theorem State.Inv.emit (h : s.Inv) (xs : List Sample) : (s.emit xs).Inv := h

/-- A command without its effect keeps the invariant (60_exceptions.md R250). -/
theorem State.Inv.of_endsWithoutEffect (h : s.Inv) (he : endsWithoutEffect s t) : t.Inv := by
  rcases he with ⟨_, _, rfl⟩ | ⟨code, _, rfl⟩ | ⟨_, rfl⟩
  · exact h
  · obtain ⟨h1, h2, h3, h4, h5, h6, h7, h8, -⟩ := h
    exact ⟨h1, h2, h3, h4, h5, h6, h7, h8, FaultCode.code_le code⟩
  · exact h

theorem State.Inv.of_readsUnit {b : BufUnit} {n : Nat} (h : s.Inv) (hr : readsUnit s t b n) :
    t.Inv := by
  obtain ⟨h1, rfl⟩ := hr
  exact ((h.setBuf (BufferUnit.drain_inv (h.buf b) h1)).emit _).respond _ _ _

theorem State.Inv.of_removesFrom {b : BufUnit} {n : Nat} {v : BitVec 64} (h : s.Inv)
    (hr : removesFrom s t b n v) : t.Inv := by
  obtain ⟨h1, rfl⟩ := hr
  exact (h.setBuf (BufferUnit.drain_inv (h.buf b) h1)).respond _ _ _

theorem State.Inv.of_readsPairs {k n : Nat} (h : s.Inv) (hr : readsPairs s t k n) : t.Inv := by
  obtain ⟨h1, rfl⟩ := hr
  have l1 := s.pairsAvail_le_left
  have l2 := s.pairsAvail_le_right
  have l3 := s.pairsAvail_le_center
  exact ⟨h.1, BufferUnit.drain_inv h.2.1 (by omega), BufferUnit.drain_inv h.2.2.1 (by omega),
    BufferUnit.drain_inv h.2.2.2.1 (by omega), h.2.2.2.2⟩

/-- A rescaled kernel keeps the invariant of its unit, with every other register free (43_synth.md
R163). -/
theorem SynthUnit.Inv.rescale {c : Config} {w sh : Nat} {r r' : SynthUnit} (hc : c.valid = true)
    (hm : SynthKind.full w ∈ c.synths) (h : SynthUnit.Inv c (.full w) r) (h1 : 1 ≤ sh)
    (h0 : r.kernelUnit.toNat / 2 ^ sh ≠ 0) (ht : r'.taps = (r.rescale w sh).taps)
    (hk : r'.kernelUnit = (r.rescale w sh).kernelUnit) : SynthUnit.Inv c (.full w) r' := by
  obtain ⟨w1, w2, w3⟩ := Config.widthOk_of_mem hc hm
  have hne : r.kernelUnit ≠ 0 := by
    intro e
    rw [e] at h0
    simp at h0
  obtain ⟨hs, hsum⟩ := h.resolve_left hne
  refine .inr ⟨by rw [ht]; exact tableShape_rescale hs, ?_⟩
  rw [ht, hk, SynthUnit.rescale_kernelUnit]
  intro row hrow
  obtain ⟨row', hr', rfl⟩ := List.mem_map.1 hrow
  have hcap := Config.capacity_lt hc
  have hex := Config.extra_lt_capacity hc
  have hexe : c.extra = c.maxq + 2 := rfl
  exact tapSum_rescaleRow h1 w1 w2 (by omega) ((tableShape_iff.1 hs).2 _ hr') (hsum _ hr')

/-- A fresh kernel meets the invariant of its unit (43_synth.md R165, R166). -/
theorem SynthUnit.Inv.fresh {c : Config} {w : Nat} {r' : SynthUnit} (hc : c.valid = true)
    (hm : SynthKind.full w ∈ c.synths) (eq : Word) (ht : r'.taps = kernelTable c eq w)
    (hk : r'.kernelUnit = BitVec.ofNat 32 c.kernelUnitBase) : SynthUnit.Inv c (.full w) r' := by
  obtain ⟨w1, w2, w3⟩ := Config.widthOk_of_mem hc hm
  have hok := generatedOk_iff.1 (kernelTable_ok hc eq w2)
  refine .inr ⟨by rw [ht]; exact hok.1, fun row hrow => ?_⟩
  rw [ht] at hrow
  have := (c.valid_iff.1 hc).2.2.2.2.2.2.2.1
  rw [(hok.2 row hrow).1, hk, BitVec.toNat_ofNat, Nat.mod_eq_of_lt (by omega)]

end Sys2Proof.Machine
end

