-- ==== Sys2Proof/Laws/PerInstr.lean ====
section
/-! SUPPORT. The per-instruction family HeaderMatches: the header of every encoded command lies in the row of
spec/opcode_table.json its command has (30_encoding.md R80, R87). -/

namespace Sys2Proof.Laws

open Sys2Proof.Machine

/-- The row of a command matches its frame. -/
def HeaderMatches.Statement (i : Instr) : Prop :=
  Frame.header (encode i) &&& maskOf (formatOf i) = matchWordOf i

theorem HeaderMatches.setRates (b : BufUnit) (k r : Word) : HeaderMatches.Statement (.setRates b k r) :=
  (congrArg (· &&& _) (header_ofWords _ _ _)).trans (headerS_masked _ b.code)

theorem HeaderMatches.setLength (b : BufUnit) (m : Word) : HeaderMatches.Statement (.setLength b m) :=
  (congrArg (· &&& _) (header_ofWords _ _ _)).trans (headerS_masked _ b.code)

theorem HeaderMatches.bassFreq (b : BufUnit) (x : Word) : HeaderMatches.Statement (.bassFreq b x) :=
  (congrArg (· &&& _) (header_ofWords _ _ _)).trans (headerS_masked _ b.code)

theorem HeaderMatches.clear (b : BufUnit) : HeaderMatches.Statement (.clear b) :=
  (congrArg (· &&& _) (header_ofWords _ _ _)).trans (headerS_masked _ b.code)

theorem HeaderMatches.toFixed (b : BufUnit) (x : Word) : HeaderMatches.Statement (.toFixed b x) :=
  (congrArg (· &&& _) (header_ofWords _ _ _)).trans (headerS_masked _ b.code)

theorem HeaderMatches.deposit (b : BufUnit) (p d : Word) : HeaderMatches.Statement (.deposit b p d) :=
  (congrArg (· &&& _) (header_ofWords _ _ _)).trans (headerS_masked _ b.code)

theorem HeaderMatches.endFrame (b : BufUnit) (x : Word) : HeaderMatches.Statement (.endFrame b x) :=
  (congrArg (· &&& _) (header_ofWords _ _ _)).trans (headerS_masked _ b.code)

theorem HeaderMatches.samplesAvail (b : BufUnit) : HeaderMatches.Statement (.samplesAvail b) :=
  (congrArg (· &&& _) (header_ofWords _ _ _)).trans (headerS_masked _ b.code)

theorem HeaderMatches.readSamples (b : BufUnit) (n : Word) : HeaderMatches.Statement (.readSamples b n) :=
  (congrArg (· &&& _) (header_ofWords _ _ _)).trans (headerS_masked _ b.code)

theorem HeaderMatches.removeSilence (b : BufUnit) (n : Word) : HeaderMatches.Statement (.removeSilence b n) :=
  (congrArg (· &&& _) (header_ofWords _ _ _)).trans (headerS_masked _ b.code)

theorem HeaderMatches.removeSamples (b : BufUnit) (n : Word) : HeaderMatches.Statement (.removeSamples b n) :=
  (congrArg (· &&& _) (header_ofWords _ _ _)).trans (headerS_masked _ b.code)

theorem HeaderMatches.nonSilent (b : BufUnit) : HeaderMatches.Statement (.nonSilent b) :=
  (congrArg (· &&& _) (header_ofWords _ _ _)).trans (headerS_masked _ b.code)

theorem HeaderMatches.removeAllSamples (b : BufUnit) : HeaderMatches.Statement (.removeAllSamples b) :=
  (congrArg (· &&& _) (header_ofWords _ _ _)).trans (headerS_masked _ b.code)

theorem HeaderMatches.getFlags (b : BufUnit) : HeaderMatches.Statement (.getFlags b) :=
  (congrArg (· &&& _) (header_ofWords _ _ _)).trans (headerS_masked _ b.code)

theorem HeaderMatches.synOutput (u : SynthSel) (r : Route) : HeaderMatches.Statement (.synOutput u r) :=
  (congrArg (· &&& _) (header_ofWords _ _ _)).trans (headerSB_masked _ u _)

theorem HeaderMatches.synVolume (u : SynthSel) (f sh : Word) : HeaderMatches.Statement (.synVolume u f sh) :=
  (congrArg (· &&& _) (header_ofWords _ _ _)).trans (headerS_masked _ u)

theorem HeaderMatches.synTrebleEq (u : SynthSel) (e : Word) : HeaderMatches.Statement (.synTrebleEq u e) :=
  (congrArg (· &&& _) (header_ofWords _ _ _)).trans (headerS_masked _ u)

theorem HeaderMatches.synOffset (u : SynthSel) (k : BufSel) (x d : Word) : HeaderMatches.Statement (.synOffset u k x d) :=
  (congrArg (· &&& _) (header_ofWords _ _ _)).trans (headerSB_masked _ u k.code)

theorem HeaderMatches.synUpdate (u : SynthSel) (k : BufSel) (x a : Word) : HeaderMatches.Statement (.synUpdate u k x a) :=
  (congrArg (· &&& _) (header_ofWords _ _ _)).trans (headerSB_masked _ u k.code)

theorem HeaderMatches.synSetAmp (u : SynthSel) (a : Word) : HeaderMatches.Statement (.synSetAmp u a) :=
  (congrArg (· &&& _) (header_ofWords _ _ _)).trans (headerS_masked _ u)

theorem HeaderMatches.readPairs (n : Word) : HeaderMatches.Statement (.readPairs n) :=
  (congrArg (· &&& _) (header_ofWords _ _ _)).trans (headerN_masked _)

theorem HeaderMatches.mbSetChannelCount (n : Word) : HeaderMatches.Statement (.mbSetChannelCount n) :=
  (congrArg (· &&& _) (header_ofWords _ _ _)).trans (headerN_masked _)

theorem HeaderMatches.mbSetChannelType (i g : Word) : HeaderMatches.Statement (.mbSetChannelType i g) :=
  (congrArg (· &&& _) (header_ofWords _ _ _)).trans (headerN_masked _)

theorem HeaderMatches.mbChannel (i : Word) : HeaderMatches.Statement (.mbChannel i) :=
  (congrArg (· &&& _) (header_ofWords _ _ _)).trans (headerN_masked _)

theorem HeaderMatches.mbSetSampleRate (r m : Word) : HeaderMatches.Statement (.mbSetSampleRate r m) :=
  (congrArg (· &&& _) (header_ofWords _ _ _)).trans (headerN_masked _)

theorem HeaderMatches.mbClockRate (k : Word) : HeaderMatches.Statement (.mbClockRate k) :=
  (congrArg (· &&& _) (header_ofWords _ _ _)).trans (headerN_masked _)

theorem HeaderMatches.mbBassFreq (x : Word) : HeaderMatches.Statement (.mbBassFreq x) :=
  (congrArg (· &&& _) (header_ofWords _ _ _)).trans (headerN_masked _)

theorem HeaderMatches.mbClear : HeaderMatches.Statement .mbClear :=
  (congrArg (· &&& _) (header_ofWords _ _ _)).trans (headerN_masked _)

theorem HeaderMatches.mbEndFrame (x : Word) : HeaderMatches.Statement (.mbEndFrame x) :=
  (congrArg (· &&& _) (header_ofWords _ _ _)).trans (headerN_masked _)

theorem HeaderMatches.mbReadSamples (n : Word) : HeaderMatches.Statement (.mbReadSamples n) :=
  (congrArg (· &&& _) (header_ofWords _ _ _)).trans (headerN_masked _)

theorem HeaderMatches.mbSamplesAvail : HeaderMatches.Statement .mbSamplesAvail :=
  (congrArg (· &&& _) (header_ofWords _ _ _)).trans (headerN_masked _)

theorem HeaderMatches.mbChanged : HeaderMatches.Statement .mbChanged :=
  (congrArg (· &&& _) (header_ofWords _ _ _)).trans (headerN_masked _)

theorem HeaderMatches.getStatus : HeaderMatches.Statement .getStatus :=
  (congrArg (· &&& _) (header_ofWords _ _ _)).trans (headerN_masked _)

end Sys2Proof.Laws
end

