-- ==== Sys2Proof/Laws/Transport.lean ====
section
/-! SUPPORT. Laws of byte forms (20_memory.md R65): the length and the bytes of `littleEndian`, and the
reading of one word, one status code and one sample. -/

namespace Sys2Proof

@[simp] theorem length_littleEndian (n : Nat) {w : Nat} (v : BitVec w) :
    (littleEndian n v).length = n := by simp [littleEndian]

theorem getElem?_littleEndian (n : Nat) {w : Nat} (v : BitVec w) {k : Nat} (hk : k < n) :
    (littleEndian n v)[k]? = some (v.extractLsb' (8 * k) 8) := by
  simp [littleEndian, hk]

/-- The byte at offset k is the k-th digit of the value in base 256. -/
theorem toNat_byte {w : Nat} (v : BitVec w) (k : Nat) :
    (v.extractLsb' (8 * k) 8).toNat = v.toNat / 256 ^ k % 256 := by
  rw [BitVec.extractLsb'_toNat, Nat.shiftRight_eq_div_pow, Nat.pow_mul]

/-- Two neighbouring fields of a value, the higher one first, are one field. -/
theorem append_fields {w : Nat} (v : BitVec w) (start low high : Nat) :
    v.extractLsb' (start + low) high ++ v.extractLsb' start low =
      v.extractLsb' start (high + low) := by
  apply BitVec.eq_of_getLsbD_eq
  intro i hi
  rw [BitVec.getLsbD_append, BitVec.getLsbD_extractLsb', BitVec.getLsbD_extractLsb',
    BitVec.getLsbD_extractLsb']
  split
  · simp [*]
  · simp [hi, show i - low < high by omega, show start + low + (i - low) = start + i by omega]

theorem takeWord_littleEndian (x : Word) (rest : List Byte) :
    takeWord (littleEndian 4 x ++ rest) = some (x, rest) := by
  have h : x.extractLsb' 24 8 ++ x.extractLsb' 16 8 ++ x.extractLsb' 8 8 ++ x.extractLsb' 0 8 = x := by
    rw [append_fields x 16 8 8, append_fields x 8 8 16, append_fields x 0 8 24]
    exact BitVec.extractLsb'_eq_self
  simp [littleEndian, List.range_succ, takeWord, h]

/-- The two halves of a 64-bit value, low half first, are its bytes. -/
theorem littleEndian_halves (v : BitVec 64) :
    littleEndian 8 v = littleEndian 4 (v.extractLsb' 0 32) ++ littleEndian 4 (v.extractLsb' 32 32) := by
  have h : ∀ i j : Nat, i + 8 ≤ 32 →
      (v.extractLsb' j 32).extractLsb' i 8 = v.extractLsb' (j + i) 8 := by
    intro i j hi
    apply BitVec.eq_of_getLsbD_eq
    intro k hk
    simp only [BitVec.getLsbD_extractLsb', Nat.add_assoc, hk, decide_true, Bool.true_and]
    simp [show i + k < 32 by omega]
  simp [littleEndian, List.range_succ, h]

theorem append_halves (v : BitVec 64) : v.extractLsb' 32 32 ++ v.extractLsb' 0 32 = v :=
  (append_fields v 0 32 32).trans BitVec.extractLsb'_eq_self

namespace Machine

@[simp] theorem statusOf_code (x : Status) : statusOf x.code = some x := by cases x <;> rfl

@[simp] theorem length_bytes (r : Response) : r.bytes.length = 13 := by simp [Response.bytes]

/-- The bytes of samples, one sample at a time. -/
@[simp] theorem samplesBytes_cons (x : Sample) (xs : List Sample) :
    samplesBytes (x :: xs) = x.extractLsb' 0 8 :: x.extractLsb' 8 8 :: samplesBytes xs := rfl

/-- The two bytes of a sample are the sample. -/
theorem append_sample (x : Sample) : x.extractLsb' 8 8 ++ x.extractLsb' 0 8 = x :=
  (append_fields x 0 8 8).trans BitVec.extractLsb'_eq_self

end Machine

end Sys2Proof
end

