-- ==== Sys2Proof/Tests/Slice0.lean ====
section
/-! SUPPORT. Tests of the model against numbers of spec/ (30_encoding.md, 95_test_vectors.md, called T<n>
and P<n> there), and, for every statement of Certificates/Slice0/Obligations.lean that has hypotheses, a
witness: a concrete state and operands that meet them together. -/

namespace Sys2Proof.Tests

-- One after the other: a kernel evaluation per thread asks for more memory than the check allows.
set_option Elab.async false

open Sys2Proof Sys2Proof.Machine

/-! ### Helpers -/

/-- The state after a command; the state itself where the command answers no next state. -/
def ran (i : Instr) (s : State) : State :=
  match exec i s with
  | .next t => t
  | _ => s

/-- Whether a command answers a next state. -/
def answers (i : Instr) (s : State) : Bool :=
  match exec i s with
  | .next _ => true
  | _ => false

theorem exec_ran {i : Instr} {s : State} (h : answers i s = true) : exec i s = .next (ran i s) := by
  unfold answers at h
  unfold ran
  split at h
  · next t ht => rw [ht]
  · cases h

theorem exec_eq {i : Instr} {s t : State} (h : answers i s = true) (e : ran i s = t) :
    exec i s = .next t := e ▸ exec_ran h

/-- The state after a step, if there is one. -/
def stepped (s : State) : Option State :=
  match step s with
  | .next t => some t
  | _ => none

theorem step_eq {s t : State} (h : stepped s = some t) : step s = .next t := by
  unfold stepped at h
  split at h
  · next u hu => rw [hu, Option.some.inj h]
  · cases h

/-- The status, the value and the number of samples of the last response. -/
def reply (s : State) : Option (Status × Nat × Nat) :=
  s.response.map fun r => (r.status, r.val.toNat, r.nout.toNat)

/-- The reply to a command, with the samples it appended. -/
def gives (i : Instr) (s : State) : Option (Status × Nat × Nat) × List Int :=
  (reply (ran i s), ((ran i s).out.drop s.out.length).map BitVec.toInt)

/-- A unit at NES rates, 20 ms (95_test_vectors.md, "C at NES rates"). -/
def nesUnit : BufferUnit :=
  { BufferUnit.reset with
    clockRate := 1789773, sampleRate := 44100, lengthMs := 20, lengthSet := true
    factor := 1615, bufferSize := 945, bassShift := 9 }

/-- C at NES rates, from reset. -/
def nes : State := { State.reset with center := nesUnit }

/-- Unit C one frame into T1: the step of 100 deposited, the frame of 29780 ticks ended. -/
def nesFrame : State :=
  { nes with
    center := { nesUnit with offset := 0x2DDDDEC, lastNonSilence := 751, delta := [(0, 209715200)] } }

/-- A unit at 44100/44100 with cutoff 0 and four samples waiting (P2 after step 17). -/
def pcmUnit (delta : Memory) : BufferUnit :=
  { BufferUnit.reset with
    clockRate := 44100, sampleRate := 44100, lengthMs := 20, lengthSet := true, bassFreq := 0
    factor := 65536, bufferSize := 945, bassShift := 31, offset := 0x40000
    lastNonSilence := 22, delta := delta }

/-- A kernel of width 2 whose phases sum to 4096 (P4 after step 5). -/
def kernel2 : List (List Word) :=
  (List.range 64).map fun p => [BitVec.ofNat 32 (4096 - 64 * p), BitVec.ofNat 32 (64 * p)]

/-- P2 after step 17, with s1 routed to C and holding the kernel of P4. -/
def demo : State :=
  { State.reset with
    left := pcmUnit [(0, 163840), (2, -65536)]
    right := pcmUnit [(1, 327680)]
    center := pcmUnit [(0, 1638400), (3, 819200)]
    synths :=
      [ ⟨some .left, 0x4000, 6, 0, []⟩, ⟨some .center, 512, 100, 4096, kernel2⟩
      , ⟨some .right, 0x4000, 20, 0, []⟩, .reset ]
    channelCount := 2
    channelTypes := 0 :: 0x200 :: List.replicate 30 0
    changedCount := 2 }

/-- `demo` in another composition. -/
def demoIn (k : Composition) : State := { demo with cfg := { Config.default with composition := k } }

/-- `demo` with the frames the host presents. -/
def demoWith (fs : List Input) : State := { demo with pending := fs }

/-- `nes` with a fault recorded. -/
def nesFaulted : State := { nes with sysFault := 2 }

/-! ### WellFormed: the one check the types leave (30_encoding.md R86 (f)), NSYNTH = 4 -/

theorem test_wf_synOutput : Instr.wellFormed .default (.synOutput 4 none) = false := by decide
theorem test_wf_synVolume : Instr.wellFormed .default (.synVolume 4 0 0) = false := by decide
theorem test_wf_synTrebleEq : Instr.wellFormed .default (.synTrebleEq 15 0) = false := by decide
theorem test_wf_synOffset : Instr.wellFormed .default (.synOffset 5 .routed 0 0) = false := by decide
theorem test_wf_synUpdate : Instr.wellFormed .default (.synUpdate 8 .routed 0 0) = false := by decide
theorem test_wf_synSetAmp : Instr.wellFormed .default (.synSetAmp 4 0) = false := by decide
theorem test_wf_last_unit : Instr.wellFormed .default (.synSetAmp 3 0) = true := by decide

/-! ### Decoding: one word for every command, written out from 30_encoding.md R80, R81 and R85 -/

/-- The command a frame decodes to under the default parameters. -/
def reads (w0 a b : Word) : Option Instr :=
  (decodeFrame .default (Frame.ofWords w0 a b)).toOption

theorem test_decode_buffer_commands :
    reads 0x00000210 0x001B4F4D 0x0000AC44 = some (.setRates .center 1789773 44100) ∧
    reads 0x00000211 0x00000014 0 = some (.setLength .center 20) ∧
    reads 0x00000112 0xFFFFFFFB 0 = some (.bassFreq .right (-5)) ∧
    reads 0x00000213 0 0 = some (.clear .center) ∧
    reads 0x00000214 0x00000064 0 = some (.toFixed .center 100) ∧
    reads 0x00000015 0x00030000 0xFFFFFED4 = some (.deposit .left 0x00030000 (-300)) ∧
    reads 0x00000216 0x00007454 0 = some (.endFrame .center 29780) := by decide +kernel

theorem test_decode_read_commands :
    reads 0x00000217 0xFFFFFFFF 0xFFFFFFFF = some (.samplesAvail .center) ∧
    reads 0x00000218 0x00000008 0 = some (.readSamples .center 8) ∧
    reads 0x00000019 0x00000064 0 = some (.removeSilence .left 100) ∧
    reads 0x0000011A 0x00000064 0 = some (.removeSamples .right 100) ∧
    reads 0x0000021B 0 0 = some (.nonSilent .center) ∧
    reads 0x0000011C 0 0 = some (.removeAllSamples .right) ∧
    reads 0x0000021D 0 0 = some (.getFlags .center) := by decide +kernel

theorem test_decode_synth_commands :
    reads 0x00001220 0 0 = some (.synOutput 2 (some .right)) ∧
    reads 0x00000121 0x00000200 0x00000003 = some (.synVolume 1 512 3) ∧
    reads 0x00000122 0 0 = some (.synTrebleEq 1 0) ∧
    reads 0x00002323 0x00000003 0x00000005 =
      some (.synOffset 3 (.explicit (some .center)) 3 5) ∧
    reads 0x00003023 0 0x00000005 = some (.synOffset 0 (.explicit none) 0 5) ∧
    reads 0x00004024 0 0x00000064 = some (.synUpdate 0 .routed 0 100) ∧
    reads 0x00000325 0xFFFFFFF6 0 = some (.synSetAmp 3 (-10)) := by decide +kernel

theorem test_decode_multi_commands :
    reads 0x00000030 0x00000004 0 = some (.readPairs 4) ∧
    reads 0x00000040 0x00000002 0 = some (.mbSetChannelCount 2) ∧
    reads 0x00000041 0x00000001 0x00000200 = some (.mbSetChannelType 1 0x200) ∧
    reads 0x00000042 0x00000001 0 = some (.mbChannel 1) ∧
    reads 0x00000043 0x0000AC44 0x00000014 = some (.mbSetSampleRate 44100 20) ∧
    reads 0x00000044 0x0000AC44 0 = some (.mbClockRate 44100) ∧
    reads 0x00000045 0x00000010 0 = some (.mbBassFreq 16) := by decide +kernel

theorem test_decode_system_commands :
    reads 0x00000046 0 0 = some .mbClear ∧
    reads 0x00000047 0x00007454 0 = some (.mbEndFrame 29780) ∧
    reads 0x00000048 0x00000005 0 = some (.mbReadSamples 5) ∧
    reads 0x00000049 0 0 = some .mbSamplesAvail ∧
    reads 0x0000004A 0 0 = some .mbChanged ∧
    reads 0x0000007E 0xDEADBEEF 0x12345678 = some .getStatus := by decide +kernel

/-- Why a header word with A = B = 0 is illegal. -/
def rejects (w0 : Word) : Option DecodeError :=
  match decodeFrame .default (Frame.ofWords w0 0 0) with
  | .ok _ => none
  | .error e => some e

/-- T11: one word for each clause of R86, in the order of the table. -/
theorem test_decode_illegal :
    rejects 0x00000000 = some .unknownOpcode ∧ rejects 0x0000001E = some .unknownOpcode ∧
    rejects 0x00008210 = some .reservedBits ∧ rejects 0x80000017 = some .reservedBits ∧
    rejects 0x00000310 = some .bufferUnitRange ∧ rejects 0x00001210 = some .unusedSelField ∧
    rejects 0x00000130 = some .unusedUnitField ∧ rejects 0x00001030 = some .unusedSelField ∧
    rejects 0x00000421 = some .synthUnitRange ∧ rejects 0x00001021 = some .unusedSelField ∧
    rejects 0x00000420 = some .synthUnitRange ∧ rejects 0x00005023 = some .selectorRange ∧
    rejects 0x00004020 = some .routedOutput := by decide +kernel

/-- 20_memory.md R65: the bytes of `SET_RATES C, 1789773, 44100`, one byte short, and the byte form
of a whole frame with one byte after it. -/
theorem test_decode_bytes :
    (decodeBytes .default [0x10, 2, 0, 0, 0x4D, 0x4F, 0x1B, 0, 0x44, 0xAC, 0, 0, 9]).toOption =
      some (.setRates .center 1789773 44100, [9]) ∧
    (decodeBytes .default [0x10, 2, 0, 0, 0x4D, 0x4F, 0x1B, 0, 0x44, 0xAC, 0]).toOption = none := by
  decide +kernel

/-- R65, R83: the bytes of a response and of two samples, and a status code that is never produced. -/
theorem test_response_bytes :
    Response.bytes ⟨.fault, 0x0102030405060708, 0xA1B2C3D4⟩ =
      [4, 8, 7, 6, 5, 4, 3, 2, 1, 0xD4, 0xC3, 0xB2, 0xA1] ∧
    takeResponse [4, 8, 7, 6, 5, 4, 3, 2, 1, 0xD4, 0xC3, 0xB2, 0xA1, 9] =
      some (⟨.fault, 0x0102030405060708, 0xA1B2C3D4⟩, [9]) ∧
    takeResponse [6, 0, 0, 0, 0, 0, 0, 0, 0, 0, 0, 0, 0] = none ∧
    samplesBytes [0x7FFF, 0x8001] = [0xFF, 0x7F, 0x01, 0x80] ∧
    takeSamples 2 [0xFF, 0x7F, 0x01, 0x80, 9] = some ([0x7FFF, 0x8001], [9]) ∧
    takeSamples 2 [0xFF, 0x7F, 0x01] = none := by decide +kernel

/-- T10 (30_encoding.md R89): assembler lines and the words they stand for. -/
theorem test_assemble :
    assemble .default "DEPOSIT L, 0x00030000, -300" =
      some [Frame.ofWords 0x00000015 0x00030000 0xFFFFFED4] ∧
    assemble .default "SYN_UPDATE s0, 0, 100" = some [Frame.ofWords 0x00004024 0 0x64] ∧
    assemble .default "SYN_OFFSET s0, NONE, 0, 5 ; nothing" =
      some [Frame.ofWords 0x00003023 0 5] ∧
    assemble .default "CONFIG C, 1789773, 44100, 20" =
      some [Frame.ofWords 0x00000211 0x14 0, Frame.ofWords 0x00000210 0x001B4F4D 0x0000AC44] ∧
    assemble .default "DEPOSIT_AT C, 944, 1" =
      some [Frame.ofWords 0x00000215 0x03B00000 1] := by decide +kernel

/-- R89: a `-` goes with decimal digits alone; a synthesizer unit is decimal (assumption log 16). -/
theorem test_assemble_numbers :
    assemble .default "DEPOSIT L, 0x10, -0x10" = none ∧
    assemble .default "SYN_SET_AMP s0xF, 1" = none ∧
    assemble .default "SYN_SET_AMP s15, 0xFf" = some [Frame.ofWords 0x00000F25 0xFF 0] := by
  decide +kernel

/-! ### One step of each command, on the numbers of 95_test_vectors.md -/

/-- T17, P1. -/
theorem test_setRates :
    (ran (.setRates .center 1789773 44100) { State.reset with
      center := { BufferUnit.reset with lengthMs := 20, lengthSet := true } }).center = nesUnit ∧
    gives (.setRates .center 1 65536) nes = (some (.errInvalid, 0, 0), []) := by decide +kernel

/-- T17. -/
theorem test_setLength :
    (ran (.setLength .center 1484) nes).center.bufferSize = 65507 ∧
    gives (.setLength .center 1485) nes = (some (.errNomem, 0, 0), []) := by decide +kernel

/-- T16, T32. -/
theorem test_bassFreq :
    (ran (.bassFreq .center 0) nes).center = { nesUnit with bassFreq := 0, bassShift := 31 } ∧
    (ran (.bassFreq .center 5000) nes).center.bassShift = 1 := by decide +kernel

/-- T19, R109. -/
theorem test_clear : (ran (.clear .center) nesFrame).center = nesUnit := by decide +kernel

/-- T20. -/
theorem test_toFixed :
    gives (.toFixed .center 29780) nes = (some (.ok, 0x2DDDDEC, 0), []) ∧
    gives (.toFixed .center 0xFFFFFFFF)
        { nes with center := { nesUnit with factor := 0xFFFFFFFF, offset := 0xFFFFFFFF } } =
      (some (.ok, 2 ^ 64 - 2 ^ 32, 0), []) := by decide +kernel

/-- T21: the last slot in use, and the first that is not. -/
theorem test_deposit :
    (ran (.deposit .center 0x03B0FFFF 1) nes).center =
      { nesUnit with delta := [(944, 1)], modified := true } ∧
    ran (.deposit .center 0x03B10000 1) nes = nes.faulted .depositRange := by decide +kernel

/-- T21: two deposits into one slot, the second wrapping it. -/
theorem test_deposit_wraps :
    (ran (.deposit .center 0xFFFF 1)
      { nes with center := { nesUnit with delta := [(0, 0x7FFFFFFF)] } }).center.delta =
        [(0, 0x80000000)] := by decide +kernel

/-- T22: NOMINAL reached, and one sample too many. -/
theorem test_endFrame :
    (ran (.endFrame .center 37657) nes).center = { nesUnit with offset := 0x39FFAB7 } ∧
    ran (.endFrame .center 37658) nes = nes.faulted .frameOverflow := by decide +kernel

/-- T22: the counter after a frame with a deposit. -/
theorem test_endFrame_modified :
    (ran (.endFrame .center 29780)
      { nes with center := { nesUnit with delta := [(0, 209715200)], modified := true } }).center =
        nesFrame.center := by decide +kernel

/-- T23. -/
theorem test_samplesAvail :
    gives (.samplesAvail .center) nesFrame = (some (.ok, 733, 0), []) := by decide +kernel

/-- P1 step 15. -/
theorem test_readSamples :
    gives (.readSamples .center 8) nesFrame =
      (some (.ok, 8, 8), [12800, 12775, 12750, 12725, 12700, 12675, 12650, 12626]) ∧
    (ran (.readSamples .center 8) nesFrame).center =
      { nesUnit with readerAccum := 206864748, offset := 0x2D5DDEC, lastNonSilence := 743 } := by
  decide +kernel

/-- T31: saturation, and rounding toward minus infinity. -/
theorem test_readSamples_saturates :
    gives (.readSamples .center 10)
        { nes with center := { nesUnit with
            bassShift := 31, offset := 0x500A5, lastNonSilence := 23
            delta := [(0, 81920), (1, -131072), (3, 655360000), (4, -1310720000)] } } =
      (some (.ok, 5, 5), [5, -3, -3, 32767, -32768]) := by decide +kernel

/-- T35. -/
theorem test_removeSamples :
    (ran (.removeSamples .center 4)
      { nes with center := { nesUnit with readerAccum := 10000, offset := 0x61234 } }).center =
        { nesUnit with readerAccum := 9924, offset := 0x21234 } ∧
    ran (.removeSamples .center 734) nesFrame = nesFrame.faulted .removeRange := by decide +kernel

/-- T35, T36. -/
theorem test_removeSilence :
    (ran (.removeSilence .center 4)
      { nes with center := { nesUnit with readerAccum := 10000, offset := 0x61234 } }).center =
        { nesUnit with readerAccum := 9924, offset := 0x21234 } ∧
    ran (.removeSilence .center 1) nesFrame = nesFrame.faulted .notSilent := by decide +kernel

/-- T50. -/
theorem test_nonSilent :
    gives (.nonSilent .center) { nes with center := { nesUnit with readerAccum := 16383 } } =
      (some (.ok, 0, 0), []) ∧
    gives (.nonSilent .center) { nes with center := { nesUnit with readerAccum := -1 } } =
      (some (.ok, 1, 0), []) := by decide +kernel

/-- P1 step 17, with fewer samples: four left, all removed. -/
theorem test_removeAllSamples :
    gives (.removeAllSamples .center) demo = (some (.ok, 4, 0), []) ∧
    (ran (.removeAllSamples .center) demo).center =
      { pcmUnit [] with readerAccum := 2457600, offset := 0, lastNonSilence := 18 } := by
  decide +kernel

/-- T19. -/
theorem test_getFlags :
    gives (.getFlags .center) { nes with center := { nesUnit with modified := true } } =
      (some (.ok, 3, 0), []) ∧
    gives (.getFlags .left) nes = (some (.ok, 0, 0), []) := by decide +kernel

/-- P2 step 11. -/
theorem test_synOutput :
    (ran (.synOutput 2 (some .right)) nes).synths =
      [.reset, .reset, { SynthUnit.reset with out := some .right }, .reset] := by decide +kernel

/-- T44. -/
theorem test_synVolume :
    gives (.synVolume 0 1 32) nes = (some (.errInvalid, 0, 0), []) ∧
    (ran (.synVolume 0 1 31) nes).synths[0]? = some { SynthUnit.reset with deltaFactor := 1 } := by
  decide +kernel

/-- T45, W = 4, shift 1: the phase with a rounding error and the one without; `kernel_unit` 16384. -/
theorem test_synVolume_rescales :
    rescaleRow 1 4 16384 [-104, 15684, 17284, -96] = [-52, 7842, 8642, -48] ∧
    rescaleRow 1 4 16384 [-105, 15484, 17484, -95] = [-52, 7741, 8742, -47] ∧
    (ran (.synVolume 1 64 3) demo).synths[1]?.map (fun r => (r.kernelUnit, r.taps.take 2)) =
      some (512, [[512, 0], [504, 8]]) := by decide +kernel

/-- T44: `kernel_unit` of a fresh kernel; a FAST unit is left alone. -/
theorem test_synTrebleEq :
    (ran (.synTrebleEq 1 0) nes).synths[1]?.map SynthUnit.kernelUnit = some 32768 ∧
    (ran (.synTrebleEq 0 0) nes).synths = nes.synths := by decide +kernel

/-- T40: the product wraps; T42: the kernel is tested before the range. -/
theorem test_synOffset :
    (ran (.synOffset 0 (.explicit (some .center)) 82 3) { nes with
      synths := [{ SynthUnit.reset with deltaFactor := 0x200000 }] }).center =
        { nesUnit with delta := [(2, 6291456)], modified := true } ∧
    ran (.synOffset 3 (.explicit (some .center)) 37658 1) nes = nes.faulted .noKernel := by
  decide +kernel

/-- P4 step 7: a FULL unit, phase 47, into slots 7 and 8 which hold the deposit of step 6. -/
theorem test_synUpdate :
    ((ran (.synUpdate 1 .routed 30 40)
        { demo with center := { nesUnit with delta := [(7, 209715200)] } }).center.delta =
      [(7, 176291840), (8, -92405760)]) ∧
    (ran (.synUpdate 1 .routed 30 40)
        { demo with center := nesUnit }).synths[1]?.map SynthUnit.lastAmp = some 40 := by
  decide +kernel

/-- T41: a deposit out of range leaves `last_amp`. -/
theorem test_synUpdate_range :
    ran (.synUpdate 0 (.explicit (some .center)) 37658 9) nes = nes.faulted .depositRange := by
  decide +kernel

/-- R172. -/
theorem test_synSetAmp :
    (ran (.synSetAmp 3 9) nes).synths =
      [.reset, .reset, .reset, { SynthUnit.reset with lastAmp := 9 }] := by decide +kernel

/-- P2 steps 20 and 22, as pairs. -/
theorem test_readPairs :
    gives (.readPairs 4) demo =
      (some (.ok, 4, 8), [110, 100, 110, 120, 106, 120, 156, 170]) ∧
    (ran (.readPairs 4) demo).samplesRead = 4 := by decide +kernel

/-- T54: with shift 31, L 16383, C 2: the mono path. -/
theorem test_readPairs_mono :
    gives (.readPairs 1) { demo with
        left := { pcmUnit [] with readerAccum := 16383, lastNonSilence := 0 }
        right := { pcmUnit [] with lastNonSilence := 0 }
        center := { pcmUnit [] with readerAccum := 2 } } =
      (some (.ok, 1, 2), [0, 0]) := by decide +kernel

/-- T60. -/
theorem test_mbSetChannelCount :
    gives (.mbSetChannelCount 33) demo = (some (.errNomem, 0, 0), []) ∧
    (ran (.mbSetChannelCount 5) demo).channelTypes = List.replicate 32 0 := by decide +kernel

/-- T60. -/
theorem test_mbSetChannelType :
    gives (.mbSetChannelType 2 1) demo = (some (.errInvalid, 0, 0), []) ∧
    (ran (.mbSetChannelType 0 0x12345678) demo).channelTypes.take 2 = [0x5678, 0x200] := by
  decide +kernel

/-- T60, in the three compositions. -/
theorem test_mbChannel :
    gives (.mbChannel 1) demo = (some (.ok, 0x02000012, 0), []) ∧
    gives (.mbChannel 1) (demoIn .mono) = (some (.ok, 0x0200002A, 0), []) ∧
    gives (.mbChannel 1) (demoIn .silent) = (some (.ok, 0x0200003F, 0), []) := by decide +kernel

/-- T61. -/
theorem test_mbSetSampleRate :
    gives (.mbSetSampleRate 44100 1485) State.reset = (some (.errNomem, 0, 0), []) ∧
    (ran (.mbSetSampleRate 16384 20)
      (ran (.mbClockRate 2147483647) State.reset)).right =
        { BufferUnit.reset with
          clockRate := 2147483647, sampleRate := 16384, lengthMs := 20, lengthSet := true
          factor := 1, bufferSize := 363, bassShift := 7 } := by decide +kernel

/-- T61. -/
theorem test_mbClockRate :
    gives (.mbClockRate 0) demo = (some (.errInvalid, 0, 0), []) ∧
    (ran (.mbClockRate 1789773) demo).left.factor = 1615 := by decide +kernel

/-- T63, T64: MONO drives C alone, SILENT no unit. -/
theorem test_mbBassFreq :
    ((ran (.mbBassFreq 16) (demoIn .mono)).left.bassShift,
      (ran (.mbBassFreq 16) (demoIn .mono)).center.bassShift,
      (ran (.mbBassFreq 16) (demoIn .silent)).center.bassShift) = (31, 9, 31) := by decide +kernel

/-- R217. -/
theorem test_mbClear :
    (ran .mbClear { demo with samplesRead := 4 }).samplesRead = 0 ∧
    (ran .mbClear demo).right = { pcmUnit [] with offset := 0, lastNonSilence := 0 } := by
  decide +kernel

/-- T62: no unit moves when one would overflow. -/
theorem test_mbEndFrame :
    (ran (.mbEndFrame 20) demo).center.offset = 0x180000 ∧
    ran (.mbEndFrame 924) demo = demo.faulted .frameOverflow := by decide +kernel

/-- P2 step 20: five samples are two pairs; T63: MONO reads C. -/
theorem test_mbReadSamples :
    gives (.mbReadSamples 5) demo = (some (.ok, 4, 4), [110, 100, 110, 120]) ∧
    gives (.mbReadSamples 3) (demoIn .mono) = (some (.ok, 3, 3), [100, 100, 100]) := by
  decide +kernel

/-- P2 step 18. -/
theorem test_mbSamplesAvail :
    gives .mbSamplesAvail demo = (some (.ok, 8, 0), []) ∧
    gives .mbSamplesAvail (demoIn .silent) = (some (.ok, 0, 0), []) := by decide +kernel

/-- P2 step 4. -/
theorem test_mbChanged : gives .mbChanged demo = (some (.ok, 2, 0), []) := by decide +kernel

/-- T70; P5 step 5: GET_STATUS works while a fault is recorded, SAMPLES_AVAIL does not. -/
theorem test_getStatus :
    gives .getStatus { nes with samplesRead := 4 } = (some (.ok, 0x400000100, 0), []) ∧
    gives .getStatus nesFaulted = (some (.ok, 0x102, 0), []) ∧
    gives (.samplesAvail .center) nesFaulted = (some (.errFaulted, 2, 0), []) := by decide +kernel

/-! ### Witnesses: concrete inputs that meet the hypotheses of each statement together -/

/-- Every unit and register of a state whose synthesizer units are those of `demo` meets the invariant. -/
theorem synths_inv (k : Composition) :
    ∀ p ∈ (demoIn k).cfg.synths.zip (demoIn k).synths, SynthUnit.Inv (demoIn k).cfg p.1 p.2 := by
  intro p hp
  have hp : p = (.fast, ⟨some .left, 0x4000, 6, 0, []⟩) ∨
      p = (.full 2, ⟨some .center, 512, 100, 4096, kernel2⟩) ∨
      p = (.fast, ⟨some .right, 0x4000, 20, 0, []⟩) ∨ p = (.full 4, .reset) := by
    simpa [demoIn, demo, Config.default] using hp
  rcases hp with rfl | rfl | rfl | rfl
  · exact rfl
  · exact .inr ⟨by cases k <;> decide +kernel, by decide +kernel⟩
  · exact rfl
  · exact .inl rfl

theorem demoIn_inv (k : Composition) : (demoIn k).Inv := by
  refine ⟨?_, ?_, ?_, ?_, ?_, synths_inv k, ?_, ?_, ?_⟩ <;> cases k <;> decide +kernel

theorem demo_inv : demo.Inv := demoIn_inv .stereo

theorem demoWith_inv (fs : List Input) : (demoWith fs).Inv := demo_inv

/-- A frame that is legal: `SYN_UPDATE s0, 0, 100`. -/
def legal : Frame := Frame.ofWords 0x00004024 0 100

/-- A frame that is not: a unit number of NSYNTH. -/
def illegal : Frame := Frame.ofWords 0x00000421 0 0

theorem illegal_header : illegalHeader .default illegal.header.toNat := by
  have h : illegal.header.toNat = 0x421 := by decide +kernel
  rw [h]
  simp [illegalHeader, opcodesOf, Config.nsynth, Config.default]

theorem witness_DecodeEncodeAgree :
    Instr.wellFormed .default (.synUpdate 3 (.explicit none) 0xFFFFFFFF 0x80000000) = true := by decide

theorem witness_DecodedCommandReencodes :
    decodeFrame .default legal = .ok (.synUpdate 0 .routed 0 100) ∧
    (Instr.synUpdate 0 .routed 0 100).usesA = true ∧
    (Instr.synUpdate 0 .routed 0 100).usesB = true := ⟨rfl, rfl, rfl⟩

/-- `SET_LENGTH C, 20` uses A and not B: every B is admitted. -/
theorem witness_UnusedWordsAreIgnored :
    decodeFrame .default (Frame.ofWords 0x00000211 20 0) = .ok (.setLength .center 20) ∧
    ((Instr.setLength .center 20).usesA = true →
      (20 : Word) = Frame.operandA (Frame.ofWords 0x00000211 20 0)) ∧
    ((Instr.setLength .center 20).usesB = true →
      (0xFFFFFFFF : Word) = Frame.operandB (Frame.ofWords 0x00000211 20 0)) :=
  ⟨rfl, by decide +kernel, by decide⟩

/-- A well-formed command, the last offset in a word and in `val`, and the last of some samples. -/
theorem witness_ByteFormRoundTrip :
    Instr.wellFormed .default (.setRates .center 1789773 44100) = true ∧
    (3 < 4 ∧ 7 < 8) ∧ [(5 : Sample), 0x8000][1]? = some 0x8000 := by decide

theorem witness_IllegalFramesAreAnswered :
    (demoWith [.frame illegal, .frame legal]).pending = .frame illegal :: [.frame legal] ∧
    illegalHeader (demoWith [.frame illegal]).cfg illegal.header.toNat := ⟨rfl, illegal_header⟩

/-- A header no row matches, a row that matches one, and a frame that decodes. -/
theorem witness_TableRowsSelectCommands :
    (∀ p ∈ tableRows, Frame.header (Frame.ofWords 0x0000001E 0 0) &&& p.2 ≠ p.1) ∧
    (((0x24, 0xFFFF80FF) : Word × Word) ∈ tableRows ∧
      legal.header &&& (0xFFFF80FF : Word) = (0x24 : Word)) ∧
    decodeFrame .default legal = .ok (.synUpdate 0 .routed 0 100) :=
  ⟨fun p hp => by
      have h : tableRows.all
          (fun p => decide (Frame.header (Frame.ofWords 0x0000001E 0 0) &&& p.2 ≠ p.1)) = true := by
        decide +kernel
      exact of_decide_eq_true (List.all_eq_true.mp h p hp),
    ⟨by decide +kernel, by decide +kernel⟩, rfl⟩

theorem witness_StepRunsDecodedCommand :
    (demoWith [.frame legal]).pending = .frame legal :: [] ∧
    decodeFrame (demoWith [.frame legal]).cfg legal = .ok (.synUpdate 0 .routed 0 100) := ⟨rfl, rfl⟩

theorem witness_ResetEventAndIdleStep :
    (demoWith [.reset, .frame legal]).pending = .reset :: [.frame legal] ∧ demo.pending = [] :=
  ⟨rfl, rfl⟩

theorem witness_ResetSatisfiesInvariant : Config.default.valid = true := by decide

/-- A step of the invariant that deposits, and one that takes a fault. -/
theorem witness_StepKeepsInvariant :
    (demoWith [.frame legal]).Inv ∧
    step (demoWith [.frame legal]) = .next (ran (.synUpdate 0 .routed 0 100) (demoWith [])) ∧
    step (demoWith [.frame (Frame.ofWords 0x00000216 924 0)]) = .next (demo.faulted .frameOverflow) :=
  ⟨demoWith_inv _, step_eq (by decide +kernel), step_eq (by decide +kernel)⟩

/-- Reset, then `GET_STATUS` presented and taken. -/
theorem witness_ReachableStatesMeetR26 :
    Config.default.valid = true ∧
    Reachable .default (ran .getStatus State.reset) :=
  ⟨by decide, .step _ _ (.present _ (.frame (Frame.ofWords 0x7E 0 0)) .reset)
    (step_eq (by decide +kernel))⟩

/-- `demo` with a fault recorded and a frame presented. -/
def demoFaulted : State := { demo with sysFault := 2, pending := [.frame legal] }

/-- One frame for each of the four ways: OK, a reported error, a fault, a refusal. -/
theorem witness_CommandEndsInOneOfFourWays :
    ((demoWith [.frame legal]).Inv ∧
      step (demoWith [.frame legal]) = .next (ran (.synUpdate 0 .routed 0 100) demo) ∧
      gives (.synUpdate 0 .routed 0 100) demo = (some (.ok, 0, 0), [])) ∧
    step (demoWith [.frame illegal]) = .next (demo.errored .errIllegal) ∧
    step (demoWith [.frame (Frame.ofWords 0x00000216 924 0)]) =
      .next (demo.faulted .frameOverflow) ∧
    (demoFaulted.Inv ∧ demoFaulted.pending = .frame legal :: [] ∧
      step demoFaulted =
        .next { demo with sysFault := 2, response := some ⟨.errFaulted, 2, 0⟩ }) :=
  ⟨⟨demoWith_inv _, step_eq (by decide +kernel), by decide +kernel⟩, step_eq (by decide +kernel),
    step_eq (by decide +kernel),
    (let ⟨h1, h2, h3, h4, h5, h6, h7, h8, _⟩ := demo_inv; ⟨h1, h2, h3, h4, h5, h6, h7, h8, by decide⟩),
    rfl, step_eq (by decide +kernel)⟩

/-- Each clause: a command while a fault is recorded, an illegal frame then, and the step of each. -/
theorem witness_FaultIsSticky :
    (Instr.clear .center ≠ .getStatus ∧ nesFaulted.sysFault ≠ 0) ∧
    ({ nesFaulted with pending := [.frame illegal] }.pending = .frame illegal :: [] ∧
      illegalHeader nesFaulted.cfg illegal.header.toNat) ∧
    step { nesFaulted with pending := [.frame legal] } =
      .next { nesFaulted with response := some ⟨.errFaulted, 2, 0⟩ } ∧
    step { nesFaulted with pending := [.reset] } = .next State.reset :=
  ⟨⟨by decide, by decide⟩, ⟨rfl, illegal_header⟩, step_eq (by decide +kernel),
    step_eq (by decide +kernel)⟩

/-- One command of each kind: a query, a data command, a multi-buffer one, a synthesizer one. -/
theorem witness_CommandTouchesOnlyItsUnits :
    exec (.getFlags .left) demo = .next (ran (.getFlags .left) demo) ∧
    exec (.readPairs 4) demo = .next (ran (.readPairs 4) demo) ∧
    exec (.mbEndFrame 20) demo = .next (ran (.mbEndFrame 20) demo) ∧
    exec (.synUpdate 0 .routed 0 9) demo = .next (ran (.synUpdate 0 .routed 0 9) demo) := by
  refine ⟨exec_ran ?_, exec_ran ?_, exec_ran ?_, exec_ran ?_⟩ <;> decide +kernel

/-- For each clause a command that answers a next state and changes the register. -/
theorem witness_BufferRegistersWrittenBy :
    (ran (.setRates .left 48000 48000) demo).left.clockRate ≠ demo.left.clockRate ∧
    (ran (.setRates .left 48000 48000) demo).left.sampleRate ≠ demo.left.sampleRate ∧
    (ran (.setLength .left 30) demo).left.lengthMs ≠ demo.left.lengthMs ∧
    (ran (.bassFreq .left 16) demo).left.bassFreq ≠ demo.left.bassFreq ∧
    (ran (.setLength .left 30) demo).left.bufferSize ≠ demo.left.bufferSize ∧
    (ran (.bassFreq .left 16) demo).left.bassShift ≠ demo.left.bassShift ∧
    (ran (.endFrame .left 1) demo).left.offset ≠ demo.left.offset ∧
    (ran (.readSamples .left 1) demo).left.readerAccum ≠ demo.left.readerAccum ∧
    (ran (.deposit .left 0 1) demo).left.modified ≠ demo.left.modified ∧
    (ran (.deposit .left 0 1) demo).left.delta ≠ demo.left.delta := by decide +kernel

/-- That those commands answer a next state. -/
theorem witness_BufferRegistersWrittenBy_next :
    [Instr.setRates .left 48000 48000, .setLength .left 30, .bassFreq .left 16, .endFrame .left 1,
      .readSamples .left 1, .deposit .left 0 1].all (fun i => answers i demo) = true := by
  decide +kernel

/-- For each clause a command that answers a next state and changes the register. -/
theorem witness_OtherRegistersWrittenBy :
    (ran (.synOutput 0 none) demo).synths[0]?.map SynthUnit.out ≠
      demo.synths[0]?.map SynthUnit.out ∧
    (ran (.synVolume 0 1 0) demo).synths[0]?.map SynthUnit.deltaFactor ≠
      demo.synths[0]?.map SynthUnit.deltaFactor ∧
    (ran (.synSetAmp 0 1) demo).synths[0]?.map SynthUnit.lastAmp ≠
      demo.synths[0]?.map SynthUnit.lastAmp ∧
    (ran (.synVolume 1 512 3) demo).synths[1]?.map SynthUnit.taps ≠
      demo.synths[1]?.map SynthUnit.taps ∧
    (ran (.readPairs 4) demo).samplesRead ≠ demo.samplesRead ∧
    (ran (.mbSetChannelCount 5) demo).channelCount ≠ demo.channelCount ∧
    (ran (.mbSetChannelType 0 5) demo).channelTypes ≠ demo.channelTypes ∧
    (ran (.mbSetSampleRate 48000 20) demo).mbSampleRate ≠ demo.mbSampleRate ∧
    (ran (.mbSetChannelType 0 5) demo).changedCount ≠ demo.changedCount ∧
    (ran (.endFrame .left 924) demo).sysFault ≠ demo.sysFault := by decide +kernel

/-- That those commands answer a next state. -/
theorem witness_OtherRegistersWrittenBy_next :
    [Instr.synOutput 0 none, .synVolume 0 1 0, .synSetAmp 0 1, .synVolume 1 512 3, .readPairs 4,
      .mbSetChannelCount 5, .mbSetChannelType 0 5, .mbSetSampleRate 48000 20,
      .endFrame .left 924].all (fun i => answers i demo) = true := by decide +kernel

/-- A removal, a read of 0, a reconfiguration and a SYN_VOLUME of shift 0 on a FULL unit. -/
theorem witness_ListedCommandsAreIdempotent :
    [Instr.removeAllSamples .left, .mbReadSamples 0, .mbSetSampleRate 48000 20, .synVolume 1 9 0].all
      (fun i => i.idempotent && answers i demo) = true := by decide +kernel

/-! #### Buffer configuration -/

theorem witness_RatioRoundsToNearest :
    (0 < 1 ∧ 0 < 65535) ∧ representable 1 = true ∧ representable (2 ^ 32 - 1) = true ∧
    representable 0 = false ∧ representable (2 ^ 32) = false := by decide

/-- Each clause at the edge of its range: freq 0 and 1, f0 = 0, and f0 = 2^13 and 2^14 − 1. -/
theorem witness_BassShiftCountsHalvings :
    (0 < 44100 ∧ (0 : Int) ≤ 0) ∧
    ((0 : Int) < 1 ∧ (1 : Int).toNat * 65536 / 65537 = 0) ∧
    ((0 : Int) < 8192 ∧ 2 ^ 13 ≤ (8192 : Int).toNat * 65536 / 65536 ∧
      (8192 : Int).toNat * 65536 / 65536 < 2 ^ (13 + 1)) ∧
    ((0 : Int) < 16384 ∧ 2 ^ 14 ≤ (16384 : Int).toNat * 65536 / 65536 ∧
      (16384 : Int).toNat * 65536 / 65536 < 2 ^ (14 + 1)) := by decide

/-- A unit whose length makes SZ(65517, 999) = 65535 = BUF_CAPACITY, and SZ(65518, 999) one more. -/
def edge : State :=
  { State.reset with center := { BufferUnit.reset with lengthMs := 999, lengthSet := true } }

theorem witness_SetRatesReconfigures :
    edge.sysFault = 0 ∧ edge.cfg.valid = true ∧
    0 < (1 : Word).toInt ∧ 0 < (65517 : Word).toInt ∧
    representable (ratio edge.cfg 1 65517) = true ∧
    ((edge.buf .center).lengthSet = true →
      sizeFor edge.cfg 65517 (edge.buf .center).lengthMs.toNat ≤ edge.cfg.bufCapacity) := by decide

theorem witness_SetLengthReconfigures :
    nes.sysFault = 0 ∧ nes.cfg.valid = true ∧ (nes.buf .center).Inv nes.cfg ∧
    sizeFor nes.cfg (nes.buf .center).sampleRate.toNat (1484 : Word).toNat ≤ nes.cfg.bufCapacity := by
  decide +kernel

theorem witness_BassFreqAndClear : demo.sysFault = 0 := rfl

/-- The causes of R252, each at the edge: rates of 0, ratios 2^32 and 0, sizes of 65536 slots. -/
theorem witness_ReportedErrors :
    ((0 : Word).toInt ≤ 0 ∨ (1 : Word).toInt ≤ 0) ∧
    representable (ratio edge.cfg (1 : Word).toNat (65536 : Word).toNat) = false ∧
    ((0 : Int) < (2 : Word).toInt ∧ 0 < (65518 : Word).toInt ∧
      representable (ratio edge.cfg (2 : Word).toNat (65518 : Word).toNat) = true ∧
      (edge.buf .center).lengthSet = true ∧
      edge.cfg.bufCapacity <
        sizeFor edge.cfg (65518 : Word).toNat (edge.buf .center).lengthMs.toNat) ∧
    nes.cfg.bufCapacity <
      sizeFor nes.cfg (nes.buf .center).sampleRate.toNat (1485 : Word).toNat ∧
    (0 < (65518 : Word).toInt ∧ activeSet demo.cfg ≠ [] ∧
      demo.cfg.bufCapacity < sizeFor demo.cfg (65518 : Word).toNat (999 : Word).toNat) ∧
    demo.sysFault = 0 ∧ edge.sysFault = 0 ∧ nes.sysFault = 0 := by decide +kernel

/-- A unit at the clock rate 2147483647, for which no rate up to 16383 is representable. -/
def fastClock : State :=
  { demo with right := { pcmUnit [] with clockRate := 2147483647, sampleRate := 0, factor := 0 } }

/-- A unit at the rate 65536, with which the clock 1 gives the ratio 2^32. -/
def fastRate : State :=
  { demo with right := { pcmUnit [] with clockRate := 0, sampleRate := 65536, factor := 0 } }

theorem witness_ReportedErrors_multi :
    (0 < (16383 : Word).toInt ∧
      sizeFor fastClock.cfg (16383 : Word).toNat (20 : Word).toNat ≤ fastClock.cfg.bufCapacity ∧
      ∃ b ∈ activeSet fastClock.cfg, 0 < (fastClock.buf b).clockRate.toNat ∧
        representable
          (ratio fastClock.cfg (fastClock.buf b).clockRate.toNat (16383 : Word).toNat) = false) ∧
    (∃ b ∈ activeSet fastRate.cfg, 0 < (fastRate.buf b).sampleRate.toNat ∧
      representable
        (ratio fastRate.cfg (1 : Word).toNat (fastRate.buf b).sampleRate.toNat) = false) ∧
    demo.channelCount.toNat ≤ (2 : Word).toNat ∧ demo.cfg.maxChannels < (33 : Word).toNat :=
  ⟨⟨by decide, by decide, .right, by decide, by decide, by decide +kernel⟩,
    ⟨.right, by decide, by decide, by decide +kernel⟩, by decide, by decide⟩

/-- SYN_VOLUME: a shift of 32 on a FAST unit; a shift of 13 makes the kernel of 4096 vanish. -/
theorem witness_ReportedErrors_volume :
    (hasSynth demo 0 .fast ⟨some .left, 0x4000, 6, 0, []⟩ ∧ 31 < (32 : Word).toNat) ∧
    hasSynth demo 1 (.full 2) ⟨some .center, 512, 100, 4096, kernel2⟩ ∧
    (∃ w, SynthKind.full 2 = .full w) ∧ 0 < (13 : Word).toNat ∧
    (4096 : Word).toNat / 2 ^ (13 : Word).toNat = 0 :=
  ⟨⟨⟨rfl, rfl⟩, by decide⟩, ⟨rfl, rfl⟩, ⟨2, rfl⟩, by decide, by decide⟩

/-- A command that ends in each of the two statuses, with its response. -/
theorem witness_ReportedErrors_status :
    exec (.mbChannel 2) demo = .next (demo.errored .errInvalid) ∧
    exec (.mbSetChannelCount 33) demo = .next (demo.errored .errNomem) ∧
    (demoWith [.frame illegal]).pending = .frame illegal :: [] ∧
    illegalHeader (demoWith [.frame illegal]).cfg illegal.header.toNat :=
  ⟨exec_eq (by decide +kernel) (by decide +kernel), exec_eq (by decide +kernel) (by decide +kernel),
    rfl, illegal_header⟩

/-! #### Time, deposit, read -/

theorem witness_FlagsAndAvailability : demo.sysFault = 0 := rfl

theorem witness_ToFixedIsExact : nesFrame.sysFault = 0 := rfl

theorem witness_ToFixedIsMonotone :
    nesFrame.sysFault = 0 ∧ (0 : Word).toNat ≤ (0xFFFFFFFF : Word).toNat := by decide

/-- The last slot in use. -/
theorem witness_DepositAddsIntoOneSlot :
    nes.sysFault = 0 ∧ nes.cfg.valid = true ∧ (nes.buf .center).Inv nes.cfg ∧
    (nes.buf .center).configured = true ∧
    slotOf nes.cfg (0x03B0FFFF : Word).toNat < (nes.buf .center).bufferSize.toNat := by decide +kernel

/-- A frame that reaches NOMINAL exactly, with a deposit before it and without. -/
theorem witness_EndFrameAdvances :
    nes.sysFault = 0 ∧ nes.cfg.valid = true ∧ (nes.buf .center).Inv nes.cfg ∧
    (nes.buf .center).configured = true ∧
    slotOf nes.cfg ((nes.buf .center).toFixed (37657 : Word).toNat) =
      (nes.buf .center).nominal nes.cfg ∧
    (nes.buf .center).modified = false ∧
    ((ran (.deposit .center 0 0) nes).buf .center).modified = true ∧
    ((ran (.deposit .center 0 0) nes).buf .center).Inv nes.cfg := by decide +kernel

/-- Each clause at its edge: an unconfigured unit; slot 945; 37658 ticks; 734 of 733 samples; one sample
of a slot that is not 0. -/
theorem witness_BufferCommandFaults :
    nes.sysFault = 0 ∧ nesFrame.sysFault = 0 ∧
    ¬ (nes.buf .left).configured = true ∧
    ((nes.buf .center).configured = true ∧
      (nes.buf .center).bufferSize.toNat ≤ slotOf nes.cfg (0x03B10000 : Word).toNat) ∧
    (nes.buf .center).nominal nes.cfg <
      slotOf nes.cfg ((nes.buf .center).toFixed (37658 : Word).toNat) ∧
    ((nesFrame.buf .center).configured = true ∧
      (nesFrame.buf .center).samplesAvail nesFrame.cfg < (734 : Word).toNat) ∧
    (1 : Word).toNat ≤ (nesFrame.buf .center).samplesAvail nesFrame.cfg ∧
    ∃ j < (1 : Word).toNat, Memory.read (nesFrame.buf .center).delta j ≠ 0 := by decide +kernel

theorem witness_ReadSamplesIntegrates :
    demo.sysFault = 0 ∧ demo.cfg.valid = true ∧ (demo.buf .center).Inv demo.cfg ∧
    (demo.buf .center).configured = true ∧
    4 = min (0xFFFFFFFF : Word).toNat ((demo.buf .center).samplesAvail demo.cfg) := by decide +kernel

/-- All four samples; and the leading slot of R, which is 0. -/
theorem witness_RemovalsDrain :
    demo.sysFault = 0 ∧ demo.cfg.valid = true ∧ (demo.buf .right).Inv demo.cfg ∧
    (demo.buf .right).configured = true ∧
    (4 : Word).toNat ≤ (demo.buf .right).samplesAvail demo.cfg ∧
    (1 : Word).toNat ≤ (demo.buf .right).samplesAvail demo.cfg ∧
    ∀ j < (1 : Word).toNat, Memory.read (demo.buf .right).delta j = 0 := by decide +kernel

theorem witness_ReadAndRemoveAgree :
    demo.sysFault = 0 ∧ demo.cfg.valid = true ∧ (demo.buf .right).Inv demo.cfg ∧
    (demo.buf .right).configured = true ∧
    (1 : Word).toNat ≤ (demo.buf .right).samplesAvail demo.cfg ∧
    ∀ j < (1 : Word).toNat, Memory.read (demo.buf .right).delta j = 0 := by decide +kernel

/-- Unit L of P2: the accumulators are 10, 10, 6, 6 steps of 2^14. -/
theorem witness_SamplesAreRunningSums :
    demo.sysFault = 0 ∧ demo.cfg.valid = true ∧ (demo.buf .left).Inv demo.cfg ∧
    (demo.buf .left).configured = true ∧ (demo.buf .left).bassShift = 31 ∧
    (demo.buf .left).readerAccum = 0 ∧ answers (.readSamples .left 4) demo = true ∧
    4 = min (4 : Word).toNat ((demo.buf .left).samplesAvail demo.cfg) ∧
    (∀ k ≤ 4, 0 ≤ ((demo.buf .left).accumAt k).toInt) ∧ 3 < 4 := by decide +kernel

/-- Four zero slots, with the accumulators 10000 and −16384 and shift 9. -/
def decaying (a : Word) : State :=
  { nes with center := { nesUnit with readerAccum := a, offset := 0x41234 } }

theorem witness_DecayWithoutOvershoot :
    (decaying 10000).sysFault = 0 ∧ (decaying 10000).cfg.valid = true ∧
    ((decaying 10000).buf .center).Inv (decaying 10000).cfg ∧
    ((decaying 10000).buf .center).configured = true ∧
    (∀ j < ((decaying 10000).buf .center).samplesAvail (decaying 10000).cfg,
      Memory.read ((decaying 10000).buf .center).delta j = 0) ∧
    answers (.readSamples .center 4) (decaying 10000) = true ∧
    0 ≤ ((decaying 10000).buf .center).readerAccum.toInt := by decide +kernel

theorem witness_DecayWithoutOvershoot_negative :
    (decaying (-16384)).sysFault = 0 ∧ (decaying (-16384)).cfg.valid = true ∧
    ((decaying (-16384)).buf .center).Inv (decaying (-16384)).cfg ∧
    ((decaying (-16384)).buf .center).configured = true ∧
    (∀ j < ((decaying (-16384)).buf .center).samplesAvail (decaying (-16384)).cfg,
      Memory.read ((decaying (-16384)).buf .center).delta j = 0) ∧
    answers (.readSamples .center 4) (decaying (-16384)) = true ∧
    ((decaying (-16384)).buf .center).readerAccum.toInt < 0 := by decide +kernel

/-! #### Synthesizers -/

theorem witness_SynOutputAndSetAmp :
    demo.sysFault = 0 ∧ hasSynth demo 3 (.full 4) .reset := ⟨rfl, rfl, rfl⟩

theorem witness_SynTrebleEqRebuilds :
    Config.default.valid = true ∧ demo.cfg = .default ∧ demo.sysFault = 0 ∧
    hasSynth demo 0 .fast ⟨some .left, 0x4000, 6, 0, []⟩ ∧ hasSynth demo 3 (.full 4) .reset :=
  ⟨by decide, rfl, rfl, ⟨rfl, rfl⟩, ⟨rfl, rfl⟩⟩

/-- A FAST unit with shift 31, and a FULL unit with shift 0. -/
theorem witness_SynVolumeSetsFactor :
    demo.sysFault = 0 ∧ hasSynth demo 0 .fast ⟨some .left, 0x4000, 6, 0, []⟩ ∧
    (31 : Word).toNat ≤ 31 ∧ hasSynth demo 3 (.full 4) .reset ∧ (0 : Word).toNat ≤ 31 :=
  ⟨rfl, ⟨rfl, rfl⟩, by decide, ⟨rfl, rfl⟩, by decide⟩

/-- The largest shift that leaves the kernel of 4096 one unit. -/
theorem witness_SynVolumeRescales :
    demo.sysFault = 0 ∧ demo.Inv ∧
    hasSynth demo 1 (.full 2) ⟨some .center, 512, 100, 4096, kernel2⟩ ∧
    1 ≤ (12 : Word).toNat ∧ (12 : Word).toNat ≤ 31 ∧
    (4096 : Word).toNat / 2 ^ (12 : Word).toNat ≠ 0 :=
  ⟨rfl, demo_inv, ⟨rfl, rfl⟩, by decide, by decide, by decide⟩

theorem witness_SynTargetNone :
    demo.sysFault = 0 ∧ hasSynth demo 0 .fast ⟨some .left, 0x4000, 6, 0, []⟩ ∧
    hasSynth demo 3 (.full 4) .reset ∧ SynthUnit.reset.out = none := ⟨rfl, ⟨rfl, rfl⟩, ⟨rfl, rfl⟩, rfl⟩

/-- A FULL unit ROUTED to C at the last tick whose slot, 926, is below NOMINAL. -/
theorem witness_SynOffsetDeposits :
    demo.sysFault = 0 ∧ demo.Inv ∧
    hasSynth demo 1 (.full 2) ⟨some .center, 512, 100, 4096, kernel2⟩ ∧
    (BufSel.routed = .routed ∧ (some BufUnit.center : Route) = some .center) ∧
    (demo.buf .center).configured = true ∧ (4096 : Word) ≠ 0 ∧
    slotOf demo.cfg ((demo.buf .center).toFixed (922 : Word).toNat) = 926 ∧
    926 < (demo.buf .center).nominal demo.cfg :=
  ⟨rfl, demo_inv, ⟨rfl, rfl⟩, ⟨rfl, rfl⟩, by decide, by decide, by decide +kernel,
    by decide +kernel⟩

/-- A FAST unit with an explicit target. -/
theorem witness_SynUpdateDeposits :
    demo.sysFault = 0 ∧ demo.Inv ∧ hasSynth demo 0 .fast ⟨some .left, 0x4000, 6, 0, []⟩ ∧
    (demo.buf .right).configured = true ∧
    slotOf demo.cfg ((demo.buf .right).toFixed (922 : Word).toNat) <
      (demo.buf .right).nominal demo.cfg :=
  ⟨rfl, demo_inv, ⟨rfl, rfl⟩, by decide, by decide +kernel⟩

/-- The three causes: L of `nes` is not configured; s3 has no kernel; tick 923 is slot 927. -/
theorem witness_SynFaults :
    (nes.sysFault = 0 ∧ hasSynth nes 0 .fast .reset ∧ ¬ (nes.buf .left).configured = true) ∧
    (demo.sysFault = 0 ∧ hasSynth demo 3 (.full 4) .reset ∧
      (demo.buf .center).configured = true ∧ SynthUnit.reset.kernelUnit = 0) ∧
    hasSynth demo 0 .fast ⟨some .left, 0x4000, 6, 0, []⟩ ∧
    (demo.buf .left).nominal demo.cfg =
      slotOf demo.cfg ((demo.buf .left).toFixed (923 : Word).toNat) :=
  ⟨⟨rfl, ⟨rfl, rfl⟩, by decide⟩, ⟨rfl, ⟨rfl, rfl⟩, by decide, rfl⟩, ⟨rfl, rfl⟩, by decide +kernel⟩

/-- A deposit of s1 into C, and one of s0 into L, each ending OK. -/
theorem witness_DepositedSumIsGain :
    demo.Inv ∧ hasSynth demo 1 (.full 2) ⟨some .center, 512, 100, 4096, kernel2⟩ ∧
    exec (.synOffset 1 .routed 30 (-60)) demo = .next (ran (.synOffset 1 .routed 30 (-60)) demo) ∧
    endsOk demo (ran (.synOffset 1 .routed 30 (-60)) demo) :=
  ⟨demo_inv, ⟨rfl, rfl⟩, exec_ran (by decide +kernel),
    ⟨0, 0, [], by decide +kernel, by decide +kernel, rfl, by decide +kernel⟩⟩

/-- The widest default kernel at the last base slot; and a deposit of it that changes a slot. -/
theorem witness_DepositsStayInsideBuffer :
    Config.default.valid = true ∧ (demo.buf .center).Inv .default ∧
    SynthKind.full 4 ∈ Config.default.synths ∧ 926 < (demo.buf .center).nominal .default ∧
    demo.Inv ∧ answers (.synOffset 1 .routed 922 1) demo = true ∧
    Memory.read ((ran (.synOffset 1 .routed 922 1) demo).buf .center).delta 933 ≠
      Memory.read (demo.buf .center).delta 933 :=
  ⟨by decide, by decide +kernel, by decide, by decide, demo_inv, by decide +kernel, by decide +kernel⟩

theorem witness_VolumeIsNotRetroactive :
    exec (.synVolume 1 9 3) demo = .next (ran (.synVolume 1 9 3) demo) ∧
    exec (.synTrebleEq 0 5) demo = .next (ran (.synTrebleEq 0 5) demo) :=
  ⟨exec_ran (by decide +kernel), exec_ran (by decide +kernel)⟩

/-- A raw deposit and a synthesized one into the same slot of C, each ending OK. -/
theorem witness_DepositsCommute :
    demo.Inv ∧
    exec (.deposit .center 0x40000 5) demo = .next (ran (.deposit .center 0x40000 5) demo) ∧
    endsOk demo (ran (.deposit .center 0x40000 5) demo) ∧
    exec (.synOffset 0 (.explicit (some .center)) 0 7) demo =
      .next (ran (.synOffset 0 (.explicit (some .center)) 0 7) demo) ∧
    endsOk demo (ran (.synOffset 0 (.explicit (some .center)) 0 7) demo) :=
  ⟨demo_inv, exec_ran (by decide +kernel),
    ⟨0, 0, [], by decide +kernel, by decide +kernel, rfl, by decide +kernel⟩,
    exec_ran (by decide +kernel),
    ⟨0, 0, [], by decide +kernel, by decide +kernel, rfl, by decide +kernel⟩⟩

/-! #### Tracking, mixer, multi-buffer, system -/

theorem witness_NonSilentAnswer : demo.sysFault = 0 := rfl

/-- `demo` is covered for a frame of 20 ticks; a deposit at tick 20, the END_FRAME of 20 ticks after it,
and a read. -/
theorem tracked (d : Nat) (b : BufUnit) : (demo.buf b).TrackedUpTo demo.cfg d := by
  refine ⟨by cases b <;> decide +kernel, fun j hj => .inl ?_⟩
  have h : ∀ p ∈ (demo.buf b).delta, p.1 < (demo.buf b).lastNonSilence.toNat := by
    cases b <;> decide +kernel
  by_contra hn
  exact hj (Memory.read_eq_zero_of_forall fun p hp e => hn (e ▸ h p hp))

theorem witness_TrackingGuarantee :
    demo.Inv ∧ (demo.buf .left).TrackedUpTo demo.cfg (20 : Word).toNat ∧
    (20 : Word).toNat ≤ (20 : Word).toNat ∧
    exec (.synUpdate 0 .routed 20 9) demo = .next (ran (.synUpdate 0 .routed 20 9) demo) ∧
    exec (.endFrame .left 20) demo = .next (ran (.endFrame .left 20) demo) ∧
    endsOk demo (ran (.endFrame .left 20) demo) ∧
    exec (.readSamples .left 2) demo = .next (ran (.readSamples .left 2) demo) :=
  ⟨demo_inv, tracked _ _, le_rfl, exec_ran (by decide +kernel), exec_ran (by decide +kernel),
    ⟨0, 0, [], by decide +kernel, by decide +kernel, rfl, by decide +kernel⟩,
    exec_ran (by decide +kernel)⟩

theorem demo_configured (b : BufUnit) : (demo.buf b).configured = true := by cases b <;> decide

theorem witness_ReadPairsMixes :
    demo.sysFault = 0 ∧ demo.Inv ∧ (∀ b, (demo.buf b).configured = true) ∧
    3 = min (3 : Word).toNat (min (demo.left.samplesAvail demo.cfg)
      (min (demo.right.samplesAvail demo.cfg) (demo.center.samplesAvail demo.cfg))) :=
  ⟨rfl, demo_inv, demo_configured, by decide +kernel⟩

theorem witness_MixerEndStateIsRemoval :
    demo.sysFault = 0 ∧ demo.Inv ∧ (∀ b, (demo.buf b).configured = true) ∧
    (4 : Word).toNat = min (9 : Word).toNat (min (demo.left.samplesAvail demo.cfg)
      (min (demo.right.samplesAvail demo.cfg) (demo.center.samplesAvail demo.cfg))) ∧
    exec (.readPairs 9) demo = .next (ran (.readPairs 9) demo) :=
  ⟨rfl, demo_inv, demo_configured, by decide +kernel, exec_ran (by decide +kernel)⟩

/-- The largest count and the largest index. -/
theorem witness_ChannelSlots :
    demo.sysFault = 0 ∧ demo.Inv ∧ (32 : Word).toNat ≤ demo.cfg.maxChannels ∧
    (1 : Word).toNat < demo.channelCount.toNat := ⟨rfl, demo_inv, by decide, by decide⟩

theorem witness_MultiBufferRates :
    demo.sysFault = 0 ∧ demo.Inv ∧ 0 < (48000 : Word).toInt ∧
    (∀ b ∈ activeSet demo.cfg,
      sizeFor demo.cfg (48000 : Word).toNat (20 : Word).toNat ≤ demo.cfg.bufCapacity ∧
      (0 < (demo.buf b).clockRate.toNat → representable
        (ratio demo.cfg (demo.buf b).clockRate.toNat (48000 : Word).toNat) = true)) ∧
    0 < (1789773 : Word).toInt ∧
    (∀ b ∈ activeSet demo.cfg, 0 < (demo.buf b).sampleRate.toNat → representable
      (ratio demo.cfg (1789773 : Word).toNat (demo.buf b).sampleRate.toNat) = true) :=
  ⟨rfl, demo_inv, by decide, by decide +kernel, by decide, by decide +kernel⟩

/-- A frame that brings every active unit to NOMINAL exactly. -/
theorem witness_MultiBufferFansOut :
    demo.sysFault = 0 ∧ demo.Inv ∧
    ∀ b ∈ activeSet demo.cfg, (demo.buf b).configured = true ∧
      slotOf demo.cfg ((demo.buf b).toFixed (923 : Word).toNat) ≤ (demo.buf b).nominal demo.cfg :=
  ⟨rfl, demo_inv, by decide +kernel⟩

theorem witness_MultiBufferUnitwise :
    (demoIn .mono).sysFault = 0 ∧ (demoIn .mono).Inv ∧
    ∀ b ∈ activeSet (demoIn .mono).cfg, ((demoIn .mono).buf b).configured = true ∧
      slotOf (demoIn .mono).cfg (((demoIn .mono).buf b).toFixed (923 : Word).toNat) ≤
        ((demoIn .mono).buf b).nominal (demoIn .mono).cfg :=
  ⟨rfl, demoIn_inv _, by decide +kernel⟩

/-- In each composition. -/
theorem witness_MultiBufferReadPath (k : Composition) :
    (demoIn k).sysFault = 0 ∧ (demoIn k).Inv ∧
    ∀ b ∈ activeSet (demoIn k).cfg, ((demoIn k).buf b).configured = true :=
  ⟨rfl, demoIn_inv k, by cases k <;> decide +kernel⟩

/-- `demo` with R not configured. -/
def demoNoRight : State := { demo with right := .reset }

/-- A command that does not end OK; and for each further clause the unit R, second in order, failing. -/
theorem witness_MultiBufferIsAtomic :
    (Instr.mbEndFrame 924).isMultiBuffer = true ∧
    exec (.mbEndFrame 924) demo = .next (demo.faulted .frameOverflow) ∧
    activeSet demoNoRight.cfg = [.left] ++ .right :: [.center] ∧
    (∀ a ∈ [BufUnit.left], (demoNoRight.buf a).configured = true ∧
      slotOf demoNoRight.cfg ((demoNoRight.buf a).toFixed (0 : Word).toNat) ≤
        (demoNoRight.buf a).nominal demoNoRight.cfg) ∧
    ¬ (demoNoRight.buf .right).configured = true ∧ demoNoRight.cfg.composition ≠ .silent ∧
    (∀ a ∈ [BufUnit.left],
      sizeFor fastClock.cfg (16383 : Word).toNat (20 : Word).toNat ≤ fastClock.cfg.bufCapacity ∧
      (0 < (fastClock.buf a).clockRate.toNat → representable
        (ratio fastClock.cfg (fastClock.buf a).clockRate.toNat (16383 : Word).toNat) = true)) ∧
    representable
      (ratio fastClock.cfg (fastClock.buf .right).clockRate.toNat (16383 : Word).toNat) = false ∧
    representable
      (ratio fastRate.cfg (1 : Word).toNat (fastRate.buf .right).sampleRate.toNat) = false :=
  ⟨rfl, exec_eq (by decide +kernel) (by decide +kernel), rfl, by decide +kernel, by decide, by decide,
    by decide +kernel, by decide +kernel, by decide +kernel⟩

/-- The clauses of MB_END_FRAME and MB_SET_SAMPLE_RATE that fail on the first unit, with nothing before it. -/
theorem witness_MultiBufferIsAtomic_first :
    activeSet demo.cfg = [] ++ .left :: [.right, .center] ∧
    ((demo.buf .left).configured = true ∧ (demo.buf .left).nominal demo.cfg <
      slotOf demo.cfg ((demo.buf .left).toFixed (924 : Word).toNat)) ∧
    demo.cfg.bufCapacity < sizeFor demo.cfg (65518 : Word).toNat (999 : Word).toNat ∧
    ¬ endsOk demo (demo.faulted .frameOverflow) :=
  ⟨rfl, by decide +kernel, by decide, by
    rintro ⟨_, _, _, h, _⟩
    simp [State.faulted] at h⟩

end Sys2Proof.Tests
end

section
/-! PROOFS. The frame of a command (20_memory.md R61, R63; 30_encoding.md R82): which units it may
write, and what it appends to OUT. The frame of each shared operation is proved once; a command's
frame follows from the inversion law that says what its next state is. -/

namespace Sys2Proof.Machine

variable {s s' t : State} {bs : List BufUnit} {sel : Option SynthSel} {emits : Bool}

/-! ### The frame of an effect -/

/-- State `s'` is state `s` but for the buffer units of `bs`, the synthesizer unit `sel` names, and
registers of the mixer, the multi-buffer layer and the system. -/
structure WritesWithin (s s' : State) (bs : List BufUnit) (sel : Option SynthSel) : Prop where
  cfg : s'.cfg = s.cfg
  pending : s'.pending = s.pending
  buf : ∀ b, b ∉ bs → s'.buf b = s.buf b
  synths_length : s'.synths.length = s.synths.length
  synth : ∀ n, (∀ u, sel = some u → u.toNat ≠ n) → s'.synths[n]? = s.synths[n]?
  out : s'.out = s.out

theorem WritesWithin.refl (s : State) (bs : List BufUnit) (sel : Option SynthSel) :
    WritesWithin s s bs sel :=
  ⟨rfl, rfl, fun _ _ => rfl, rfl, fun _ _ => rfl, rfl⟩

theorem WritesWithin.setBuf {b : BufUnit} (h : WritesWithin s s' bs sel) (hb : b ∈ bs)
    (v : BufferUnit) : WritesWithin s (s'.setBuf b v) bs sel where
  cfg := by simpa using h.cfg
  pending := by simpa using h.pending
  buf b' hb' := by
    have hne : b' ≠ b := fun e => hb' (e ▸ hb)
    rw [State.buf_setBuf_of_ne hne, h.buf b' hb']
  synths_length := by simpa using h.synths_length
  synth := by simpa using h.synth
  out := by simpa using h.out

theorem WritesWithin.setSynth {u : SynthSel} (h : WritesWithin s s' bs (some u)) (r : SynthUnit) :
    WritesWithin s (s'.setSynth u r) bs (some u) where
  cfg := h.cfg
  pending := h.pending
  buf b hb := by rw [State.buf_setSynth, h.buf b hb]
  synths_length := by simpa using h.synths_length
  synth n hn := by
    rw [State.setSynth_synths, List.getElem?_set_ne (hn u rfl), h.synth n hn]
  out := h.out

/-- Updating each unit of a set that does not repeat writes only that set. -/
theorem WritesWithin.updateBufs (h : WritesWithin s s' bs sel) (hn : bs.Nodup)
    (f : BufferUnit → BufferUnit) : WritesWithin s (s'.updateBufs bs f) bs sel where
  cfg := by simpa using h.cfg
  pending := by simpa using h.pending
  buf b hb := by rw [State.buf_updateBufs hn, if_neg hb, h.buf b hb]
  synths_length := by simpa using h.synths_length
  synth := by simpa using h.synth
  out := by simpa using h.out

/-- The registers of the mixer, the multi-buffer layer and the system belong to no unit. -/
theorem WritesWithin.registers (h : WritesWithin s s' bs sel) {read rate ms changed : Word}
    {count : BitVec 16} {tags : List (BitVec 16)} {fault : BitVec 8} :
    WritesWithin s
      { s' with
        samplesRead := read
        channelCount := count
        channelTypes := tags
        mbSampleRate := rate
        mbLengthMs := ms
        changedCount := changed
        sysFault := fault } bs sel :=
  { h with buf := fun b hb => by rw [← h.buf b hb]; cases b <;> rfl }

/-! ### The frame of a command -/

/-- What a command that may write the units of `bs` and the synthesizer unit `sel` keeps, with its
one response and the samples it appends to OUT. -/
structure TouchesOnly (s t : State) (bs : List BufUnit) (sel : Option SynthSel) (emits : Bool) :
    Prop where
  cfg : t.cfg = s.cfg
  pending : t.pending = s.pending
  buf : ∀ b, b ∉ bs → t.buf b = s.buf b
  synths_length : t.synths.length = s.synths.length
  synth : ∀ n, (∀ u, sel = some u → u.toNat ≠ n) → t.synths[n]? = s.synths[n]?
  output : ∃ r xs, t.response = some r ∧ t.out = s.out ++ xs ∧
    r.nout = BitVec.ofNat 32 xs.length ∧ (emits = false → xs = [])

/-- An effect whose samples `xs` are counted by the response. -/
theorem WritesWithin.emitted (h : WritesWithin s s' bs sel) {status : Status} {val : BitVec 64}
    {xs : List Sample} {nout : Word} (hn : nout = BitVec.ofNat 32 xs.length)
    (he : emits = false → xs = []) (ht : t = (s'.emit xs).respond status val nout) :
    TouchesOnly s t bs sel emits := by
  subst ht
  refine ⟨h.cfg, h.pending, fun b hb => ?_, h.synths_length, h.synth, _, xs, rfl, ?_, hn, he⟩
  · rw [State.buf_respond, State.buf_emit, h.buf b hb]
  · rw [State.respond_out, State.emit_out, h.out]

/-- An effect that emits nothing, answered with `nout = 0`. -/
theorem WritesWithin.answered (h : WritesWithin s s' bs sel) {status : Status} {val : BitVec 64}
    (ht : t = s'.respond status val 0) : TouchesOnly s t bs sel emits :=
  h.emitted (xs := []) rfl (fun _ => rfl) (by simpa [State.emit] using ht)

theorem TouchesOnly.of_respond {status : Status} {val : BitVec 64}
    (ht : t = s.respond status val 0) : TouchesOnly s t bs sel emits :=
  (WritesWithin.refl s bs sel).answered ht

theorem TouchesOnly.of_setBuf {b : BufUnit} {v : BufferUnit} {status : Status} {val : BitVec 64}
    (ht : t = (s.setBuf b v).respond status val 0) : TouchesOnly s t [b] sel emits :=
  ((WritesWithin.refl s [b] sel).setBuf (List.mem_singleton_self b) v).answered ht

theorem TouchesOnly.of_setSynth {u : SynthSel} {r : SynthUnit} {status : Status} {val : BitVec 64}
    (ht : t = (s.setSynth u r).respond status val 0) : TouchesOnly s t bs (some u) emits :=
  ((WritesWithin.refl s bs (some u)).setSynth r).answered ht

/-- An error, a fault and a refusal touch nothing (60_exceptions.md R250). -/
theorem TouchesOnly.of_endsWithoutEffect (h : endsWithoutEffect s t) :
    TouchesOnly s t bs sel emits := by
  rcases h with ⟨_, _, ht⟩ | ⟨code, _, ht⟩ | ⟨_, ht⟩
  · exact .of_respond ht
  · have hw : WritesWithin s { s with sysFault := code.code } bs sel :=
      (WritesWithin.refl s bs sel).registers
    exact hw.answered ht
  · exact .of_respond ht

/-- The form of the inversion laws: no effect, or the effect the rule gives. -/
theorem TouchesOnly.of_next {P : Prop} (h : endsWithoutEffect s t ∨ s.sysFault = 0 ∧ P)
    (hP : P → TouchesOnly s t bs sel emits) : TouchesOnly s t bs sel emits := by
  rcases h with h | ⟨-, h⟩
  · exact .of_endsWithoutEffect h
  · exact hP h

/-! ### Reading and removing -/

theorem TouchesOnly.of_removesFrom {b : BufUnit} {n : Nat} {v : BitVec 64}
    (h : removesFrom s t b n v) : TouchesOnly s t [b] sel emits :=
  .of_setBuf h.2

theorem TouchesOnly.of_readsUnit {b : BufUnit} {n : Nat} (h : readsUnit s t b n) :
    TouchesOnly s t [b] sel true :=
  ((WritesWithin.refl s [b] sel).setBuf (List.mem_singleton_self b) _).emitted
    (by simp) (by simp) h.2

theorem TouchesOnly.of_readsPairs {k n : Nat} (h : readsPairs s t k n) :
    TouchesOnly s t [.left, .right, .center] sel true := by
  have hw : WritesWithin s { s with
      left := s.left.drain s.cfg n
      right := s.right.drain s.cfg n
      center := s.center.drain s.cfg n
      samplesRead := BitVec.ofNat 32 n } [.left, .right, .center] sel :=
    { WritesWithin.refl s [.left, .right, .center] sel with
      buf := fun b hb => absurd (by cases b <;> simp) hb }
  exact hw.emitted (by simp) (by simp) h.2

/-! ### Commands of several cases -/

/-- The unit SYN_OFFSET and SYN_UPDATE drive: the target of the unit they name (43_synth.md
R167). -/
theorem writtenUnits_target {u : SynthSel} {k : BufSel} {x d : Word} {kind : SynthKind}
    {r : SynthUnit} (h : hasSynth s u kind r) :
    writtenUnits s (.synOffset u k x d) = (targetOf r k).toList ∧
      writtenUnits s (.synUpdate u k x d) = (targetOf r k).toList := by
  simp [writtenUnits, h.2]

theorem execSynOffset_touchesOnly {u : SynthSel} {k : BufSel} {x d : Word}
    (h : execSynOffset u k x d s = .next t) :
    TouchesOnly s t (writtenUnits s (.synOffset u k x d)) (some u) false := by
  refine .of_next (execSynOffset_next h) ?_
  rintro ⟨kind, r, hr, ⟨-, ht⟩ | ⟨b, v, hb, -, -, ht⟩⟩
  · exact .of_respond ht
  · rw [(writtenUnits_target hr).1, hb]
    exact .of_setBuf ht

theorem execSynUpdate_touchesOnly {u : SynthSel} {k : BufSel} {x a : Word}
    (h : execSynUpdate u k x a s = .next t) :
    TouchesOnly s t (writtenUnits s (.synUpdate u k x a)) (some u) false := by
  refine .of_next (execSynUpdate_next h) ?_
  rintro ⟨kind, r, hr, ⟨-, ht⟩ | ⟨b, v, hb, -, -, ht⟩⟩
  · exact .of_setSynth ht
  · rw [(writtenUnits_target hr).2, hb]
    have hw := (WritesWithin.refl s [b] (some u)).setBuf (List.mem_singleton_self b) v
    exact (hw.setSynth _).answered ht

theorem execSynTrebleEq_touchesOnly {u : SynthSel} {eq : Word}
    (h : execSynTrebleEq u eq s = .next t) : TouchesOnly s t bs (some u) emits := by
  refine .of_next (execSynTrebleEq_next h) ?_
  rintro ⟨kind, r, -, ⟨-, ht⟩ | ⟨w, -, ht⟩⟩
  · exact .of_respond ht
  · exact .of_setSynth ht

theorem execSynVolume_touchesOnly {u : SynthSel} {f sh : Word}
    (h : execSynVolume u f sh s = .next t) : TouchesOnly s t bs (some u) emits := by
  refine .of_next (execSynVolume_next h) ?_
  rintro ⟨kind, r, -, -, ⟨-, ht⟩ | ⟨w, -, -, -, -, ht⟩⟩
  · exact .of_setSynth ht
  · exact .of_setSynth ht

/-- A multi-buffer command that updates each unit of the active set. -/
theorem TouchesOnly.of_updateActive {f : BufferUnit → BufferUnit}
    (ht : t = (s.updateBufs (activeSet s.cfg) f).respond .ok 0 0) :
    TouchesOnly s t (activeSet s.cfg) sel emits :=
  ((WritesWithin.refl s _ sel).updateBufs (activeSet_nodup _) f).answered ht

theorem execMbSetSampleRate_touchesOnly {r ms : Word} (h : execMbSetSampleRate r ms s = .next t) :
    TouchesOnly s t (activeSet s.cfg) sel emits := by
  refine .of_next (execMbSetSampleRate_next h) fun ⟨_, _, ht⟩ => ?_
  have hw : WritesWithin s { s with mbSampleRate := r, mbLengthMs := ms } (activeSet s.cfg) sel :=
    (WritesWithin.refl s _ sel).registers
  exact (hw.updateBufs (activeSet_nodup _) _).answered ht

theorem execMbClear_touchesOnly (h : execMbClear s = .next t) :
    TouchesOnly s t (activeSet s.cfg) sel emits := by
  refine .of_next (execMbClear_next h) fun ht => ?_
  have hw := (WritesWithin.refl s _ sel).updateBufs (activeSet_nodup s.cfg) BufferUnit.clear
  exact hw.registers.answered ht

/-- MB_READ_SAMPLES writes the units of its read path, which are the active set (45_multi_buffer.md
R219). -/
theorem execMbReadSamples_touchesOnly {m : Word} (h : execMbReadSamples m s = .next t) :
    TouchesOnly s t (activeSet s.cfg) sel true := by
  refine .of_next (execMbReadSamples_next h) ?_
  rintro (⟨hc, hr⟩ | ⟨hc, hr⟩ | ⟨-, ht⟩)
  · have ha : activeSet s.cfg = [.center] := by simp [activeSet, hc]
    rw [ha]
    exact .of_readsUnit hr
  · have ha : activeSet s.cfg = [.left, .right, .center] := by simp [activeSet, hc]
    rw [ha]
    exact .of_readsPairs hr
  · exact .of_respond ht

/-- The channel commands write registers of the multi-buffer layer only (45_multi_buffer.md R211,
R212). -/
theorem execMbSetChannelCount_touchesOnly {n : Word} (h : execMbSetChannelCount n s = .next t) :
    TouchesOnly s t bs sel emits :=
  .of_next (execMbSetChannelCount_next h) fun ⟨_, ht⟩ =>
    (WritesWithin.refl s bs sel).registers.answered ht

theorem execMbSetChannelType_touchesOnly {i tag : Word}
    (h : execMbSetChannelType i tag s = .next t) : TouchesOnly s t bs sel emits :=
  .of_next (execMbSetChannelType_next h) fun ⟨_, ht⟩ =>
    (WritesWithin.refl s bs sel).registers.answered ht

/-! ### Every command -/

theorem exec_touchesOnly {i : Instr} (h : exec i s = .next t) :
    TouchesOnly s t (writtenUnits s i) i.synthSel? i.emits := by
  cases i with
  | setRates => exact .of_next (execSetRates_next h) fun ⟨_, _, _, _, ht⟩ => .of_setBuf ht
  | setLength => exact .of_next (execSetLength_next h) fun ⟨_, ht⟩ => .of_setBuf ht
  | bassFreq => exact .of_next (execBassFreq_next h) .of_setBuf
  | clear => exact .of_next (execClear_next h) .of_setBuf
  | toFixed => exact .of_next (execToFixed_next h) .of_respond
  | deposit => exact .of_next (execDeposit_next h) fun ⟨_, _, ht⟩ => .of_setBuf ht
  | endFrame => exact .of_next (execEndFrame_next h) fun ⟨_, ht⟩ => .of_setBuf ht
  | samplesAvail => exact .of_next (execSamplesAvail_next h) .of_respond
  | readSamples => exact .of_next (execReadSamples_next h) .of_readsUnit
  | removeSilence => exact .of_next (execRemoveSilence_next h) fun ⟨_, hr⟩ => .of_removesFrom hr
  | removeSamples => exact .of_next (execRemoveSamples_next h) .of_removesFrom
  | nonSilent => exact .of_next (execNonSilent_next h) .of_respond
  | removeAllSamples => exact .of_next (execRemoveAllSamples_next h) .of_removesFrom
  | getFlags => exact .of_next (execGetFlags_next h) .of_respond
  | synOutput => exact .of_next (execSynOutput_next h) fun ⟨_, _, _, ht⟩ => .of_setSynth ht
  | synVolume => exact execSynVolume_touchesOnly h
  | synTrebleEq => exact execSynTrebleEq_touchesOnly h
  | synOffset => exact execSynOffset_touchesOnly h
  | synUpdate => exact execSynUpdate_touchesOnly h
  | synSetAmp => exact .of_next (execSynSetAmp_next h) fun ⟨_, _, _, ht⟩ => .of_setSynth ht
  | readPairs => exact .of_next (execReadPairs_next h) .of_readsPairs
  | mbSetChannelCount => exact execMbSetChannelCount_touchesOnly h
  | mbSetChannelType => exact execMbSetChannelType_touchesOnly h
  | mbChannel => exact .of_next (execMbChannel_next h) fun ⟨_, _, _, ht⟩ => .of_respond ht
  | mbSetSampleRate => exact execMbSetSampleRate_touchesOnly h
  | mbClockRate => exact .of_next (execMbClockRate_next h) fun ⟨_, _, ht⟩ => .of_updateActive ht
  | mbBassFreq => exact .of_next (execMbBassFreq_next h) .of_updateActive
  | mbClear => exact execMbClear_touchesOnly h
  | mbEndFrame => exact .of_next (execMbEndFrame_next h) fun ⟨_, ht⟩ => .of_updateActive ht
  | mbReadSamples => exact execMbReadSamples_touchesOnly h
  | mbSamplesAvail => exact .of_next (execMbSamplesAvail_next h) fun ⟨_, ht⟩ => .of_respond ht
  | mbChanged => exact .of_next (execMbChanged_next h) .of_respond
  | getStatus => exact .of_respond (execGetStatus_next h)

/-- Settles O16: from the frame of every command. -/
theorem commandTouchesOnlyItsUnits : Obligations.CommandTouchesOnlyItsUnits := by
  intro i s t h
  obtain ⟨hcfg, hpending, hbuf, hlength, hsynth, hout⟩ := exec_touchesOnly h
  exact ⟨hcfg, hpending, hbuf, hlength, hsynth, hout⟩

end Sys2Proof.Machine
end

section
/-! PROOFS. The invariant of the machine holds from reset on (10_state.md R26, R35): after reset, across
every command by its inversion law, hence across every step and in every reachable state. -/

namespace Sys2Proof.Machine

variable {s t : State}

/-! ### After reset -/

theorem State.buf_resetWith (c : Config) (b : BufUnit) :
    (State.resetWith c).buf b = BufferUnit.reset := by cases b <;> rfl

theorem SynthUnit.reset_inv (c : Config) (kind : SynthKind) : SynthUnit.reset.Inv c kind := by
  cases kind with
  | fast => exact rfl
  | full w => exact .inl rfl

theorem State.resetWith_inv {c : Config} (hc : c.valid = true) : (State.resetWith c).Inv := by
  have hsynths : ∀ p ∈ c.synths.zip (List.replicate c.nsynth SynthUnit.reset),
      SynthUnit.Inv c p.1 p.2 := by
    intro p hp
    rw [List.eq_of_mem_replicate (List.of_mem_zip hp).2]
    exact SynthUnit.reset_inv c p.1
  have hbuf := BufferUnit.reset_inv c
  exact ⟨hc, hbuf, hbuf, hbuf, List.length_replicate, hsynths, Nat.zero_le _,
    List.length_replicate, Nat.zero_le _⟩

/-- Settles O10: R35's table, register by register. -/
theorem resetValues : Obligations.ResetValues := by
  intro c
  refine ⟨fun b => ?_, List.length_replicate, fun r hr => ?_, rfl, rfl, rfl, rfl, rfl, rfl, rfl, rfl⟩
  · rw [State.buf_resetWith]
    rfl
  · rw [List.eq_of_mem_replicate hr]
    exact ⟨rfl, rfl, rfl, rfl⟩

/-- Settles O11: no register of a reset unit is outside its bounds, and the default parameters are
valid. -/
theorem resetSatisfiesInvariant : Obligations.ResetSatisfiesInvariant :=
  ⟨fun _ hc => State.resetWith_inv hc, State.resetWith_inv (by decide)⟩

/-! ### Across the forms of an effect -/

/-- The form of the inversion laws: no effect, or the effect the rule gives. -/
theorem State.Inv.of_next {P : Prop} (hs : s.Inv)
    (h : endsWithoutEffect s t ∨ s.sysFault = 0 ∧ P) (hP : P → t.Inv) : t.Inv := by
  rcases h with h | ⟨-, h⟩
  · exact hs.of_endsWithoutEffect h
  · exact hP h

theorem State.Inv.of_respond (hs : s.Inv) {status : Status} {val : BitVec 64} {nout : Word}
    (ht : t = s.respond status val nout) : t.Inv := by
  rw [ht]
  exact hs.respond _ _ _

theorem State.Inv.of_setBuf (hs : s.Inv) {b : BufUnit} {v : BufferUnit} {status : Status}
    {val : BitVec 64} {nout : Word} (ht : t = (s.setBuf b v).respond status val nout)
    (hv : v.Inv s.cfg) : t.Inv :=
  (hs.setBuf hv).of_respond ht

theorem State.Inv.of_setSynth (hs : s.Inv) {u : SynthSel} {kind : SynthKind} {r r' : SynthUnit}
    {status : Status} {val : BitVec 64} {nout : Word} (hu : hasSynth s u kind r)
    (ht : t = (s.setSynth u r').respond status val nout) (hr : SynthUnit.Inv s.cfg kind r') :
    t.Inv :=
  (hs.setSynth hu.1 hr).of_respond ht

theorem State.Inv.of_updateActive (hs : s.Inv) {f : BufferUnit → BufferUnit} {status : Status}
    {val : BitVec 64} {nout : Word}
    (ht : t = (s.updateBufs (activeSet s.cfg) f).respond status val nout)
    (hf : ∀ b ∈ activeSet s.cfg, (f (s.buf b)).Inv s.cfg) : t.Inv :=
  (hs.updateBufs (activeSet_nodup s.cfg) hf).of_respond ht

/-! ### Across the commands of a synthesizer unit -/

theorem State.Inv.synth (hs : s.Inv) {u : SynthSel} {kind : SynthKind} {r : SynthUnit}
    (hu : hasSynth s u kind r) : SynthUnit.Inv s.cfg kind r :=
  synthInv_of_getElem? hs hu.1 hu.2

/-- The invariant of a synthesizer unit is about its kernel alone. -/
theorem SynthUnit.Inv.of_kernel_eq {c : Config} {kind : SynthKind} {r r' : SynthUnit}
    (h : SynthUnit.Inv c kind r) (hk : r'.kernelUnit = r.kernelUnit) (ht : r'.taps = r.taps) :
    SynthUnit.Inv c kind r' := by
  cases kind with
  | fast => exact hk.trans h
  | full w =>
    change r'.kernelUnit = 0 ∨ _
    rw [hk, ht]
    exact h

theorem execSynVolume_inv {u : SynthSel} {f sh : Word} (hs : s.Inv)
    (h : execSynVolume u f sh s = .next t) : t.Inv := by
  refine hs.of_next (execSynVolume_next h) ?_
  rintro ⟨kind, r, hu, -, ⟨-, ht⟩ | ⟨w, rfl, hsh, hku, -, ht⟩⟩
  · exact hs.of_setSynth hu ht ((hs.synth hu).of_kernel_eq rfl rfl)
  · exact hs.of_setSynth hu ht
      ((hs.synth hu).rescale hs.1 (List.mem_of_getElem? hu.1) hsh hku rfl rfl)

theorem execSynTrebleEq_inv {u : SynthSel} {eq : Word} (hs : s.Inv)
    (h : execSynTrebleEq u eq s = .next t) : t.Inv := by
  refine hs.of_next (execSynTrebleEq_next h) ?_
  rintro ⟨kind, r, hu, ⟨-, ht⟩ | ⟨w, rfl, ht⟩⟩
  · exact hs.of_respond ht
  · exact hs.of_setSynth hu ht
      (SynthUnit.Inv.fresh hs.1 (List.mem_of_getElem? hu.1) eq rfl rfl)

theorem execSynOffset_inv {u : SynthSel} {k : BufSel} {x d : Word} (hs : s.Inv)
    (h : execSynOffset u k x d s = .next t) : t.Inv := by
  refine hs.of_next (execSynOffset_next h) ?_
  rintro ⟨kind, r, hu, ⟨-, ht⟩ | ⟨b, v, -, htest, hv, ht⟩⟩
  · exact hs.of_respond ht
  · exact hs.of_setBuf ht
      (synthDeposit_inv hs.1 (List.mem_of_getElem? hu.1) (hs.buf b) htest hv)

theorem execSynUpdate_inv {u : SynthSel} {k : BufSel} {x a : Word} (hs : s.Inv)
    (h : execSynUpdate u k x a s = .next t) : t.Inv := by
  refine hs.of_next (execSynUpdate_next h) ?_
  rintro ⟨kind, r, hu, hcases⟩
  have hrecord : SynthUnit.Inv s.cfg kind { r with lastAmp := a } :=
    (hs.synth hu).of_kernel_eq rfl rfl
  rcases hcases with ⟨-, ht⟩ | ⟨b, v, -, htest, hv, ht⟩
  · exact hs.of_setSynth hu ht hrecord
  · have hv' := synthDeposit_inv hs.1 (List.mem_of_getElem? hu.1) (hs.buf b) htest hv
    have hu' : hasSynth (s.setBuf b v) u kind r := by simpa [hasSynth] using hu
    exact (hs.setBuf hv').of_setSynth hu' ht (by simpa using hrecord)

/-! ### Across the commands that configure units -/

/-- `reconfigure` after new rates that passed the tests of SET_RATES (40_buffer_config.md R105). -/
theorem execSetRates_inv {b : BufUnit} {k r : Word} (hs : s.Inv)
    (h : execSetRates b k r s = .next t) : t.Inv :=
  hs.of_next (execSetRates_next h) fun ⟨_, _, hratio, hsize, ht⟩ =>
    hs.of_setBuf ht (BufferUnit.reconfigure_inv hsize fun _ _ => hratio)

theorem execSetLength_inv {b : BufUnit} {ms : Word} (hs : s.Inv)
    (h : execSetLength b ms s = .next t) : t.Inv :=
  hs.of_next (execSetLength_next h) fun ⟨hsize, ht⟩ =>
    hs.of_setBuf ht (BufferUnit.reconfigure_inv (fun _ => hsize) (hs.buf b).ratio_fits)

theorem execMbClockRate_inv {k : Word} (hs : s.Inv) (h : execMbClockRate k s = .next t) :
    t.Inv := by
  refine hs.of_next (execMbClockRate_next h) fun ⟨_, htests, ht⟩ => hs.of_updateActive ht ?_
  intro b hb
  exact BufferUnit.reconfigure_inv (hs.buf b).size_fits fun _ =>
    clockRateTest_none.1 (htests b hb)

/-- The registers MB_SET_SAMPLE_RATE writes besides belong to no unit. -/
theorem State.buf_mbRate (s : State) (r ms : Word) (b : BufUnit) :
    State.buf { s with mbSampleRate := r, mbLengthMs := ms } b = s.buf b := by cases b <;> rfl

theorem execMbSetSampleRate_inv {r ms : Word} (hs : s.Inv)
    (h : execMbSetSampleRate r ms s = .next t) : t.Inv := by
  refine hs.of_next (execMbSetSampleRate_next h) fun ⟨_, htests, ht⟩ => ?_
  have hs' : State.Inv { s with mbSampleRate := r, mbLengthMs := ms } := hs
  refine hs'.of_updateActive ht fun b hb => ?_
  obtain ⟨hsize, hratio⟩ := sampleRateTest_none.1 (htests b hb)
  rw [State.buf_mbRate]
  exact BufferUnit.reconfigure_inv (fun _ => hsize) fun hk _ => hratio hk

/-! ### Across the multi-buffer commands without a unit -/

theorem execMbSetChannelCount_inv {n : Word} (hs : s.Inv)
    (h : execMbSetChannelCount n s = .next t) : t.Inv := by
  refine hs.of_next (execMbSetChannelCount_next h) fun ⟨hn, ht⟩ => ?_
  obtain ⟨hc, hl, hr, hce, hlen, hsynths, -, -, hfault⟩ := id hs
  have hcount : (BitVec.ofNat 16 n.toNat).toNat ≤ s.cfg.maxChannels :=
    (BitVec.toNat_ofNat n.toNat 16 ▸ Nat.mod_le _ _).trans hn
  rw [ht]
  exact ⟨hc, hl, hr, hce, hlen, hsynths, hcount, List.length_replicate, hfault⟩

theorem execMbSetChannelType_inv {i tag : Word} (hs : s.Inv)
    (h : execMbSetChannelType i tag s = .next t) : t.Inv := by
  refine hs.of_next (execMbSetChannelType_next h) fun ⟨_, ht⟩ => ?_
  obtain ⟨hc, hl, hr, hce, hlen, hsynths, hcount, htypes, hfault⟩ := id hs
  rw [ht]
  exact ⟨hc, hl, hr, hce, hlen, hsynths, hcount, List.length_set.trans htypes, hfault⟩

theorem execMbClear_inv (hs : s.Inv) (h : execMbClear s = .next t) : t.Inv := by
  refine hs.of_next (execMbClear_next h) fun ht => ?_
  have hcleared : (s.updateBufs (activeSet s.cfg) BufferUnit.clear).Inv :=
    hs.updateBufs (activeSet_nodup s.cfg) fun b _ => BufferUnit.clear_inv (hs.buf b)
  have hpairs : State.Inv
      { s.updateBufs (activeSet s.cfg) BufferUnit.clear with samplesRead := 0 } := hcleared
  exact hpairs.of_respond ht

theorem execMbReadSamples_inv {m : Word} (hs : s.Inv) (h : execMbReadSamples m s = .next t) :
    t.Inv := by
  refine hs.of_next (execMbReadSamples_next h) ?_
  rintro (⟨-, hr⟩ | ⟨-, hr⟩ | ⟨-, ht⟩)
  · exact hs.of_readsUnit hr
  · exact hs.of_readsPairs hr
  · exact hs.of_respond ht

/-! ### Every command, every step, every run -/

theorem exec_inv {i : Instr} (hs : s.Inv) (h : exec i s = .next t) : t.Inv := by
  cases i with
  | setRates => exact execSetRates_inv hs h
  | setLength => exact execSetLength_inv hs h
  | bassFreq b freq =>
    exact hs.of_next (execBassFreq_next h) fun ht =>
      hs.of_setBuf ht (BufferUnit.setBass_inv (hs.buf b) freq)
  | clear b =>
    exact hs.of_next (execClear_next h) fun ht =>
      hs.of_setBuf ht (BufferUnit.clear_inv (hs.buf b))
  | toFixed => exact hs.of_next (execToFixed_next h) hs.of_respond
  | deposit b =>
    exact hs.of_next (execDeposit_next h) fun ⟨_, hslot, ht⟩ =>
      hs.of_setBuf ht (BufferUnit.deposit_inv (hs.buf b) hslot _)
  | endFrame b =>
    exact hs.of_next (execEndFrame_next h) fun ⟨htest, ht⟩ =>
      hs.of_setBuf ht (BufferUnit.endFrame_inv hs.1 (hs.buf b) htest)
  | samplesAvail => exact hs.of_next (execSamplesAvail_next h) hs.of_respond
  | readSamples => exact hs.of_next (execReadSamples_next h) hs.of_readsUnit
  | removeSilence => exact hs.of_next (execRemoveSilence_next h) fun ⟨_, hr⟩ => hs.of_removesFrom hr
  | removeSamples => exact hs.of_next (execRemoveSamples_next h) hs.of_removesFrom
  | nonSilent => exact hs.of_next (execNonSilent_next h) hs.of_respond
  | removeAllSamples => exact hs.of_next (execRemoveAllSamples_next h) hs.of_removesFrom
  | getFlags => exact hs.of_next (execGetFlags_next h) hs.of_respond
  | synOutput =>
    exact hs.of_next (execSynOutput_next h) fun ⟨_, _, hu, ht⟩ =>
      hs.of_setSynth hu ht ((hs.synth hu).of_kernel_eq rfl rfl)
  | synVolume => exact execSynVolume_inv hs h
  | synTrebleEq => exact execSynTrebleEq_inv hs h
  | synOffset => exact execSynOffset_inv hs h
  | synUpdate => exact execSynUpdate_inv hs h
  | synSetAmp =>
    exact hs.of_next (execSynSetAmp_next h) fun ⟨_, _, hu, ht⟩ =>
      hs.of_setSynth hu ht ((hs.synth hu).of_kernel_eq rfl rfl)
  | readPairs => exact hs.of_next (execReadPairs_next h) hs.of_readsPairs
  | mbSetChannelCount => exact execMbSetChannelCount_inv hs h
  | mbSetChannelType => exact execMbSetChannelType_inv hs h
  | mbChannel => exact hs.of_next (execMbChannel_next h) fun ⟨_, _, _, ht⟩ => hs.of_respond ht
  | mbSetSampleRate => exact execMbSetSampleRate_inv hs h
  | mbClockRate => exact execMbClockRate_inv hs h
  | mbBassFreq freq =>
    exact hs.of_next (execMbBassFreq_next h) fun ht =>
      hs.of_updateActive ht fun b _ => BufferUnit.setBass_inv (hs.buf b) freq
  | mbClear => exact execMbClear_inv hs h
  | mbEndFrame =>
    exact hs.of_next (execMbEndFrame_next h) fun ⟨htests, ht⟩ =>
      hs.of_updateActive ht fun b hb => BufferUnit.endFrame_inv hs.1 (hs.buf b) (htests b hb)
  | mbReadSamples => exact execMbReadSamples_inv hs h
  | mbSamplesAvail => exact hs.of_next (execMbSamplesAvail_next h) fun ⟨_, ht⟩ => hs.of_respond ht
  | mbChanged => exact hs.of_next (execMbChanged_next h) hs.of_respond
  | getStatus => exact hs.of_respond (execGetStatus_next h)

theorem step_of_idle (h : s.pending = []) : step s = .next s := by
  simp [step, State.takeInput, h]

theorem step_of_reset {rest : List Input} (h : s.pending = .reset :: rest) :
    step s = .next { State.resetWith s.cfg with pending := rest } := by
  simp [step, State.takeInput, State.applyReset, h]

theorem step_of_illegal {f : Frame} {rest : List Input} {e : DecodeError}
    (h : s.pending = .frame f :: rest) (hd : decodeFrame s.cfg f = .error e) :
    step s = State.fail { s with pending := rest } .errIllegal := by
  simp [step, State.takeInput, State.answerIllegal, h, hd]

theorem step_of_decoded {f : Frame} {rest : List Input} {i : Instr}
    (h : s.pending = .frame f :: rest) (hd : decodeFrame s.cfg f = .ok i) :
    step s = exec i { s with pending := rest } := by
  simp [step, State.takeInput, h, hd]

/-- Settles O12: an input is a reset event, an illegal frame or a command, and each keeps the
invariant. -/
theorem stepKeepsInvariant : Obligations.StepKeepsInvariant := by
  intro s t hs h
  rcases hp : s.pending with _ | ⟨_ | _, rest⟩
  case nil =>
    rw [step_of_idle hp] at h
    cases h
    exact hs
  case cons.reset =>
    rw [step_of_reset hp] at h
    cases h
    exact State.resetWith_inv hs.1
  case cons.frame f =>
    have hs' : State.Inv { s with pending := rest } := hs
    cases hd : decodeFrame s.cfg f with
    | error e =>
      rw [step_of_illegal hp hd] at h
      exact hs'.of_respond (State.fail_next h)
    | ok i =>
      rw [step_of_decoded hp hd] at h
      exact exec_inv hs' h

/-- What reset establishes and every step keeps holds in every reachable state; what the host presents
is no part of the invariant. -/
theorem Reachable.inv {c : Config} (hc : c.valid = true) (h : Reachable c s) : s.Inv := by
  induction h with
  | reset => exact State.resetWith_inv hc
  | present s x _ ih => exact ih
  | step s t _ hstep ih => exact stepKeepsInvariant s t ih hstep

/-- Settles O13: the invariant of a unit gives R26. -/
theorem reachableStatesMeetR26 : Obligations.ReachableStatesMeetR26 :=
  fun _ _ hc h b => ((h.inv hc).buf b).meetsR26 (h.inv hc).1

end Sys2Proof.Machine
end

section
/-! PROOFS. What a command may do to one buffer unit, to one synthesizer unit and to the registers that
belong to no unit, and so which commands write each register (10_state.md R25, R29 to R33). -/

namespace Sys2Proof.Machine

variable {s s' t : State} {c : Config} {i : Instr}

/-! ### The changes of a buffer unit -/

/-- Unit `v` is what command `i` may make of unit `u`: nothing, or one procedure of the unit, under the
commands whose rule calls it. -/
inductive UnitChange (c : Config) (u : BufferUnit) : Instr → BufferUnit → Prop
  | same {i : Instr} : UnitChange c u i u
  | setRates (b : BufUnit) (k r : Word) :
      UnitChange c u (.setRates b k r)
        (BufferUnit.reconfigure c { u with clockRate := k, sampleRate := r })
  | setLength (b : BufUnit) (ms : Word) :
      UnitChange c u (.setLength b ms)
        (BufferUnit.reconfigure c { u with lengthMs := ms, lengthSet := true })
  | mbSetSampleRate (r ms : Word) :
      UnitChange c u (.mbSetSampleRate r ms)
        (BufferUnit.reconfigure c { u with sampleRate := r, lengthMs := ms, lengthSet := true })
  | mbClockRate (k : Word) :
      UnitChange c u (.mbClockRate k) (BufferUnit.reconfigure c { u with clockRate := k })
  | bassFreq (b : BufUnit) (freq : Word) : UnitChange c u (.bassFreq b freq) (u.setBass freq)
  | mbBassFreq (freq : Word) : UnitChange c u (.mbBassFreq freq) (u.setBass freq)
  | clear {i : Instr} (hi : i.clearsUnit = true) : UnitChange c u i u.clear
  | endFrame {i : Instr} (hi : i.endsFrame = true) (x : Word) : UnitChange c u i (u.endFrame c x)
  | drain {i : Instr} (hi : i.consumesSlots = true) (n : Nat) : UnitChange c u i (u.drain c n)
  | deposit {i : Instr} (hi : i.deposits = true) (m : Memory) :
      UnitChange c u i { u with delta := m, modified := true }

theorem synthDeposit_unitChange {kind : SynthKind} {r : SynthUnit} {x d : Word} {u v : BufferUnit}
    (hi : i.deposits = true) (h : synthDeposit c kind r x d u = .ok v) : UnitChange c u i v := by
  rcases synthDeposit_ok h with ⟨-, -, rfl⟩ | ⟨w, row, -, -, -, -, rfl⟩
  · exact .deposit hi _
  · exact .deposit hi _

/-! ### The change of each unit under each form of an effect -/

/-- Every buffer unit of `t` is what command `i` may make of that unit of `s`. -/
def ChangesUnits (i : Instr) (s t : State) : Prop :=
  ∀ b, UnitChange s.cfg (s.buf b) i (t.buf b)

theorem ChangesUnits.of_buf_eq (h : ∀ b, t.buf b = s.buf b) : ChangesUnits i s t := fun b => by
  rw [h b]
  exact .same

theorem ChangesUnits.of_respond {status : Status} {val : BitVec 64} {nout : Word}
    (ht : t = s.respond status val nout) : ChangesUnits i s t :=
  .of_buf_eq fun b => by rw [ht, State.buf_respond]

theorem ChangesUnits.setBuf {b : BufUnit} {v : BufferUnit} (hv : UnitChange s.cfg (s.buf b) i v) :
    ChangesUnits i s (s.setBuf b v) := fun b' => by
  rw [State.buf_setBuf]
  split
  · next e => rw [e]; exact hv
  · exact .same

theorem ChangesUnits.updateActive {f : BufferUnit → BufferUnit}
    (hf : ∀ u, UnitChange s.cfg u i (f u)) :
    ChangesUnits i s (s.updateBufs (activeSet s.cfg) f) := fun b => by
  rw [State.buf_updateBufs (activeSet_nodup s.cfg)]
  split
  · exact hf _
  · exact .same

/-- Only the units of the next state matter. -/
theorem ChangesUnits.congr (h : ChangesUnits i s s') (hbuf : ∀ b, t.buf b = s'.buf b) :
    ChangesUnits i s t := fun b => by
  rw [hbuf b]
  exact h b

theorem ChangesUnits.of_setBuf {b : BufUnit} {v : BufferUnit} {status : Status} {val : BitVec 64}
    {nout : Word} (ht : t = (s.setBuf b v).respond status val nout)
    (hv : UnitChange s.cfg (s.buf b) i v) : ChangesUnits i s t :=
  (ChangesUnits.setBuf hv).congr fun b' => by rw [ht, State.buf_respond]

theorem ChangesUnits.of_updateActive {f : BufferUnit → BufferUnit} {status : Status}
    {val : BitVec 64} {nout : Word}
    (ht : t = (s.updateBufs (activeSet s.cfg) f).respond status val nout)
    (hf : ∀ u, UnitChange s.cfg u i (f u)) : ChangesUnits i s t :=
  (ChangesUnits.updateActive hf).congr fun b => by rw [ht, State.buf_respond]

theorem ChangesUnits.of_endsWithoutEffect (h : endsWithoutEffect s t) : ChangesUnits i s t :=
  .of_buf_eq fun b => (TouchesOnly.of_endsWithoutEffect (bs := []) (sel := none) (emits := false)
    h).buf b List.not_mem_nil

theorem ChangesUnits.of_next {P : Prop} (h : endsWithoutEffect s t ∨ s.sysFault = 0 ∧ P)
    (hP : P → ChangesUnits i s t) : ChangesUnits i s t := by
  rcases h with h | ⟨-, h⟩
  · exact .of_endsWithoutEffect h
  · exact hP h

theorem ChangesUnits.of_readsUnit {b : BufUnit} {n : Nat} (hi : i.consumesSlots = true)
    (h : readsUnit s t b n) : ChangesUnits i s t :=
  (ChangesUnits.setBuf (.drain hi n)).congr fun b' => by
    rw [h.2, State.buf_respond, State.buf_emit]

theorem ChangesUnits.of_removesFrom {b : BufUnit} {n : Nat} {v : BitVec 64}
    (hi : i.consumesSlots = true) (h : removesFrom s t b n v) : ChangesUnits i s t :=
  .of_setBuf h.2 (.drain hi n)

theorem ChangesUnits.of_readsPairs {k n : Nat} (hi : i.consumesSlots = true)
    (h : readsPairs s t k n) : ChangesUnits i s t := fun b => by
  rw [h.2, State.buf_respond, State.buf_emit]
  cases b <;> exact .drain hi n

/-- A command that may write no buffer unit (`writtenUnits`). -/
theorem ChangesUnits.of_writes_none (h : exec i s = .next t) (hw : writtenUnits s i = []) :
    ChangesUnits i s t :=
  .of_buf_eq fun b => (exec_touchesOnly h).buf b (hw ▸ List.not_mem_nil)

theorem execSynOffset_changesUnits {u : SynthSel} {k : BufSel} {x d : Word}
    (h : execSynOffset u k x d s = .next t) : ChangesUnits (.synOffset u k x d) s t := by
  refine .of_next (execSynOffset_next h) ?_
  rintro ⟨kind, r, -, ⟨-, ht⟩ | ⟨b, v, -, -, hv, ht⟩⟩
  · exact .of_respond ht
  · exact .of_setBuf ht (synthDeposit_unitChange rfl hv)

theorem execSynUpdate_changesUnits {u : SynthSel} {k : BufSel} {x a : Word}
    (h : execSynUpdate u k x a s = .next t) : ChangesUnits (.synUpdate u k x a) s t := by
  refine .of_next (execSynUpdate_next h) ?_
  rintro ⟨kind, r, -, ⟨-, ht⟩ | ⟨b, v, -, -, hv, ht⟩⟩
  · exact .of_buf_eq fun b => by rw [ht, State.buf_respond, State.buf_setSynth]
  · exact (ChangesUnits.setBuf (synthDeposit_unitChange rfl hv)).congr fun b' => by
      rw [ht, State.buf_respond, State.buf_setSynth]

theorem execMbSetSampleRate_changesUnits {r ms : Word}
    (h : execMbSetSampleRate r ms s = .next t) : ChangesUnits (.mbSetSampleRate r ms) s t := by
  refine .of_next (execMbSetSampleRate_next h) fun ⟨_, _, ht⟩ b => ?_
  have hall : ChangesUnits (.mbSetSampleRate r ms) { s with mbSampleRate := r, mbLengthMs := ms } t :=
    .of_updateActive ht fun _ => .mbSetSampleRate r ms
  exact State.buf_mbRate s r ms b ▸ hall b

theorem execMbClear_changesUnits (h : execMbClear s = .next t) : ChangesUnits .mbClear s t := by
  refine .of_next (execMbClear_next h) fun ht => ?_
  refine (ChangesUnits.updateActive (f := BufferUnit.clear) fun _ => .clear rfl).congr fun b => ?_
  rw [ht, State.buf_respond]
  exact (WritesWithin.refl _ [] none).registers.buf b List.not_mem_nil

theorem execMbReadSamples_changesUnits {m : Word} (h : execMbReadSamples m s = .next t) :
    ChangesUnits (.mbReadSamples m) s t := by
  refine .of_next (execMbReadSamples_next h) ?_
  rintro (⟨-, hr⟩ | ⟨-, hr⟩ | ⟨-, ht⟩)
  · exact .of_readsUnit rfl hr
  · exact .of_readsPairs rfl hr
  · exact .of_respond ht

theorem exec_changesUnits (h : exec i s = .next t) : ChangesUnits i s t := by
  cases i with
  | setRates b k r =>
    exact .of_next (execSetRates_next h) fun ⟨_, _, _, _, ht⟩ => .of_setBuf ht (.setRates b k r)
  | setLength b ms =>
    exact .of_next (execSetLength_next h) fun ⟨_, ht⟩ => .of_setBuf ht (.setLength b ms)
  | bassFreq b freq =>
    exact .of_next (execBassFreq_next h) fun ht => .of_setBuf ht (.bassFreq b freq)
  | clear => exact .of_next (execClear_next h) fun ht => .of_setBuf ht (.clear rfl)
  | deposit =>
    exact .of_next (execDeposit_next h) fun ⟨_, _, ht⟩ => .of_setBuf ht (.deposit rfl _)
  | endFrame b x =>
    exact .of_next (execEndFrame_next h) fun ⟨_, ht⟩ => .of_setBuf ht (.endFrame rfl x)
  | readSamples => exact .of_next (execReadSamples_next h) (.of_readsUnit rfl)
  | removeSilence =>
    exact .of_next (execRemoveSilence_next h) fun ⟨_, hr⟩ => .of_removesFrom rfl hr
  | removeSamples => exact .of_next (execRemoveSamples_next h) (.of_removesFrom rfl)
  | removeAllSamples => exact .of_next (execRemoveAllSamples_next h) (.of_removesFrom rfl)
  | synOffset => exact execSynOffset_changesUnits h
  | synUpdate => exact execSynUpdate_changesUnits h
  | readPairs => exact .of_next (execReadPairs_next h) (.of_readsPairs rfl)
  | mbSetSampleRate => exact execMbSetSampleRate_changesUnits h
  | mbClockRate k =>
    exact .of_next (execMbClockRate_next h) fun ⟨_, _, ht⟩ =>
      .of_updateActive ht fun _ => .mbClockRate k
  | mbBassFreq freq =>
    exact .of_next (execMbBassFreq_next h) fun ht => .of_updateActive ht fun _ => .mbBassFreq freq
  | mbClear => exact execMbClear_changesUnits h
  | mbEndFrame x =>
    exact .of_next (execMbEndFrame_next h) fun ⟨_, ht⟩ =>
      .of_updateActive ht fun _ => .endFrame rfl x
  | mbReadSamples => exact execMbReadSamples_changesUnits h
  | toFixed | samplesAvail | nonSilent | getFlags | synOutput | synVolume | synTrebleEq | synSetAmp
  | mbSetChannelCount | mbSetChannelType | mbChannel | mbSamplesAvail | mbChanged | getStatus =>
    exact .of_writes_none h rfl

/-! ### The registers of a buffer unit, by the change that writes them (10_state.md R25) -/

section
variable {u v : BufferUnit}

theorem UnitChange.clockRate_writers (h : UnitChange c u i v) (hne : v.clockRate ≠ u.clockRate) :
    (∃ b k r, i = .setRates b k r) ∨ ∃ k, i = .mbClockRate k := by
  cases h with
  | setRates b k r => exact .inl ⟨b, k, r, rfl⟩
  | mbClockRate k => exact .inr ⟨k, rfl⟩
  | _ => simp at hne

theorem UnitChange.sampleRate_writers (h : UnitChange c u i v)
    (hne : v.sampleRate ≠ u.sampleRate) :
    (∃ b k r, i = .setRates b k r) ∨ ∃ r m, i = .mbSetSampleRate r m := by
  cases h with
  | setRates b k r => exact .inl ⟨b, k, r, rfl⟩
  | mbSetSampleRate r ms => exact .inr ⟨r, ms, rfl⟩
  | _ => simp at hne

theorem UnitChange.length_writers (h : UnitChange c u i v)
    (hne : v.lengthMs ≠ u.lengthMs ∨ v.lengthSet ≠ u.lengthSet) :
    ((∃ b m, i = .setLength b m) ∨ ∃ r m, i = .mbSetSampleRate r m) ∧ v.lengthSet = true := by
  cases h with
  | setLength b ms => exact ⟨.inl ⟨b, ms, rfl⟩, rfl⟩
  | mbSetSampleRate r ms => exact ⟨.inr ⟨r, ms, rfl⟩, rfl⟩
  | _ => simp at hne

theorem UnitChange.bassFreq_writers (h : UnitChange c u i v) (hne : v.bassFreq ≠ u.bassFreq) :
    (∃ b x, i = .bassFreq b x) ∨ ∃ x, i = .mbBassFreq x := by
  cases h with
  | bassFreq b freq => exact .inl ⟨b, freq, rfl⟩
  | mbBassFreq freq => exact .inr ⟨freq, rfl⟩
  | _ => simp at hne

theorem UnitChange.factor_size_writers (h : UnitChange c u i v)
    (hne : v.factor ≠ u.factor ∨ v.bufferSize ≠ u.bufferSize) : i.reconfigures = true := by
  cases h with
  | setRates | setLength | mbSetSampleRate | mbClockRate => rfl
  | _ => simp at hne

theorem UnitChange.bassShift_writers (h : UnitChange c u i v) (hne : v.bassShift ≠ u.bassShift) :
    i.reconfigures = true ∨ (∃ b x, i = .bassFreq b x) ∨ ∃ x, i = .mbBassFreq x := by
  cases h with
  | setRates | setLength | mbSetSampleRate | mbClockRate => exact .inl rfl
  | bassFreq b freq => exact .inr (.inl ⟨b, freq, rfl⟩)
  | mbBassFreq freq => exact .inr (.inr ⟨freq, rfl⟩)
  | _ => simp at hne

theorem UnitChange.offset_counter_writers (h : UnitChange c u i v)
    (hne : v.offset ≠ u.offset ∨ v.lastNonSilence ≠ u.lastNonSilence) :
    i.endsFrame = true ∨ i.consumesSlots = true ∨ i.clearsUnit = true := by
  cases h with
  | setRates | setLength | mbSetSampleRate | mbClockRate => exact .inr (.inr rfl)
  | clear hi => exact .inr (.inr hi)
  | endFrame hi => exact .inl hi
  | drain hi => exact .inr (.inl hi)
  | _ => simp at hne

theorem UnitChange.readerAccum_writers (h : UnitChange c u i v)
    (hne : v.readerAccum ≠ u.readerAccum) : i.consumesSlots = true ∨ i.clearsUnit = true := by
  cases h with
  | setRates | setLength | mbSetSampleRate | mbClockRate => exact .inr rfl
  | clear hi => exact .inr hi
  | drain hi => exact .inl hi
  | _ => simp at hne

theorem UnitChange.modified_writers (h : UnitChange c u i v) (hne : v.modified ≠ u.modified) :
    i.deposits = true ∧ v.modified = true ∨
      (i.endsFrame = true ∨ i.clearsUnit = true) ∧ v.modified = false := by
  cases h with
  | setRates | setLength | mbSetSampleRate | mbClockRate => exact .inr ⟨.inr rfl, rfl⟩
  | clear hi => exact .inr ⟨.inr hi, rfl⟩
  | endFrame hi x => exact .inr ⟨.inl hi, u.endFrame_modified c x⟩
  | deposit hi => exact .inl ⟨hi, rfl⟩
  | _ => simp at hne

theorem UnitChange.delta_writers (h : UnitChange c u i v) (hne : v.delta ≠ u.delta) :
    i.deposits = true ∨ i.consumesSlots = true ∨ i.clearsUnit = true := by
  cases h with
  | setRates | setLength | mbSetSampleRate | mbClockRate => exact .inr (.inr rfl)
  | clear hi => exact .inr (.inr hi)
  | drain hi => exact .inr (.inl hi)
  | deposit hi => exact .inl hi
  | _ => simp at hne

end

/-- Settles O17: a command changes a unit by one procedure, and each register is written by the
procedures of the commands R25 lists for it. -/
theorem bufferRegistersWrittenBy : Obligations.BufferRegistersWrittenBy := by
  intro i s t b h
  have hu := exec_changesUnits h b
  exact ⟨hu.clockRate_writers, hu.sampleRate_writers, hu.length_writers, hu.bassFreq_writers,
    hu.factor_size_writers, hu.bassShift_writers, hu.offset_counter_writers,
    hu.readerAccum_writers, hu.modified_writers, hu.delta_writers⟩

end Sys2Proof.Machine
end

section
/-! PROOFS. What a command may do to one synthesizer unit and to the registers that belong to no unit,
and so which commands write each of them (10_state.md R29 to R33). -/

namespace Sys2Proof.Machine

variable {s t : State} {i : Instr}

/-! ### The changes of a synthesizer unit -/

/-- Unit `r'` is what command `i` may make of unit `r`: nothing, or the registers its rule writes. -/
inductive SynthChange (r : SynthUnit) : Instr → SynthUnit → Prop
  | same {i : Instr} : SynthChange r i r
  | output (u : SynthSel) (route : Route) :
      SynthChange r (.synOutput u route) { r with out := route }
  | volume (u : SynthSel) (f sh : Word) :
      SynthChange r (.synVolume u f sh) { r with deltaFactor := f }
  | rescale (u : SynthSel) (f : Word) {sh : Word} (hsh : sh ≠ 0) (w : Nat) :
      SynthChange r (.synVolume u f sh) { r.rescale w sh.toNat with deltaFactor := f }
  | kernel (u : SynthSel) (eq : Word) (table : List (List Word)) (ku : Word) :
      SynthChange r (.synTrebleEq u eq) { r with taps := table, kernelUnit := ku }
  | update (u : SynthSel) (k : BufSel) (x a : Word) :
      SynthChange r (.synUpdate u k x a) { r with lastAmp := a }
  | setAmp (u : SynthSel) (a : Word) : SynthChange r (.synSetAmp u a) { r with lastAmp := a }

/-- Every synthesizer unit of `t` is what command `i` may make of that unit of `s`. -/
def ChangesSynths (i : Instr) (s t : State) : Prop :=
  ∀ (n : Nat) (r r' : SynthUnit), s.synths[n]? = some r → t.synths[n]? = some r' → SynthChange r i r'

theorem ChangesSynths.of_synths_eq (h : t.synths = s.synths) : ChangesSynths i s t := by
  intro n r r' hr hr'
  rw [h, hr] at hr'
  cases hr'
  exact .same

theorem ChangesSynths.of_setSynth {u : SynthSel} {kind : SynthKind} {r v : SynthUnit}
    (hu : hasSynth s u kind r) (ht : t.synths = s.synths.set u.toNat v) (hv : SynthChange r i v) :
    ChangesSynths i s t := by
  intro n q q' hq hq'
  rw [ht, List.getElem?_set] at hq'
  by_cases e : u.toNat = n
  · subst e
    obtain rfl : r = q := Option.some.inj (hu.2.symm.trans hq)
    rw [if_pos rfl] at hq'
    split at hq'
    · cases hq'
      exact hv
    · cases hq'
  · rw [if_neg e, hq] at hq'
    cases hq'
    exact .same

theorem synths_of_endsWithoutEffect (h : endsWithoutEffect s t) : t.synths = s.synths := by
  rcases h with ⟨_, _, rfl⟩ | ⟨_, _, rfl⟩ | ⟨_, rfl⟩ <;> rfl

theorem ChangesSynths.of_next {P : Prop} (h : endsWithoutEffect s t ∨ s.sysFault = 0 ∧ P)
    (hP : P → ChangesSynths i s t) : ChangesSynths i s t := by
  rcases h with h | ⟨-, h⟩
  · exact .of_synths_eq (synths_of_endsWithoutEffect h)
  · exact hP h

/-- A command that names no synthesizer unit writes none. -/
theorem ChangesSynths.of_names_none (h : exec i s = .next t) (hn : i.synthSel? = none) :
    ChangesSynths i s t :=
  .of_synths_eq <| List.ext_getElem? fun n =>
    (exec_touchesOnly h).synth n fun u hu => by simp [hn] at hu

theorem execSynVolume_changesSynths {u : SynthSel} {f sh : Word}
    (h : execSynVolume u f sh s = .next t) : ChangesSynths (.synVolume u f sh) s t := by
  refine .of_next (execSynVolume_next h) ?_
  rintro ⟨kind, r, hu, -, ⟨-, ht⟩ | ⟨w, -, hsh, -, -, ht⟩⟩
  · exact .of_setSynth hu (congrArg State.synths ht) (.volume u f sh)
  · have hne : sh ≠ 0 := fun e => by simp [e] at hsh
    exact .of_setSynth hu (congrArg State.synths ht) (.rescale u f hne w)

theorem execSynTrebleEq_changesSynths {u : SynthSel} {eq : Word}
    (h : execSynTrebleEq u eq s = .next t) : ChangesSynths (.synTrebleEq u eq) s t := by
  refine .of_next (execSynTrebleEq_next h) ?_
  rintro ⟨kind, r, hu, ⟨-, ht⟩ | ⟨w, -, ht⟩⟩
  · exact .of_synths_eq (by simp [ht])
  · exact .of_setSynth hu (congrArg State.synths ht) (.kernel u eq _ _)

theorem execSynOffset_changesSynths {u : SynthSel} {k : BufSel} {x d : Word}
    (h : execSynOffset u k x d s = .next t) : ChangesSynths (.synOffset u k x d) s t := by
  refine .of_next (execSynOffset_next h) ?_
  rintro ⟨kind, r, -, ⟨-, ht⟩ | ⟨b, v, -, -, -, ht⟩⟩
  · exact .of_synths_eq (by simp [ht])
  · exact .of_synths_eq (by simp [ht])

theorem execSynUpdate_changesSynths {u : SynthSel} {k : BufSel} {x a : Word}
    (h : execSynUpdate u k x a s = .next t) : ChangesSynths (.synUpdate u k x a) s t := by
  refine .of_next (execSynUpdate_next h) ?_
  rintro ⟨kind, r, hu, ⟨-, ht⟩ | ⟨b, v, -, -, -, ht⟩⟩
  · exact .of_setSynth hu (congrArg State.synths ht) (.update u k x a)
  · exact .of_setSynth hu (by simp [ht]) (.update u k x a)

theorem exec_changesSynths (h : exec i s = .next t) : ChangesSynths i s t := by
  cases i with
  | synOutput u route =>
    exact .of_next (execSynOutput_next h) fun ⟨_, _, hu, ht⟩ =>
      .of_setSynth hu (congrArg State.synths ht) (.output u route)
  | synVolume => exact execSynVolume_changesSynths h
  | synTrebleEq => exact execSynTrebleEq_changesSynths h
  | synOffset => exact execSynOffset_changesSynths h
  | synUpdate => exact execSynUpdate_changesSynths h
  | synSetAmp u a =>
    exact .of_next (execSynSetAmp_next h) fun ⟨_, _, hu, ht⟩ =>
      .of_setSynth hu (congrArg State.synths ht) (.setAmp u a)
  | _ => exact .of_names_none h rfl

/-! ### The registers of a synthesizer unit, by the change that writes them (R29, R30) -/

section
variable {r r' : SynthUnit}

theorem SynthChange.out_writers (h : SynthChange r i r') (hne : r'.out ≠ r.out) :
    ∃ u x, i = .synOutput u x := by
  cases h with
  | output u route => exact ⟨u, route, rfl⟩
  | _ => simp at hne

theorem SynthChange.deltaFactor_writers (h : SynthChange r i r')
    (hne : r'.deltaFactor ≠ r.deltaFactor) : ∃ u f sh, i = .synVolume u f sh := by
  cases h with
  | volume u f sh => exact ⟨u, f, sh, rfl⟩
  | @rescale u f sh => exact ⟨u, f, sh, rfl⟩
  | _ => simp at hne

theorem SynthChange.lastAmp_writers (h : SynthChange r i r') (hne : r'.lastAmp ≠ r.lastAmp) :
    (∃ u k x a, i = .synUpdate u k x a) ∨ ∃ u a, i = .synSetAmp u a := by
  cases h with
  | update u k x a => exact .inl ⟨u, k, x, a, rfl⟩
  | setAmp u a => exact .inr ⟨u, a, rfl⟩
  | _ => simp at hne

theorem SynthChange.kernel_writers (h : SynthChange r i r')
    (hne : r'.kernelUnit ≠ r.kernelUnit ∨ r'.taps ≠ r.taps) :
    (∃ u e, i = .synTrebleEq u e) ∨ ∃ u f sh, i = .synVolume u f sh ∧ sh ≠ 0 := by
  cases h with
  | @rescale u f sh hsh => exact .inr ⟨u, f, sh, rfl, hsh⟩
  | kernel u eq => exact .inl ⟨u, eq, rfl⟩
  | _ => simp at hne

end

/-! ### The changes of the registers of no unit -/

/-- The registers of the mixer, the multi-buffer layer and the system (10_state.md R31 to R33). -/
structure SharedRegs where
  samplesRead : Word
  channelCount : BitVec 16
  channelTypes : List (BitVec 16)
  mbSampleRate : Word
  mbLengthMs : Word
  changedCount : Word
  sysFault : BitVec 8

def State.shared (s : State) : SharedRegs where
  samplesRead := s.samplesRead
  channelCount := s.channelCount
  channelTypes := s.channelTypes
  mbSampleRate := s.mbSampleRate
  mbLengthMs := s.mbLengthMs
  changedCount := s.changedCount
  sysFault := s.sysFault

@[simp] theorem State.shared_setBuf (s : State) (b : BufUnit) (u : BufferUnit) :
    (s.setBuf b u).shared = s.shared := by cases b <;> rfl

@[simp] theorem State.shared_setSynth (s : State) (u : SynthSel) (r : SynthUnit) :
    (s.setSynth u r).shared = s.shared := rfl

@[simp] theorem State.shared_respond (s : State) (st : Status) (v : BitVec 64) (n : Word) :
    (s.respond st v n).shared = s.shared := rfl

@[simp] theorem State.shared_emit (s : State) (xs : List Sample) :
    (s.emit xs).shared = s.shared := rfl

@[simp] theorem State.shared_updateBufs (s : State) (bs : List BufUnit)
    (f : BufferUnit → BufferUnit) : (s.updateBufs bs f).shared = s.shared := by
  simp [State.shared]

/-- The registers `g'` are what command `i`, if it takes no fault, may make of the registers `g`. -/
inductive SharedChange (g : SharedRegs) : Instr → SharedRegs → Prop
  | same {i : Instr} : SharedChange g i g
  | pairs {i : Instr}
      (hi : (∃ n, i = .readPairs n) ∨ (∃ n, i = .mbReadSamples n) ∨ i = .mbClear) (n : Word) :
      SharedChange g i { g with samplesRead := n }
  | channelCount (n : Word) (count : BitVec 16) (tags : List (BitVec 16)) :
      SharedChange g (.mbSetChannelCount n)
        { g with
          channelCount := count
          channelTypes := tags
          changedCount := g.changedCount + 1 }
  | channelType (x tag : Word) (tags : List (BitVec 16)) :
      SharedChange g (.mbSetChannelType x tag)
        { g with channelTypes := tags, changedCount := g.changedCount + 1 }
  | sampleRate (r ms : Word) :
      SharedChange g (.mbSetSampleRate r ms) { g with mbSampleRate := r, mbLengthMs := ms }

/-- A fault is the one effect on these registers that any command can have (60_exceptions.md R253). -/
def ChangesShared (i : Instr) (s t : State) : Prop :=
  endsInFault s t ∨ SharedChange s.shared i t.shared

theorem ChangesShared.of_eq (h : t.shared = s.shared) : ChangesShared i s t :=
  .inr (h ▸ .same)

theorem ChangesShared.of_endsWithoutEffect (h : endsWithoutEffect s t) : ChangesShared i s t := by
  rcases h with ⟨_, _, rfl⟩ | h | ⟨_, rfl⟩
  · exact .of_eq rfl
  · exact .inl h
  · exact .of_eq rfl

theorem ChangesShared.of_next {P : Prop} (h : endsWithoutEffect s t ∨ s.sysFault = 0 ∧ P)
    (hP : P → ChangesShared i s t) : ChangesShared i s t := by
  rcases h with h | ⟨-, h⟩
  · exact .of_endsWithoutEffect h
  · exact hP h

theorem ChangesShared.of_respond {status : Status} {val : BitVec 64} {nout : Word}
    (ht : t = s.respond status val nout) : ChangesShared i s t :=
  .of_eq (by simp [ht])

theorem ChangesShared.of_setBuf {b : BufUnit} {v : BufferUnit} {status : Status} {val : BitVec 64}
    {nout : Word} (ht : t = (s.setBuf b v).respond status val nout) : ChangesShared i s t :=
  .of_eq (by simp [ht])

theorem ChangesShared.of_setSynth {u : SynthSel} {r : SynthUnit} {status : Status}
    {val : BitVec 64} {nout : Word} (ht : t = (s.setSynth u r).respond status val nout) :
    ChangesShared i s t :=
  .of_eq (by simp [ht])

theorem ChangesShared.of_updateBufs {bs : List BufUnit} {f : BufferUnit → BufferUnit}
    {status : Status} {val : BitVec 64} {nout : Word}
    (ht : t = (s.updateBufs bs f).respond status val nout) : ChangesShared i s t :=
  .of_eq (by simp [ht])

theorem ChangesShared.of_readsUnit {b : BufUnit} {n : Nat} (h : readsUnit s t b n) :
    ChangesShared i s t :=
  .of_eq (by simp [h.2])

theorem ChangesShared.of_removesFrom {b : BufUnit} {n : Nat} {v : BitVec 64}
    (h : removesFrom s t b n v) : ChangesShared i s t :=
  .of_setBuf h.2

theorem ChangesShared.of_readsPairs {k n : Nat}
    (hi : (∃ n, i = .readPairs n) ∨ (∃ n, i = .mbReadSamples n) ∨ i = .mbClear)
    (h : readsPairs s t k n) : ChangesShared i s t := by
  rw [h.2]
  exact .inr (.pairs hi _)

theorem execSynVolume_changesShared {u : SynthSel} {f sh : Word}
    (h : execSynVolume u f sh s = .next t) : ChangesShared i s t := by
  refine .of_next (execSynVolume_next h) ?_
  rintro ⟨kind, r, -, -, ⟨-, ht⟩ | ⟨w, -, -, -, -, ht⟩⟩
  · exact .of_setSynth ht
  · exact .of_setSynth ht

theorem execSynTrebleEq_changesShared {u : SynthSel} {eq : Word}
    (h : execSynTrebleEq u eq s = .next t) : ChangesShared i s t := by
  refine .of_next (execSynTrebleEq_next h) ?_
  rintro ⟨kind, r, -, ⟨-, ht⟩ | ⟨w, -, ht⟩⟩
  · exact .of_respond ht
  · exact .of_setSynth ht

theorem execSynOffset_changesShared {u : SynthSel} {k : BufSel} {x d : Word}
    (h : execSynOffset u k x d s = .next t) : ChangesShared i s t := by
  refine .of_next (execSynOffset_next h) ?_
  rintro ⟨kind, r, -, ⟨-, ht⟩ | ⟨b, v, -, -, -, ht⟩⟩
  · exact .of_respond ht
  · exact .of_setBuf ht

theorem execSynUpdate_changesShared {u : SynthSel} {k : BufSel} {x a : Word}
    (h : execSynUpdate u k x a s = .next t) : ChangesShared i s t := by
  refine .of_next (execSynUpdate_next h) ?_
  rintro ⟨kind, r, -, ⟨-, ht⟩ | ⟨b, v, -, -, -, ht⟩⟩
  · exact .of_setSynth ht
  · exact .of_eq (by simp [ht])

theorem execMbSetSampleRate_changesShared {r ms : Word} (h : execMbSetSampleRate r ms s = .next t) :
    ChangesShared (.mbSetSampleRate r ms) s t := by
  refine .of_next (execMbSetSampleRate_next h) fun ⟨_, _, ht⟩ => ?_
  rw [ht, ChangesShared, State.shared_respond, State.shared_updateBufs]
  exact .inr (.sampleRate r ms)

theorem execMbClear_changesShared (h : execMbClear s = .next t) : ChangesShared .mbClear s t := by
  refine .of_next (execMbClear_next h) fun ht => ?_
  have hregs : t.shared = { s.shared with samplesRead := 0 } := by
    rw [ht, ← State.shared_updateBufs s (activeSet s.cfg) BufferUnit.clear]
    rfl
  exact .inr (hregs ▸ .pairs (.inr (.inr rfl)) 0)

theorem execMbReadSamples_changesShared {m : Word} (h : execMbReadSamples m s = .next t) :
    ChangesShared (.mbReadSamples m) s t := by
  refine .of_next (execMbReadSamples_next h) ?_
  rintro (⟨-, hr⟩ | ⟨-, hr⟩ | ⟨-, ht⟩)
  · exact .of_readsUnit hr
  · exact .of_readsPairs (.inr (.inl ⟨m, rfl⟩)) hr
  · exact .of_respond ht

theorem execMbSetChannelCount_changesShared {n : Word} (h : execMbSetChannelCount n s = .next t) :
    ChangesShared (.mbSetChannelCount n) s t := by
  refine .of_next (execMbSetChannelCount_next h) fun ⟨_, ht⟩ => ?_
  rw [ht]
  exact .inr (.channelCount n _ _)

theorem execMbSetChannelType_changesShared {x tag : Word}
    (h : execMbSetChannelType x tag s = .next t) :
    ChangesShared (.mbSetChannelType x tag) s t := by
  refine .of_next (execMbSetChannelType_next h) fun ⟨_, ht⟩ => ?_
  rw [ht]
  exact .inr (.channelType x tag _)

theorem exec_changesShared (h : exec i s = .next t) : ChangesShared i s t := by
  cases i with
  | setRates => exact .of_next (execSetRates_next h) fun ⟨_, _, _, _, ht⟩ => .of_setBuf ht
  | setLength => exact .of_next (execSetLength_next h) fun ⟨_, ht⟩ => .of_setBuf ht
  | bassFreq => exact .of_next (execBassFreq_next h) .of_setBuf
  | clear => exact .of_next (execClear_next h) .of_setBuf
  | toFixed => exact .of_next (execToFixed_next h) .of_respond
  | deposit => exact .of_next (execDeposit_next h) fun ⟨_, _, ht⟩ => .of_setBuf ht
  | endFrame => exact .of_next (execEndFrame_next h) fun ⟨_, ht⟩ => .of_setBuf ht
  | samplesAvail => exact .of_next (execSamplesAvail_next h) .of_respond
  | readSamples => exact .of_next (execReadSamples_next h) .of_readsUnit
  | removeSilence => exact .of_next (execRemoveSilence_next h) fun ⟨_, hr⟩ => .of_removesFrom hr
  | removeSamples => exact .of_next (execRemoveSamples_next h) .of_removesFrom
  | nonSilent => exact .of_next (execNonSilent_next h) .of_respond
  | removeAllSamples => exact .of_next (execRemoveAllSamples_next h) .of_removesFrom
  | getFlags => exact .of_next (execGetFlags_next h) .of_respond
  | synOutput => exact .of_next (execSynOutput_next h) fun ⟨_, _, _, ht⟩ => .of_setSynth ht
  | synVolume => exact execSynVolume_changesShared h
  | synTrebleEq => exact execSynTrebleEq_changesShared h
  | synOffset => exact execSynOffset_changesShared h
  | synUpdate => exact execSynUpdate_changesShared h
  | synSetAmp => exact .of_next (execSynSetAmp_next h) fun ⟨_, _, _, ht⟩ => .of_setSynth ht
  | readPairs n => exact .of_next (execReadPairs_next h) (.of_readsPairs (.inl ⟨n, rfl⟩))
  | mbSetChannelCount => exact execMbSetChannelCount_changesShared h
  | mbSetChannelType => exact execMbSetChannelType_changesShared h
  | mbChannel => exact .of_next (execMbChannel_next h) fun ⟨_, _, _, ht⟩ => .of_respond ht
  | mbSetSampleRate => exact execMbSetSampleRate_changesShared h
  | mbClockRate => exact .of_next (execMbClockRate_next h) fun ⟨_, _, ht⟩ => .of_updateBufs ht
  | mbBassFreq => exact .of_next (execMbBassFreq_next h) .of_updateBufs
  | mbClear => exact execMbClear_changesShared h
  | mbEndFrame => exact .of_next (execMbEndFrame_next h) fun ⟨_, ht⟩ => .of_updateBufs ht
  | mbReadSamples => exact execMbReadSamples_changesShared h
  | mbSamplesAvail => exact .of_next (execMbSamplesAvail_next h) fun ⟨_, ht⟩ => .of_respond ht
  | mbChanged => exact .of_next (execMbChanged_next h) .of_respond
  | getStatus => exact .of_respond (execGetStatus_next h)

/-! ### The registers of no unit, by the change that writes them (R31 to R33) -/

/-- Of these registers a fault writes SYS.fault alone, so the others change only by a `SharedChange`. -/
theorem ChangesShared.change_of_ne {α : Type} (get : SharedRegs → α) (h : ChangesShared i s t)
    (hfault : ∀ g x, get { g with sysFault := x } = get g) (hne : get t.shared ≠ get s.shared) :
    SharedChange s.shared i t.shared := by
  rcases h with ⟨code, -, rfl⟩ | h
  · exact absurd (hfault s.shared code.code) hne
  · exact h

section
variable {g g' : SharedRegs}

theorem SharedChange.samplesRead_writers (h : SharedChange g i g')
    (hne : g'.samplesRead ≠ g.samplesRead) :
    (∃ n, i = .readPairs n) ∨ (∃ n, i = .mbReadSamples n) ∨ i = .mbClear := by
  cases h with
  | pairs hi => exact hi
  | _ => simp at hne

theorem SharedChange.channelCount_writers (h : SharedChange g i g')
    (hne : g'.channelCount ≠ g.channelCount) : ∃ n, i = .mbSetChannelCount n := by
  cases h with
  | channelCount n => exact ⟨n, rfl⟩
  | _ => simp at hne

theorem SharedChange.channelTypes_writers (h : SharedChange g i g')
    (hne : g'.channelTypes ≠ g.channelTypes) :
    (∃ n, i = .mbSetChannelCount n) ∨ ∃ x tag, i = .mbSetChannelType x tag := by
  cases h with
  | channelCount n => exact .inl ⟨n, rfl⟩
  | channelType x tag => exact .inr ⟨x, tag, rfl⟩
  | _ => simp at hne

theorem SharedChange.rate_length_writers (h : SharedChange g i g')
    (hne : g'.mbSampleRate ≠ g.mbSampleRate ∨ g'.mbLengthMs ≠ g.mbLengthMs) :
    ∃ r ms, i = .mbSetSampleRate r ms := by
  cases h with
  | sampleRate r ms => exact ⟨r, ms, rfl⟩
  | _ => simp at hne

theorem SharedChange.changedCount_writers (h : SharedChange g i g')
    (hne : g'.changedCount ≠ g.changedCount) : g'.changedCount = g.changedCount + 1 ∧
      ((∃ n, i = .mbSetChannelCount n) ∨ ∃ x tag, i = .mbSetChannelType x tag) := by
  cases h with
  | channelCount n => exact ⟨rfl, .inl ⟨n, rfl⟩⟩
  | channelType x tag => exact ⟨rfl, .inr ⟨x, tag, rfl⟩⟩
  | _ => simp at hne

theorem SharedChange.sysFault_eq (h : SharedChange g i g') : g'.sysFault = g.sysFault := by
  cases h <;> rfl

end

/-- Settles O18: unit by unit for the synthesizers; the other registers change by a fault, or by the
one command that writes them. -/
theorem otherRegistersWrittenBy : Obligations.OtherRegistersWrittenBy := by
  intro i s t h
  have hg := exec_changesShared h
  refine ⟨fun n r r' hr hr' => ?_,
    fun hne => (hg.change_of_ne (·.samplesRead) (fun _ _ => rfl) hne).samplesRead_writers hne,
    fun hne => (hg.change_of_ne (·.channelCount) (fun _ _ => rfl) hne).channelCount_writers hne,
    fun hne => (hg.change_of_ne (·.channelTypes) (fun _ _ => rfl) hne).channelTypes_writers hne,
    fun hne => ?_,
    fun hne => (hg.change_of_ne (·.changedCount) (fun _ _ => rfl) hne).changedCount_writers hne,
    fun hne => hg.resolve_right fun hc => hne hc.sysFault_eq⟩
  · have hr := exec_changesSynths h n r r' hr hr'
    exact ⟨hr.out_writers, hr.deltaFactor_writers, hr.lastAmp_writers, hr.kernel_writers⟩
  · rcases hne with e | e
    · exact (hg.change_of_ne (·.mbSampleRate) (fun _ _ => rfl) e).rate_length_writers (.inl e)
    · exact (hg.change_of_ne (·.mbLengthMs) (fun _ _ => rfl) e).rate_length_writers (.inr e)

end Sys2Proof.Machine
end

section
/-! PROOFS. The step on a legal frame (20_memory.md R64, R70; 30_encoding.md R88). -/

namespace Sys2Proof.Machine

/-- Settles O8: `step` by the case of what is presented. -/
theorem stepRunsDecodedCommand : Obligations.StepRunsDecodedCommand :=
  fun _ _ _ _ hp hd => step_of_decoded hp hd

end Sys2Proof.Machine
end

section
/-! PROOFS. Byte forms (20_memory.md R65): each is a row of little-endian fields, so its bytes are
those of the fields and it is read back field by field. That the frame of a command decodes to it is
shown once per format. -/

namespace Sys2Proof

variable {c : Config} {i : Instr} {op : BitVec 8} {x y : Word}

/-! ### The frame of a command decodes to it (30_encoding.md R81, R85) -/

theorem decodeFrame_headerOf {u : BitVec 4} {sel : BitVec 3} {shape : Shape}
    (h : opcodeMap.lookup op = some shape) :
    decodeFrame c (Frame.ofWords (headerOf op u sel) x y) = decodeShape c u sel x y shape := by
  simp [decodeFrame, h]

theorem decodeFrame_frameU {mk : BufUnit → Word → Word → Instr} (b : BufUnit)
    (h : opcodeMap.lookup op = some (.u mk)) (hi : mk b x y = i) :
    decodeFrame c (frameU op b x y) = .ok i := by
  simp [frameU, decodeFrame_headerOf h, decodeShape, hi]

theorem decodeFrame_frameS {mk : SynthSel → Word → Word → Instr} {u : SynthSel}
    (hu : SynthSel.inRange c u = true) (h : opcodeMap.lookup op = some (.s mk))
    (hi : mk u x y = i) : decodeFrame c (frameS op u x y) = .ok i := by
  simp [frameS, decodeFrame_headerOf h, decodeShape, decodeSynthSel, hu, hi]

theorem decodeFrame_frameSB {mk : SynthSel → BufSel → Word → Word → Instr} {u : SynthSel}
    {k : BufSel} (hu : SynthSel.inRange c u = true) (h : opcodeMap.lookup op = some (.sb mk))
    (hi : mk u k x y = i) : decodeFrame c (frameSB op u k x y) = .ok i := by
  simp [frameSB, decodeFrame_headerOf h, decodeShape, decodeSynthSel, hu, hi]

theorem decodeFrame_frameSB_output {mk : SynthSel → Route → Instr} {u : SynthSel} {r : Route}
    (hu : SynthSel.inRange c u = true) (h : opcodeMap.lookup op = some (.output mk))
    (hi : mk u r = i) : decodeFrame c (frameSB op u (.explicit r) x y) = .ok i := by
  simp [frameSB, decodeFrame_headerOf h, decodeShape, decodeSynthSel, hu, hi]

theorem decodeFrame_frameN {mk : Word → Word → Instr} (h : opcodeMap.lookup op = some (.n mk))
    (hi : mk x y = i) : decodeFrame c (frameN op x y) = .ok i := by
  simp [frameN, decodeFrame_headerOf h, decodeShape, hi]

/-- Format by format; the check of R86 (f) passes because the command is well formed. -/
theorem decodeFrame_encode (hi : i.wellFormed c = true) : decodeFrame c (encode i) = .ok i := by
  cases i with
  | synOutput => exact decodeFrame_frameSB_output hi rfl rfl
  | synVolume | synTrebleEq | synSetAmp => exact decodeFrame_frameS hi rfl rfl
  | synOffset | synUpdate => exact decodeFrame_frameSB hi rfl rfl
  | setRates b | setLength b | bassFreq b | clear b | toFixed b | deposit b | endFrame b
  | samplesAvail b | readSamples b | removeSilence b | removeSamples b | nonSilent b
  | removeAllSamples b | getFlags b => exact decodeFrame_frameU b rfl rfl
  | _ => exact decodeFrame_frameN rfl rfl

/-! ### Frames as bytes -/

/-- The bytes of a field of a value are bytes of the value. -/
theorem extractLsb'_extractLsb'_byte {w start width k : Nat} (v : BitVec w) (hk : k + 8 ≤ width) :
    (v.extractLsb' start width).extractLsb' k 8 = v.extractLsb' (start + k) 8 := by
  apply BitVec.eq_of_getLsbD_eq
  intro i hi
  simp [hi, Nat.add_assoc, show k + i < width by omega]

/-- The twelve bytes of a frame are those of W0, A and B, in this order. -/
theorem Frame.bytes_eq (f : Frame) :
    f.bytes =
      littleEndian 4 f.header ++ (littleEndian 4 f.operandA ++ littleEndian 4 f.operandB) := by
  simp [Frame.bytes, Frame.header, Frame.operandA, Frame.operandB, littleEndian, List.range_succ,
    extractLsb'_extractLsb'_byte]

theorem takeFrame_bytes (f : Frame) (rest : List Byte) :
    takeFrame (f.bytes ++ rest) = some (f, rest) := by
  simp only [Frame.bytes_eq, List.append_assoc, takeFrame, takeWord_littleEndian, ofWords_words]

namespace Machine

/-! ### Bytes at offsets -/

theorem byteAt_littleEndian {n w k : Nat} (v : BitVec w) (hk : k < n) :
    byteAt (littleEndian n v) k (v.toNat / 256 ^ k % 256) :=
  ⟨_, getElem?_littleEndian n v hk, toNat_byte v k⟩

theorem byteAt_append_left {as bs : List Byte} {k v : Nat} (h : byteAt as k v) :
    byteAt (as ++ bs) k v := by
  obtain ⟨b, hb, hv⟩ := h
  exact ⟨b, (List.getElem?_append_left (List.getElem?_eq_some_iff.1 hb).1).trans hb, hv⟩

theorem byteAt_append_right {as bs : List Byte} {n k v : Nat} (hn : as.length = n)
    (h : byteAt bs k v) : byteAt (as ++ bs) (n + k) v := by
  obtain ⟨b, hb, hv⟩ := h
  exact ⟨b, by rw [List.getElem?_append_right (by omega), ← hn, Nat.add_sub_cancel_left, hb], hv⟩

theorem byteAt_frame (f : Frame) {k : Nat} (hk : k < 4) :
    byteAt f.bytes k (f.header.toNat / 256 ^ k % 256) ∧
    byteAt f.bytes (4 + k) (f.operandA.toNat / 256 ^ k % 256) ∧
    byteAt f.bytes (8 + k) (f.operandB.toNat / 256 ^ k % 256) := by
  rw [Frame.bytes_eq]
  refine ⟨byteAt_append_left (byteAt_littleEndian _ hk),
    byteAt_append_right (by simp) (byteAt_append_left (byteAt_littleEndian _ hk)), ?_⟩
  rw [← List.append_assoc]
  exact byteAt_append_right (by simp) (byteAt_littleEndian _ hk)

/-! ### Responses and samples -/

theorem littleEndian_code (x : Status) : littleEndian 1 x.code = [x.code] := by
  cases x <;> rfl

theorem takeResponse_bytes (r : Response) (rest : List Byte) :
    takeResponse (r.bytes ++ rest) = some (r, rest) := by
  simp only [Response.bytes, littleEndian_code, littleEndian_halves, List.append_assoc,
    List.cons_append, List.nil_append, takeResponse, statusOf_code, takeWord_littleEndian,
    append_halves]

theorem byteAt_response (r : Response) :
    byteAt r.bytes 0 r.status.code.toNat ∧
    (∀ k < 8, byteAt r.bytes (1 + k) (r.val.toNat / 256 ^ k % 256)) ∧
    ∀ k < 4, byteAt r.bytes (9 + k) (r.nout.toNat / 256 ^ k % 256) := by
  refine ⟨⟨r.status.code, ?_, rfl⟩, fun k hk => ?_, fun k hk => ?_⟩
  · simp [Response.bytes, littleEndian_code]
  · exact byteAt_append_left (byteAt_append_right (by simp) (byteAt_littleEndian _ hk))
  · exact byteAt_append_right (by simp) (byteAt_littleEndian _ hk)

theorem takeSamples_samplesBytes (xs : List Sample) (rest : List Byte) :
    takeSamples xs.length (samplesBytes xs ++ rest) = some (xs, rest) := by
  induction xs with
  | nil => rfl
  | cons x xs ih => simp [takeSamples, ih, append_sample]

/-- Sample k is the two bytes at offset 2 k, the least significant one first. -/
theorem byteAt_samples {xs : List Sample} {k : Nat} {x : Sample} (h : xs[k]? = some x) :
    byteAt (samplesBytes xs) (2 * k) (x.toNat % 256) ∧
    byteAt (samplesBytes xs) (2 * k + 1) (x.toNat / 256) := by
  induction xs generalizing k with
  | nil => simp at h
  | cons a xs ih =>
    cases k with
    | zero =>
      obtain rfl : a = x := by simpa using h
      have hlt := a.isLt
      have hlow : (a.extractLsb' 0 8).toNat = a.toNat % 256 := by simp
      have hhigh : (a.extractLsb' 8 8).toNat = a.toNat / 256 % 256 := by simpa using toNat_byte a 1
      exact ⟨⟨_, rfl, hlow⟩, ⟨_, rfl, hhigh.trans (Nat.mod_eq_of_lt (by omega))⟩⟩
    | succ k => exact ih (by simpa using h)

/-- Settles O4: the bytes of each field, and the reading of one field after the other. -/
theorem byteFormRoundTrip : Obligations.ByteFormRoundTrip := by
  refine ⟨fun c i rest hi => ?_, fun f => ⟨length_littleEndian 12 f, fun k hk => byteAt_frame f hk⟩,
    takeResponse_bytes, fun r => ⟨length_bytes r, byteAt_response r⟩, takeSamples_samplesBytes,
    fun _ _ _ => byteAt_samples⟩
  rw [decodeBytes, takeFrame_bytes]
  dsimp only
  rw [decodeFrame_encode hi]

end Machine

end Sys2Proof
end

section
/-! PROOFS. Issuing a command of 20_memory.md R67's list again. No command reads the response, so a
command that left only a response does the same again; one with an effect passes its tests again,
for it keeps what they read, and its effect on the unit it writes is idempotent. -/

namespace Sys2Proof.Machine

variable {i : Instr} {s s' t : State} {b : BufUnit} {status : Status} {val : BitVec 64}
  {nout : Word}

/-! ### No command reads the response (30_encoding.md R82) -/

/-- What concerns no unit may be written before or after the units of a set are updated. -/
theorem State.updateBufs_comm {f : BufferUnit → BufferUnit} {g : State → State}
    (hg : ∀ s b, (g s).setBuf b (f ((g s).buf b)) = g (s.setBuf b (f (s.buf b))))
    (s : State) (bs : List BufUnit) : (g s).updateBufs bs f = g (s.updateBufs bs f) := by
  induction bs generalizing s with
  | nil => rfl
  | cons b bs ih => exact (congrArg (·.updateBufs bs f) (hg s b)).trans (ih _)

theorem State.updateBufs_respond (s : State) (bs : List BufUnit) (f : BufferUnit → BufferUnit) :
    (s.respond status val nout).updateBufs bs f =
      (s.updateBufs bs f).respond status val nout :=
  State.updateBufs_comm (g := (·.respond status val nout)) (fun _ b => by cases b <;> rfl) s bs

theorem State.updateBufs_withSamplesRead (s : State) (n : Word) (bs : List BufUnit)
    (f : BufferUnit → BufferUnit) :
    State.updateBufs { s with samplesRead := n } bs f =
      { s.updateBufs bs f with samplesRead := n } :=
  State.updateBufs_comm (g := ({ · with samplesRead := n })) (fun _ b => by cases b <;> rfl) s bs

theorem State.unlessFaulted_respond (s : State) (k : Result) :
    (s.respond status val nout).unlessFaulted k = s.unlessFaulted k := rfl

/-- A deposit is the same after a response, when what is written besides is. -/
theorem State.synthesize_respond (s : State) {kind : SynthKind} {r : SynthUnit} {x d : Word}
    {also : State → State}
    (ha : ∀ s, (also (s.respond status val nout)).done = (also s).done) :
    (s.respond status val nout).synthesize kind r b x d also = s.synthesize kind r b x d also := by
  have hset : ∀ v, (s.respond status val nout).setBuf b v =
      (s.setBuf b v).respond status val nout := by cases b <;> exact fun _ => rfl
  unfold State.synthesize
  rw [State.buf_respond, State.respond_cfg]
  split
  · rfl
  · split
    · rfl
    · rw [hset, ha]

theorem execSynOffset_respond (u : SynthSel) (sel : BufSel) (x d : Word) (s : State) :
    execSynOffset u sel x d (s.respond status val nout) = execSynOffset u sel x d s := by
  refine congrArg s.unlessFaulted (congrArg (s.withSynth u) (funext₂ fun kind r => ?_))
  cases targetOf r sel with
  | none => rfl
  | some b => exact s.synthesize_respond fun _ => rfl

theorem execSynUpdate_respond (u : SynthSel) (sel : BufSel) (x a : Word) (s : State) :
    execSynUpdate u sel x a (s.respond status val nout) = execSynUpdate u sel x a s := by
  refine congrArg s.unlessFaulted (congrArg (s.withSynth u) (funext₂ fun kind r => ?_))
  cases targetOf r sel with
  | none => rfl
  | some b => exact s.synthesize_respond fun _ => rfl

theorem State.updateBufs_done_respond (s : State) (bs : List BufUnit)
    (f : BufferUnit → BufferUnit) :
    ((s.respond status val nout).updateBufs bs f).done = (s.updateBufs bs f).done := by
  rw [State.updateBufs_respond]
  rfl

theorem execMbSetSampleRate_respond (r ms : Word) (s : State) :
    execMbSetSampleRate r ms (s.respond status val nout) = execMbSetSampleRate r ms s := by
  simp only [execMbSetSampleRate, State.unlessFaulted_respond, State.respond_cfg, State.buf_respond]
  refine congrArg s.unlessFaulted ?_
  split
  · rfl
  · split
    · rfl
    · exact State.updateBufs_done_respond { s with mbSampleRate := r, mbLengthMs := ms } _ _

theorem execMbClockRate_respond (k : Word) (s : State) :
    execMbClockRate k (s.respond status val nout) = execMbClockRate k s := by
  simp only [execMbClockRate, State.unlessFaulted_respond, State.respond_cfg, State.buf_respond]
  refine congrArg s.unlessFaulted ?_
  split
  · rfl
  · split
    · rfl
    · exact s.updateBufs_done_respond _ _

theorem execMbEndFrame_respond (x : Word) (s : State) :
    execMbEndFrame x (s.respond status val nout) = execMbEndFrame x s := by
  simp only [execMbEndFrame, State.unlessFaulted_respond, State.respond_cfg, State.buf_respond]
  refine congrArg s.unlessFaulted ?_
  split
  · rfl
  · exact s.updateBufs_done_respond _ _

theorem execMbClear_respond (s : State) :
    execMbClear (s.respond status val nout) = execMbClear s := by
  simp only [execMbClear, State.unlessFaulted_respond, State.respond_cfg, State.updateBufs_respond]
  rfl

/-- What a command answers does not depend on the response before it. -/
theorem exec_respond (i : Instr) (s : State) :
    exec i (s.respond status val nout) = exec i s := by
  cases i with
  | setRates b | setLength b | bassFreq b | clear b | toFixed b | deposit b | endFrame b
  | samplesAvail b | readSamples b | removeSilence b | removeSamples b | nonSilent b
  | removeAllSamples b | getFlags b => cases b <;> rfl
  | synOffset => exact execSynOffset_respond _ _ _ _ s
  | synUpdate => exact execSynUpdate_respond _ _ _ _ s
  | mbSetSampleRate => exact execMbSetSampleRate_respond _ _ s
  | mbClockRate => exact execMbClockRate_respond _ s
  | mbBassFreq => exact congrArg s.unlessFaulted (s.updateBufs_done_respond _ _)
  | mbClear => exact execMbClear_respond s
  | mbEndFrame => exact execMbEndFrame_respond _ s
  | _ => rfl

/-! ### Procedures of a unit done twice -/

/-- Updating a unit by `f` a second time changes nothing. -/
def Idempotent (f : BufferUnit → BufferUnit) : Prop := ∀ u, f (f u) = f u

/-- The derived registers are those of the configuration registers, which `reconfigure` keeps
(40_buffer_config.md R104). -/
theorem BufferUnit.reconfigure_reconfigure (c : Config) (u : BufferUnit) :
    (u.reconfigure c).reconfigure c = u.reconfigure c := by
  by_cases h : 0 < u.sampleRate.toNat <;> simp [BufferUnit.reconfigure, BufferUnit.clear, h]

/-- New configuration registers are still there after `reconfigure`, so writing them and
reconfiguring is idempotent. -/
theorem BufferUnit.reconfigure_idempotent {g : BufferUnit → BufferUnit} (c : Config)
    (hg : ∀ u, g ((g u).reconfigure c) = (g u).reconfigure c) :
    Idempotent fun u => (g u).reconfigure c := by
  intro u
  dsimp only
  rw [hg, BufferUnit.reconfigure_reconfigure]

theorem BufferUnit.setBass_idempotent (freq : Word) : Idempotent (BufferUnit.setBass freq) := by
  intro u
  by_cases h : 0 < u.sampleRate.toNat <;> simp [BufferUnit.setBass, h]

theorem BufferUnit.clear_idempotent : Idempotent BufferUnit.clear := fun _ => rfl

/-- Draining every available slot leaves none. -/
theorem BufferUnit.samplesAvail_drain_all (c : Config) (u : BufferUnit) :
    (u.drain c (u.samplesAvail c)).samplesAvail c = 0 := by
  have h := BufferUnit.consume_avail (c := c) (u := u) le_rfl
  rwa [Nat.sub_self] at h

/-! ### Sets of units updated twice -/

/-- A state is its parameters, its buffer and synthesizer units, the registers of no unit, OUT, the
response and what is presented. -/
theorem State.ext_of_parts (hcfg : s.cfg = t.cfg) (hbuf : ∀ b, s.buf b = t.buf b)
    (hsynths : s.synths = t.synths) (hshared : s.shared = t.shared) (hout : s.out = t.out)
    (hresponse : s.response = t.response) (hpending : s.pending = t.pending) : s = t := by
  have hl := hbuf .left
  have hr := hbuf .right
  have hc := hbuf .center
  cases s
  cases t
  simp only [State.shared, SharedRegs.mk.injEq] at hshared
  simp_all

theorem State.updateBufs_updateBufs {bs : List BufUnit} (hn : bs.Nodup)
    {f : BufferUnit → BufferUnit} (hf : Idempotent f) (s : State) :
    (s.updateBufs bs f).updateBufs bs f = s.updateBufs bs f := by
  refine State.ext_of_parts (by simp) (fun b => ?_) (by simp) (by simp) (by simp) (by simp)
    (by simp)
  rw [State.buf_updateBufs hn, State.buf_updateBufs hn]
  by_cases hb : b ∈ bs <;> simp [hb, hf _]

/-! ### When the tests of a command pass, its effect -/

theorem execSetRates_of {k r : Word} (h0 : s.sysFault = 0) (hk : 0 < k.toInt) (hr : 0 < r.toInt)
    (hratio : representable (ratio s.cfg k.toNat r.toNat) = true)
    (hsize : (s.buf b).lengthSet = true →
      sizeFor s.cfg r.toNat (s.buf b).lengthMs.toNat ≤ s.cfg.bufCapacity) :
    execSetRates b k r s = .next ((s.setBuf b (BufferUnit.reconfigure s.cfg
      { s.buf b with clockRate := k, sampleRate := r })).respond .ok 0 0) := by
  unfold execSetRates
  rw [State.unlessFaulted_of_zero h0]
  dsimp only
  rw [if_neg (by omega), if_neg (by simp [hratio]),
    if_neg fun ⟨hl, hlt⟩ => absurd (hsize hl) (by omega)]
  rfl

theorem execSetLength_of {ms : Word} (h0 : s.sysFault = 0)
    (hsize : sizeFor s.cfg (s.buf b).sampleRate.toNat ms.toNat ≤ s.cfg.bufCapacity) :
    execSetLength b ms s = .next ((s.setBuf b (BufferUnit.reconfigure s.cfg
      { s.buf b with lengthMs := ms, lengthSet := true })).respond .ok 0 0) := by
  unfold execSetLength
  rw [State.unlessFaulted_of_zero h0]
  dsimp only
  rw [if_neg (by omega)]
  rfl

theorem execMbSetSampleRate_of {r ms : Word} (h0 : s.sysFault = 0) (hr : 0 < r.toInt)
    (htests : ∀ b ∈ activeSet s.cfg, sampleRateTest s.cfg r ms (s.buf b) = none) :
    execMbSetSampleRate r ms s =
      .next ((State.updateBufs { s with mbSampleRate := r, mbLengthMs := ms } (activeSet s.cfg)
        fun u => BufferUnit.reconfigure s.cfg
          { u with sampleRate := r, lengthMs := ms, lengthSet := true }).respond .ok 0 0) := by
  unfold execMbSetSampleRate
  rw [State.unlessFaulted_of_zero h0, if_neg (by omega), List.findSome?_eq_none_iff.2 htests]
  rfl

theorem execMbClockRate_of {k : Word} (h0 : s.sysFault = 0) (hk : 0 < k.toInt)
    (htests : ∀ b ∈ activeSet s.cfg, clockRateTest s.cfg k (s.buf b) = none) :
    execMbClockRate k s = .next ((s.updateBufs (activeSet s.cfg) fun u =>
      BufferUnit.reconfigure s.cfg { u with clockRate := k }).respond .ok 0 0) := by
  unfold execMbClockRate
  rw [State.unlessFaulted_of_zero h0, if_neg (by omega), List.findSome?_eq_none_iff.2 htests]
  rfl

theorem execRemoveAllSamples_of (h0 : s.sysFault = 0) (hc : (s.buf b).configured = true)
    (hspan : (s.buf b).drainSpan ((s.buf b).samplesAvail s.cfg) ≤ s.cfg.bufCapacity) :
    execRemoveAllSamples b s =
      .next ((s.setBuf b ((s.buf b).drain s.cfg ((s.buf b).samplesAvail s.cfg))).respond .ok
        (BitVec.ofNat 64 ((s.buf b).samplesAvail s.cfg)) 0) := by
  unfold execRemoveAllSamples
  rw [State.unlessFaulted_of_zero h0]
  dsimp only
  rw [if_neg (by simp [hc]), State.removeUnit_of hspan]

/-- A command of a synthesizer unit that exists runs on its registers. -/
theorem State.unlessFaulted_withSynth {u : SynthSel} {kind : SynthKind} {r : SynthUnit}
    (h0 : s.sysFault = 0) (hu : hasSynth s u kind r) (k : SynthKind → SynthUnit → Result) :
    s.unlessFaulted (s.withSynth u k) = k kind r :=
  (State.unlessFaulted_of_zero h0 _).trans (State.withSynth_of hu.1 hu.2 k)

/-- SYN_VOLUME of shift 0 writes the factor alone, on either variant (43_synth.md R164). -/
theorem execSynVolume_shift_zero {u : SynthSel} {f : Word} {kind : SynthKind} {r : SynthUnit}
    (h0 : s.sysFault = 0) (hu : hasSynth s u kind r) :
    execSynVolume u f 0 s = .next ((s.setSynth u { r with deltaFactor := f }).respond .ok 0 0) := by
  refine (State.unlessFaulted_withSynth h0 hu _).trans ?_
  cases kind <;> rfl

/-! ### What a repeated command finds -/

/-- Command `i` changes at most the response of state `t`. -/
def Repeats (i : Instr) (t : State) : Prop :=
  ∃ status val nout, exec i t = .next (t.respond status val nout)

/-- A state after a response stands for the state before it. -/
theorem Repeats.of_effect {status' : Status} {val' : BitVec 64} {nout' : Word}
    (ht : t = s'.respond status val nout)
    (h : exec i s' = .next (s'.respond status' val' nout')) : Repeats i t := by
  subst ht
  exact ⟨status', val', nout', (exec_respond i s').trans h⟩

theorem Repeats.of_respond (h : exec i s = .next t) (ht : t = s.respond status val nout) :
    Repeats i t :=
  .of_effect ht (ht ▸ h)

/-- While a fault is recorded no command changes more than the response (60_exceptions.md R255). -/
theorem Repeats.of_faulted (h : s.sysFault ≠ 0) (i : Instr) : Repeats i s := by
  cases i with
  | getStatus => exact ⟨_, _, _, rfl⟩
  | _ => exact ⟨_, _, _, State.unlessFaulted_of_ne h _⟩

/-- The form of the inversion laws: what is left to show is about the effect. -/
theorem Repeats.of_next {P : Prop} (h : exec i s = .next t)
    (hn : endsWithoutEffect s t ∨ s.sysFault = 0 ∧ P) (hP : s.sysFault = 0 → P → Repeats i t) :
    Repeats i t := by
  rcases hn with (⟨_, _, ht⟩ | ⟨code, _, ht⟩ | ⟨_, ht⟩) | ⟨h0, hp⟩
  · exact .of_respond h ht
  · exact .of_faulted (by rw [ht]; exact code.code_ne_zero) i
  · exact .of_respond h ht
  · exact hP h0 hp

/-- An idempotent effect on one buffer unit. -/
theorem Repeats.of_setBuf {f : BufferUnit → BufferUnit} (hf : Idempotent f)
    (h0 : s.sysFault = 0) (ht : t = (s.setBuf b (f (s.buf b))).respond status val nout)
    (h : ∀ s' : State, s'.sysFault = 0 → s'.cfg = s.cfg → s'.buf b = f (s.buf b) →
      exec i s' = .next ((s'.setBuf b (f (s'.buf b))).respond .ok 0 0)) : Repeats i t := by
  have h' := h (s.setBuf b (f (s.buf b))) (by simpa using h0) (by simp) (by simp)
  rw [State.buf_setBuf_same, hf, State.setBuf_setBuf] at h'
  exact .of_effect ht h'

/-- An idempotent effect on each unit of the active set. -/
theorem Repeats.of_updateActive {f : BufferUnit → BufferUnit} (hf : Idempotent f)
    (ht : t = (s.updateBufs (activeSet s.cfg) f).respond status val nout)
    (h : ∀ s' : State, s'.cfg = s.cfg → s'.shared = s.shared →
      (∀ b ∈ activeSet s.cfg, s'.buf b = f (s.buf b)) →
      exec i s' = .next ((s'.updateBufs (activeSet s.cfg) f).respond .ok 0 0)) : Repeats i t := by
  have hn := activeSet_nodup s.cfg
  have h' := h (s.updateBufs (activeSet s.cfg) f) (by simp) (by simp) fun b hb => by
    rw [State.buf_updateBufs hn, if_pos hb]
  rw [State.updateBufs_updateBufs hn hf] at h'
  exact .of_effect ht h'

theorem State.setSynth_setSynth (s : State) (u : SynthSel) (r r' : SynthUnit) :
    (s.setSynth u r).setSynth u r' = s.setSynth u r' := by
  simp [State.setSynth]

theorem hasSynth_setSynth {u : SynthSel} {kind : SynthKind} {r : SynthUnit}
    (hu : hasSynth s u kind r) (r' : SynthUnit) : hasSynth (s.setSynth u r') u kind r' :=
  ⟨hu.1, by simp [List.getElem?_set_self', hu.2]⟩

/-- An idempotent effect on the synthesizer unit a command names. -/
theorem Repeats.of_setSynth {u : SynthSel} {kind : SynthKind} {r : SynthUnit}
    {g : SynthUnit → SynthUnit} (hg : g (g r) = g r) (h0 : s.sysFault = 0)
    (hu : hasSynth s u kind r) (ht : t = (s.setSynth u (g r)).respond status val nout)
    (h : ∀ (s' : State) (r' : SynthUnit), s'.sysFault = 0 → s'.cfg = s.cfg →
      hasSynth s' u kind r' → exec i s' = .next ((s'.setSynth u (g r')).respond .ok 0 0)) :
    Repeats i t := by
  have h' := h (s.setSynth u (g r)) (g r) h0 rfl (hasSynth_setSynth hu (g r))
  rw [hg, State.setSynth_setSynth] at h'
  exact .of_effect ht h'

/-! ### Reading and removing nothing -/

theorem Repeats.of_readsUnit_zero (h : exec i s = .next t) (hr : readsUnit s t b 0) :
    Repeats i t :=
  .of_respond h
    (by simpa [BufferUnit.drain_zero, BufferUnit.accums, accumsFrom, State.emit] using hr.2)

theorem Repeats.of_removesFrom_zero (h : exec i s = .next t) (hr : removesFrom s t b 0 val) :
    Repeats i t :=
  .of_respond h (by simpa [BufferUnit.drain_zero] using hr.2)

/-- Reading no pairs sets the pair count alone (44_tracked_mixer.md R194). -/
theorem readsPairs_zero {k : Nat} (h : readsPairs s t k 0) :
    t = State.respond { s with samplesRead := 0 } .ok 0 0 := by
  have hmix : s.mixOut 0 = [] := List.eq_nil_of_length_eq_zero (s.mixOut_length 0)
  simpa [BufferUnit.drain_zero, hmix, State.emit] using h.2

/-- READ_PAIRS overwrites the pair count and does not read it. -/
theorem State.readPairs_withSamplesRead {m k : Nat} {n : Word} (h : s.readPairs m k = .next t)
    (ht : t.sysFault = 0) : State.readPairs { s with samplesRead := n } m k = .next t := by
  unfold State.readPairs at h ⊢
  split at h
  · rw [State.raiseFault_next h] at ht
    exact absurd ht (FaultCode.code_ne_zero .notConfigured)
  · next hc =>
    rw [if_neg hc]
    exact h

/-- Reading no pairs twice: on the path of the command (44_tracked_mixer.md R194, 45_multi_buffer.md
R219), which depends on the parameters alone. -/
theorem Repeats.of_readsPairs_zero {k : Nat} (h0 : s.sysFault = 0) (hr : readsPairs s t k 0)
    (h : s.readPairs 0 k = .next t)
    (hexec : ∀ s' : State, s'.sysFault = 0 → s'.cfg = s.cfg → exec i s' = s'.readPairs 0 k) :
    Repeats i t := by
  have ht := readsPairs_zero hr
  have hs := State.readPairs_withSamplesRead (n := 0) h (by rw [ht]; exact h0)
  have h' := (hexec { s with samplesRead := 0 } h0 rfl).trans hs
  rw [ht] at h'
  exact .of_effect ht h'

/-! ### Commands of several cases -/

theorem setRates_repeats {k r : Word} (h : exec (.setRates b k r) s = .next t) :
    Repeats (.setRates b k r) t := by
  have hidem := BufferUnit.reconfigure_idempotent
    (g := ({ · with clockRate := k, sampleRate := r })) s.cfg fun _ => rfl
  refine .of_next h (execSetRates_next h) fun h0 ⟨hk, hr, hratio, hsize, ht⟩ =>
    .of_setBuf hidem h0 ht fun s' h0' hcfg hbuf => ?_
  have h' := execSetRates_of (b := b) h0' hk hr (hcfg ▸ hratio) (by rw [hcfg, hbuf]; exact hsize)
  rwa [hcfg] at h'

theorem setLength_repeats {ms : Word} (h : exec (.setLength b ms) s = .next t) :
    Repeats (.setLength b ms) t := by
  have hidem := BufferUnit.reconfigure_idempotent
    (g := ({ · with lengthMs := ms, lengthSet := true })) s.cfg fun _ => rfl
  refine .of_next h (execSetLength_next h) fun h0 ⟨hsize, ht⟩ =>
    .of_setBuf hidem h0 ht fun s' h0' hcfg hbuf => ?_
  have h' := execSetLength_of (b := b) (ms := ms) h0' (by rw [hcfg, hbuf]; exact hsize)
  rwa [hcfg] at h'

theorem mbClockRate_repeats {k : Word} (h : exec (.mbClockRate k) s = .next t) :
    Repeats (.mbClockRate k) t := by
  have hidem := BufferUnit.reconfigure_idempotent (g := ({ · with clockRate := k })) s.cfg fun _ => rfl
  refine .of_next h (execMbClockRate_next h) fun h0 ⟨hk, htests, ht⟩ =>
    .of_updateActive hidem ht fun s' hcfg hshared hbuf => ?_
  have h0' : s'.sysFault = 0 := (congrArg (·.sysFault) hshared).trans h0
  have htests' : ∀ b ∈ activeSet s'.cfg, clockRateTest s'.cfg k (s'.buf b) = none := by
    rw [hcfg]
    intro b hb
    rw [hbuf b hb]
    exact htests b hb
  have h' := execMbClockRate_of h0' hk htests'
  rwa [hcfg] at h'

theorem mbSetSampleRate_repeats {r ms : Word} (h : exec (.mbSetSampleRate r ms) s = .next t) :
    Repeats (.mbSetSampleRate r ms) t := by
  have hidem := BufferUnit.reconfigure_idempotent
    (g := ({ · with sampleRate := r, lengthMs := ms, lengthSet := true })) s.cfg fun _ => rfl
  refine .of_next h (execMbSetSampleRate_next h) fun h0 ⟨hr, htests, ht⟩ =>
    .of_updateActive (s := { s with mbSampleRate := r, mbLengthMs := ms }) hidem ht
      fun s' hcfg hshared hbuf => ?_
  have h0' : s'.sysFault = 0 := (congrArg (·.sysFault) hshared).trans h0
  have hrate : s'.mbSampleRate = r := congrArg (·.mbSampleRate) hshared
  have hms : s'.mbLengthMs = ms := congrArg (·.mbLengthMs) hshared
  have htests' : ∀ b ∈ activeSet s'.cfg, sampleRateTest s'.cfg r ms (s'.buf b) = none := by
    rw [hcfg]
    intro b hb
    rw [hbuf b hb, State.buf_mbRate]
    exact htests b hb
  have h' := execMbSetSampleRate_of h0' hr htests'
  have hself : { s' with mbSampleRate := r, mbLengthMs := ms } = s' := by rw [← hrate, ← hms]
  rw [hself, hcfg] at h'
  exact h'

theorem mbClear_repeats (h : exec .mbClear s = .next t) : Repeats .mbClear t := by
  refine .of_next h (execMbClear_next h) fun h0 ht => ?_
  rw [← State.updateBufs_withSamplesRead] at ht
  refine .of_updateActive (s := { s with samplesRead := 0 }) BufferUnit.clear_idempotent ht
    fun s' hcfg hshared _ => ?_
  have h0' : s'.sysFault = 0 := (congrArg (·.sysFault) hshared).trans h0
  have hread : s'.samplesRead = 0 := congrArg (·.samplesRead) hshared
  have hself : { s' with samplesRead := 0 } = s' := by rw [← hread]
  have h' : execMbClear s' = _ := State.unlessFaulted_of_zero h0' _
  rw [← State.updateBufs_withSamplesRead, hself, hcfg] at h'
  exact h'

/-- The checks REMOVE_ALL_SAMPLES passed, if it removed samples (44_tracked_mixer.md R192). -/
theorem execRemoveAllSamples_passed (h : execRemoveAllSamples b s = .next t)
    (h0 : s.sysFault = 0) (ht : t.sysFault = 0) :
    (s.buf b).configured = true ∧
      (s.buf b).drainSpan ((s.buf b).samplesAvail s.cfg) ≤ s.cfg.bufCapacity := by
  rw [execRemoveAllSamples, State.unlessFaulted_of_zero h0] at h
  dsimp only at h
  split at h
  · rw [State.raiseFault_next h] at ht
    exact absurd ht (FaultCode.code_ne_zero .notConfigured)
  · next hc =>
    refine ⟨by simpa using hc, ?_⟩
    by_contra hn
    rw [State.removeUnit, State.needSlots, if_neg hn] at h
    cases h

/-- The second removal finds no sample left. -/
theorem removeAllSamples_repeats (h : exec (.removeAllSamples b) s = .next t) :
    Repeats (.removeAllSamples b) t := by
  refine .of_next h (execRemoveAllSamples_next h) fun h0 ⟨_, ht⟩ => ?_
  obtain ⟨hc, hspan⟩ := execRemoveAllSamples_passed h h0 (by simp [ht, h0])
  have hnone := BufferUnit.samplesAvail_drain_all s.cfg (s.buf b)
  have h' := execRemoveAllSamples_of (b := b)
    (s := s.setBuf b ((s.buf b).drain s.cfg ((s.buf b).samplesAvail s.cfg))) (by simp [h0])
    (by simpa [BufferUnit.configured] using hc)
    (by simp [hnone, BufferUnit.drainSpan] at hspan ⊢; exact hspan.1)
  rw [State.setBuf_cfg, State.buf_setBuf_same, hnone, BufferUnit.drain_zero,
    State.setBuf_setBuf] at h'
  exact .of_effect ht h'

theorem synTrebleEq_repeats {u : SynthSel} {eq : Word}
    (h : exec (.synTrebleEq u eq) s = .next t) : Repeats (.synTrebleEq u eq) t := by
  refine .of_next h (execSynTrebleEq_next h) ?_
  rintro h0 ⟨kind, r, hu, ⟨-, ht⟩ | ⟨w, rfl, ht⟩⟩
  · exact .of_respond h ht
  · refine .of_setSynth (g := ({ · with
      taps := kernelTable s.cfg eq w
      kernelUnit := BitVec.ofNat 32 s.cfg.kernelUnitBase })) rfl h0 hu ht
      fun s' r' h0' hcfg hu' => ?_
    have h' : execSynTrebleEq u eq s' = _ := State.unlessFaulted_withSynth h0' hu' _
    rw [hcfg] at h'
    exact h'

theorem synVolume_zero_repeats {u : SynthSel} {f : Word}
    (h : exec (.synVolume u f 0) s = .next t) : Repeats (.synVolume u f 0) t := by
  refine .of_next h (execSynVolume_next h) ?_
  rintro h0 ⟨kind, r, hu, -, ⟨-, ht⟩ | ⟨w, -, hsh, -⟩⟩
  · exact .of_setSynth (g := ({ · with deltaFactor := f })) rfl h0 hu ht
      fun _ _ h0' _ hu' => execSynVolume_shift_zero h0' hu'
  · exact absurd hsh (by decide)

theorem mbReadSamples_zero_repeats (h : exec (.mbReadSamples 0) s = .next t) :
    Repeats (.mbReadSamples 0) t := by
  refine .of_next h (execMbReadSamples_next h) ?_
  rintro h0 (⟨-, hr⟩ | ⟨hc, hr⟩ | ⟨-, ht⟩)
  · rw [show (0 : Word).toNat = 0 from rfl, Nat.zero_min] at hr
    exact .of_readsUnit_zero h hr
  · have hpath : ∀ s' : State, s'.sysFault = 0 → s'.cfg = s.cfg →
        exec (.mbReadSamples 0) s' = s'.readPairs 0 2 := by
      intro s' h0' hcfg
      have h' : execMbReadSamples 0 s' = _ := State.unlessFaulted_of_zero h0' _
      rw [hcfg, hc] at h'
      exact h'
    rw [show (0 : Word).toNat / 2 = 0 from rfl, Nat.zero_min] at hr
    exact .of_readsPairs_zero h0 hr ((hpath s h0 rfl).symm.trans h) hpath
  · exact .of_respond h ht

theorem readPairs_zero_repeats (h : exec (.readPairs 0) s = .next t) :
    Repeats (.readPairs 0) t := by
  refine .of_next h (execReadPairs_next h) fun h0 hr => ?_
  have hpath : ∀ s' : State, s'.sysFault = 0 → s'.cfg = s.cfg →
      exec (.readPairs 0) s' = s'.readPairs 0 1 :=
    fun s' h0' _ => State.unlessFaulted_of_zero h0' _
  rw [show (0 : Word).toNat = 0 from rfl, Nat.zero_min] at hr
  exact .of_readsPairs_zero h0 hr ((hpath s h0 rfl).symm.trans h) hpath

/-! ### Every command of the list -/

theorem repeats_of_idempotent (hi : i.idempotent = true) (h : exec i s = .next t) :
    Repeats i t := by
  cases i with
  | setRates => exact setRates_repeats h
  | setLength => exact setLength_repeats h
  | bassFreq b freq =>
    exact .of_next h (execBassFreq_next h) fun h0 ht =>
      .of_setBuf (BufferUnit.setBass_idempotent freq) h0 ht fun _ h0' _ _ =>
        State.unlessFaulted_of_zero h0' _
  | clear =>
    exact .of_next h (execClear_next h) fun h0 ht =>
      .of_setBuf BufferUnit.clear_idempotent h0 ht fun _ h0' _ _ => State.unlessFaulted_of_zero h0' _
  | toFixed => exact .of_next h (execToFixed_next h) fun _ => .of_respond h
  | samplesAvail => exact .of_next h (execSamplesAvail_next h) fun _ => .of_respond h
  | readSamples b n =>
    obtain rfl : n = 0 := eq_of_beq hi
    refine .of_next h (execReadSamples_next h) fun _ hr => .of_readsUnit_zero (b := b) h ?_
    rwa [show (0 : Word).toNat = 0 from rfl, Nat.zero_min] at hr
  | removeSilence b n =>
    obtain rfl : n = 0 := eq_of_beq hi
    exact .of_next h (execRemoveSilence_next h) fun _ ⟨_, hr⟩ => .of_removesFrom_zero h hr
  | removeSamples b n =>
    obtain rfl : n = 0 := eq_of_beq hi
    exact .of_next h (execRemoveSamples_next h) fun _ hr => .of_removesFrom_zero h hr
  | nonSilent => exact .of_next h (execNonSilent_next h) fun _ => .of_respond h
  | removeAllSamples => exact removeAllSamples_repeats h
  | getFlags => exact .of_next h (execGetFlags_next h) fun _ => .of_respond h
  | synOutput u route =>
    exact .of_next h (execSynOutput_next h) fun h0 ⟨_, _, hu, ht⟩ =>
      .of_setSynth (g := ({ · with out := route })) rfl h0 hu ht fun _ _ h0' _ hu' =>
        State.unlessFaulted_withSynth h0' hu' _
  | synVolume u f sh =>
    obtain rfl : sh = 0 := eq_of_beq hi
    exact synVolume_zero_repeats h
  | synTrebleEq => exact synTrebleEq_repeats h
  | synSetAmp u a =>
    exact .of_next h (execSynSetAmp_next h) fun h0 ⟨_, _, hu, ht⟩ =>
      .of_setSynth (g := ({ · with lastAmp := a })) rfl h0 hu ht fun _ _ h0' _ hu' =>
        State.unlessFaulted_withSynth h0' hu' _
  | readPairs n =>
    obtain rfl : n = 0 := eq_of_beq hi
    exact readPairs_zero_repeats h
  | mbChannel =>
    exact .of_next h (execMbChannel_next h) fun _ ⟨_, _, _, ht⟩ => .of_respond h ht
  | mbSetSampleRate => exact mbSetSampleRate_repeats h
  | mbClockRate => exact mbClockRate_repeats h
  | mbBassFreq freq =>
    refine .of_next h (execMbBassFreq_next h) fun h0 ht =>
      .of_updateActive (BufferUnit.setBass_idempotent freq) ht fun s' hcfg hshared _ => ?_
    have h0' : s'.sysFault = 0 := (congrArg (·.sysFault) hshared).trans h0
    have h' : execMbBassFreq freq s' = _ := State.unlessFaulted_of_zero h0' _
    rw [hcfg] at h'
    exact h'
  | mbClear => exact mbClear_repeats h
  | mbReadSamples n =>
    obtain rfl : n = 0 := eq_of_beq hi
    exact mbReadSamples_zero_repeats h
  | mbSamplesAvail =>
    exact .of_next h (execMbSamplesAvail_next h) fun _ ⟨_, ht⟩ => .of_respond h ht
  | mbChanged => exact .of_next h (execMbChanged_next h) fun _ => .of_respond h
  | getStatus => exact .of_respond h (execGetStatus_next h)
  | deposit => cases hi
  | endFrame => cases hi
  | synOffset => cases hi
  | synUpdate => cases hi
  | mbSetChannelCount => cases hi
  | mbSetChannelType => cases hi
  | mbEndFrame => cases hi

/-- Settles O19: each listed command, issued again, changes at most the response. -/
theorem listedCommandsAreIdempotent : Obligations.ListedCommandsAreIdempotent := by
  intro i s t hi h
  obtain ⟨status, val, nout, h'⟩ := repeats_of_idempotent hi h
  exact ⟨_, h', rfl⟩

end Sys2Proof.Machine
end

section
/-! PROOFS. Legal frames (30_encoding.md R81, R86, R87). A legal header selects one function from the
operand words to commands (`Selects`), and what a row of the opcode map says of its commands is proved
once, over the rows. -/

namespace Sys2Proof

open Machine

variable {c : Config} {f : Frame} {i : Instr} {op : BitVec 8} {u : SynthSel} {sel : BitVec 3}
  {shape : Shape} {mk : Word → Word → Instr}

/-- Settles O1, format by format. -/
theorem decodeEncodeAgree : Obligations.DecodeEncodeAgree :=
  fun _ _ hi => decodeFrame_encode hi

/-! ### What a legal header selects (R81, R85, R86) -/

/-- What a row of the opcode map reads from the unit and selector fields that pass its checks: the
command as a function of the operand words. -/
inductive Shape.Selects (c : Config) :
    Shape → BitVec 4 → BitVec 3 → (Word → Word → Instr) → Prop
  | u (mk : BufUnit → Word → Word → Instr) (b : BufUnit) : Selects c (.u mk) b.code 0 (mk b)
  | s (mk : SynthSel → Word → Word → Instr) {u : SynthSel} (hu : SynthSel.inRange c u = true) :
      Selects c (.s mk) u 0 (mk u)
  | sb (mk : SynthSel → BufSel → Word → Word → Instr) {u : SynthSel} (k : BufSel)
      (hu : SynthSel.inRange c u = true) : Selects c (.sb mk) u k.code (mk u k)
  | output (mk : SynthSel → Route → Instr) {u : SynthSel} (r : Route)
      (hu : SynthSel.inRange c u = true) :
      Selects c (.output mk) u (BufSel.explicit r).code fun _ _ => mk u r
  | n (mk : Word → Word → Instr) : Selects c (.n mk) 0 0 mk

theorem Shape.Selects.decodeShape (h : shape.Selects c u sel mk) (a b : Word) :
    decodeShape c u sel a b shape = .ok (mk a b) := by
  cases h with
  | u => simp [Sys2Proof.decodeShape]
  | s _ hu | sb _ _ hu | output _ _ hu => simp [Sys2Proof.decodeShape, decodeSynthSel, hu]
  | n => simp [Sys2Proof.decodeShape]

/-- The checks of R86 (c) to (h) that pass are those `Selects` names. -/
theorem exists_selects_of_decodeShape {a b : Word} (h : decodeShape c u sel a b shape = .ok i) :
    ∃ mk, shape.Selects c u sel mk ∧ mk a b = i := by
  cases shape with
  | u mk =>
    obtain ⟨rfl, b', hb, rfl⟩ : sel = 0 ∧ ∃ b', bufUnitOf u = some b' ∧ mk b' a b = i := by
      grind [decodeShape]
    rw [bufUnitOf_eq_some hb]
    exact ⟨_, .u mk b', rfl⟩
  | s mk =>
    obtain ⟨rfl, hu, rfl⟩ : sel = 0 ∧ SynthSel.inRange c u = true ∧ mk u a b = i := by
      grind [decodeShape, decodeSynthSel]
    exact ⟨_, .s mk hu, rfl⟩
  | sb mk =>
    obtain ⟨hu, k, hk, rfl⟩ :
        SynthSel.inRange c u = true ∧ ∃ k, bufSelOf sel = some k ∧ mk u k a b = i := by
      grind [decodeShape, decodeSynthSel]
    rw [bufSelOf_eq_some hk]
    exact ⟨_, .sb mk k hu, rfl⟩
  | output mk =>
    obtain ⟨hu, r, hr, rfl⟩ :
        SynthSel.inRange c u = true ∧ ∃ r, bufSelOf sel = some (.explicit r) ∧ mk u r = i := by
      grind [decodeShape, decodeSynthSel]
    rw [bufSelOf_eq_some hr]
    exact ⟨_, .output mk r hu, rfl⟩
  | n mk =>
    obtain ⟨rfl, rfl, rfl⟩ : u = 0 ∧ sel = 0 ∧ mk a b = i := by grind [decodeShape]
    exact ⟨_, .n mk, rfl⟩

theorem lookup_opcodeMap_iff : opcodeMap.lookup op = some shape ↔ (op, shape) ∈ opcodeMap := by
  have hrows : opcodeMap.map (fun p => opcodeMap.lookup p.1) = opcodeMap.map (some ·.2) := rfl
  refine ⟨fun h => ?_, List.map_inj_left.1 hrows (op, shape)⟩
  obtain ⟨l, l', hl, -⟩ := List.lookup_eq_some_iff.1 h
  simp [hl]

/-- The header word of a frame selects a command, as a function of the operand words. -/
def Selects (c : Config) (w0 : Word) (mk : Word → Word → Instr) : Prop :=
  ∃ op u sel shape, w0 = headerOf op u sel ∧ (op, shape) ∈ opcodeMap ∧ shape.Selects c u sel mk

theorem Selects.decodeFrame {w0 : Word} (h : Selects c w0 mk) (a b : Word) :
    decodeFrame c (Frame.ofWords w0 a b) = .ok (mk a b) := by
  obtain ⟨op, u, sel, shape, rfl, hmem, hsel⟩ := h
  rw [decodeFrame_headerOf (lookup_opcodeMap_iff.2 hmem), hsel.decodeShape]

/-- A frame decodes to what its header selects, at its operand words. -/
theorem decodeFrame_eq_ok_iff :
    decodeFrame c f = .ok i ↔ ∃ mk, Selects c f.header mk ∧ mk f.operandA f.operandB = i := by
  constructor
  · intro h
    unfold decodeFrame at h
    split at h
    · cases h
    · next hrsv =>
      split at h
      · cases h
      · next shape hshape =>
        obtain ⟨mk, hmk, hi⟩ := exists_selects_of_decodeShape h
        exact ⟨mk, ⟨_, _, _, shape, (headerOf_fields f (not_not.1 hrsv)).symm,
          lookup_opcodeMap_iff.1 hshape, hmk⟩, hi⟩
  · rintro ⟨mk, hmk, rfl⟩
    rw [← hmk.decodeFrame, ofWords_words]

/-! ### What a row of the opcode map says of its commands (R80, R81, R87) -/

/-- A word a command may not use: the word itself where it is used, another one where it is not. -/
def usedOr (used : Bool) (x other : Word) : Word := if used then x else other

@[simp] theorem usedOr_true (x other : Word) : usedOr true x other = x := rfl

theorem usedOr_eq_other {used : Bool} {x other : Word} (h : used = true → other = x) :
    usedOr used x other = other := by
  cases used with
  | false => rfl
  | true => exact (h rfl).symm

/-- The format of a row: SYN_OUTPUT, a shape of its own, has format SB (R81). -/
def Shape.format : Shape → Format
  | .u _ => .u
  | .s _ => .s
  | .sb _ | .output _ => .sb
  | .n _ => .n

/-- What the command of a row is, at every operand word: well formed, of the row's format and opcode,
encoded with the row's header, and the same whatever an unused word holds (R81). -/
structure RowLaws (c : Config) (op : BitVec 8) (shape : Shape) (u : BitVec 4) (sel : BitVec 3)
    (mk : Word → Word → Instr) : Prop where
  wellFormed (a b : Word) : (mk a b).wellFormed c = true
  formatOf (a b : Word) : formatOf (mk a b) = shape.format
  matchWordOf (a b : Word) : matchWordOf (mk a b) = op.setWidth 32
  encode (a b : Word) : encode (mk a b) =
    Frame.ofWords (headerOf op u sel) (usedOr (mk a b).usesA a 0) (usedOr (mk a b).usesB b 0)
  ignores (a b a' b' : Word) :
    mk (usedOr (mk a b).usesA a a') (usedOr (mk a b).usesB b b') = mk a b

/-- Format by format and row by row; only a synthesizer row has a check of well-formedness to pass. -/
theorem rowLaws (hmem : (op, shape) ∈ opcodeMap) (hsel : shape.Selects c u sel mk) :
    RowLaws c op shape u sel mk := by
  simp only [opcodeMap, List.cons_append, List.nil_append, List.mem_cons, List.not_mem_nil,
    Prod.mk.injEq, or_false] at hmem
  cases hsel with
  | u mk b =>
    simp only [Shape.u.injEq, reduceCtorEq, and_false, or_false] at hmem
    casesm* _ ∨ _, _ ∧ _ <;> subst_vars <;>
      exact ⟨fun _ _ => rfl, fun _ _ => rfl, fun _ _ => rfl, fun _ _ => rfl, fun _ _ _ _ => rfl⟩
  | s mk hu | sb mk k hu | output mk r hu =>
    simp only [Shape.s.injEq, Shape.sb.injEq, Shape.output.injEq, reduceCtorEq, and_false, or_false,
      false_or] at hmem
    casesm* _ ∨ _, _ ∧ _ <;> subst_vars <;>
      exact ⟨fun _ _ => hu, fun _ _ => rfl, fun _ _ => rfl, fun _ _ => rfl, fun _ _ _ _ => rfl⟩
  | n mk =>
    simp only [Shape.n.injEq, reduceCtorEq, and_false, false_or] at hmem
    casesm* _ ∨ _, _ ∧ _ <;> subst_vars <;>
      exact ⟨fun _ _ => rfl, fun _ _ => rfl, fun _ _ => rfl, fun _ _ => rfl, fun _ _ _ _ => rfl⟩

/-- Settles O2: the command of a row is encoded with the row's header and the words it uses. -/
theorem decodedCommandReencodes : Obligations.DecodedCommandReencodes := by
  intro c f i h
  obtain ⟨mk, ⟨op, u, sel, shape, hheader, hmem, hsel⟩, rfl⟩ := decodeFrame_eq_ok_iff.1 h
  have hrow := rowLaws hmem hsel
  rw [hrow.encode, hheader]
  refine ⟨hrow.wellFormed _ _, header_ofWords _ _ _, fun hA => ?_, fun hB => ?_⟩
  · simp [hA]
  · simp [hB]

/-- Settles O3: the header selects the same function, which ignores the words its command does not
use. -/
theorem unusedWordsAreIgnored : Obligations.UnusedWordsAreIgnored := by
  intro c f i a b h hA hB
  obtain ⟨mk, hmk, rfl⟩ := decodeFrame_eq_ok_iff.1 h
  have ⟨op, u, sel, shape, _, hmem, hsel⟩ := hmk
  have hignores := (rowLaws hmem hsel).ignores f.operandA f.operandB a b
  rw [usedOr_eq_other hA, usedOr_eq_other hB] at hignores
  rw [hmk.decodeFrame, hignores]

/-! ### The fields of a header as numbers (R81) -/

theorem field_of_header (f : Frame) {start len : Nat} (h : start + len ≤ 32) :
    f.header.toNat / 2 ^ start % 2 ^ len = (f.extractLsb' start len).toNat := by
  rw [← BitVec.extractLsb'_extractLsb'_of_le h, BitVec.extractLsb'_toNat,
    Nat.shiftRight_eq_div_pow, Frame.header]

theorem header_mod_opcode (f : Frame) : f.header.toNat % 256 = f.opcode.toNat := by
  simpa [Frame.opcode] using field_of_header f (start := 0) (len := 8) (by omega)

theorem header_div_unitField (f : Frame) : f.header.toNat / 256 % 16 = f.unitField.toNat :=
  field_of_header f (start := 8) (len := 4) (by omega)

theorem header_div_selField (f : Frame) : f.header.toNat / 4096 % 8 = f.selField.toNat :=
  field_of_header f (start := 12) (len := 3) (by omega)

/-- The reserved bits are the last of the word, so the quotient is the field. -/
theorem header_div_reserved (f : Frame) : f.header.toNat / 32768 = f.reserved.toNat :=
  have hlt := f.header.isLt
  (Nat.mod_eq_of_lt (by omega)).symm.trans
    (field_of_header f (start := 15) (len := 17) (by omega))

/-! ### The checks of R86 -/

/-- The checks of R86 (c) to (h) that a row makes of the unit and selector fields. -/
def Shape.Legal (c : Config) (u : BitVec 4) (sel : BitVec 3) : Shape → Prop
  | .u _ => u.toNat < 3 ∧ sel = 0
  | .s _ => u.toNat < c.nsynth ∧ sel = 0
  | .sb _ => u.toNat < c.nsynth ∧ sel.toNat < 5
  | .output _ => u.toNat < c.nsynth ∧ sel.toNat < 4
  | .n _ => u = 0 ∧ sel = 0

theorem inRange_iff : SynthSel.inRange c u = true ↔ u.toNat < c.nsynth := by
  simp [SynthSel.inRange]

theorem bufUnit_code_lt (b : BufUnit) : b.code.toNat < 3 := by cases b <;> decide

theorem bufSel_code_lt (k : BufSel) : k.code.toNat < 5 := by
  rcases k with (_ | (_ | _ | _)) | _ <;> decide

theorem explicit_code_lt (r : Route) : (BufSel.explicit r).code.toNat < 4 := by
  rcases r with _ | (_ | _ | _) <;> decide

theorem exists_bufUnit_code {u : BitVec 4} (h : u.toNat < 3) : ∃ b : BufUnit, u = b.code := by
  have hsome : (bufUnitOf u).isSome := by revert u; decide
  obtain ⟨b, hb⟩ := Option.isSome_iff_exists.1 hsome
  exact ⟨b, bufUnitOf_eq_some hb⟩

theorem exists_bufSel_code (h : sel.toNat < 5) : ∃ k : BufSel, sel = k.code := by
  have hsome : (bufSelOf sel).isSome := by revert sel; decide
  obtain ⟨k, hk⟩ := Option.isSome_iff_exists.1 hsome
  exact ⟨k, bufSelOf_eq_some hk⟩

theorem exists_explicit_code (h : sel.toNat < 4) : ∃ r, sel = (BufSel.explicit r).code := by
  obtain ⟨r | _, hk⟩ := exists_bufSel_code (Nat.lt_succ_of_lt h)
  · exact ⟨r, hk⟩
  · subst hk
    exact absurd h (by decide)

theorem Shape.exists_selects_iff : (∃ mk, shape.Selects c u sel mk) ↔ shape.Legal c u sel := by
  constructor
  · rintro ⟨mk, h⟩
    cases h with
    | u _ b => exact ⟨bufUnit_code_lt b, rfl⟩
    | s _ hu => exact ⟨inRange_iff.1 hu, rfl⟩
    | sb _ k hu => exact ⟨inRange_iff.1 hu, bufSel_code_lt k⟩
    | output _ r hu => exact ⟨inRange_iff.1 hu, explicit_code_lt r⟩
    | n => exact ⟨rfl, rfl⟩
  · intro h
    cases shape with
    | u mk =>
      obtain ⟨hu, rfl⟩ := h
      obtain ⟨b, rfl⟩ := exists_bufUnit_code hu
      exact ⟨_, .u mk b⟩
    | s mk =>
      obtain ⟨hu, rfl⟩ := h
      exact ⟨_, .s mk (inRange_iff.2 hu)⟩
    | sb mk =>
      obtain ⟨hu, hsel⟩ := h
      obtain ⟨k, rfl⟩ := exists_bufSel_code hsel
      exact ⟨_, .sb mk k (inRange_iff.2 hu)⟩
    | output mk =>
      obtain ⟨hu, hsel⟩ := h
      obtain ⟨r, rfl⟩ := exists_explicit_code hsel
      exact ⟨_, .output mk r (inRange_iff.2 hu)⟩
    | n mk =>
      obtain ⟨rfl, rfl⟩ := h
      exact ⟨_, .n mk⟩

theorem exists_decodeFrame_iff : (∃ i, decodeFrame c f = .ok i) ↔
    f.reserved = 0 ∧ ∃ shape, (f.opcode, shape) ∈ opcodeMap ∧
      shape.Legal c f.unitField f.selField := by
  constructor
  · rintro ⟨i, h⟩
    obtain ⟨mk, ⟨op, u, sel, shape, hheader, hmem, hsel⟩, -⟩ := decodeFrame_eq_ok_iff.1 h
    rw [← ofWords_words f, hheader, reserved_headerOf, opcode_headerOf, unitField_headerOf,
      selField_headerOf]
    exact ⟨rfl, shape, hmem, Shape.exists_selects_iff.1 ⟨mk, hsel⟩⟩
  · rintro ⟨hrsv, shape, hmem, hlegal⟩
    obtain ⟨mk, hmk⟩ := Shape.exists_selects_iff.2 hlegal
    exact ⟨_, decodeFrame_eq_ok_iff.2
      ⟨mk, ⟨_, _, _, shape, (headerOf_fields f hrsv).symm, hmem, hmk⟩, rfl⟩⟩

/-! ### The opcodes of each format (R80) -/

theorem opcodesOf_eq (k : Format) :
    opcodesOf k = (opcodeMap.filter (·.2.format = k)).map (·.1.toNat) := by
  cases k <;> rfl

theorem mem_opcodesOf_iff_exists {n : Nat} {k : Format} :
    n ∈ opcodesOf k ↔ ∃ op shape, (op, shape) ∈ opcodeMap ∧ shape.format = k ∧ op.toNat = n := by
  simp [opcodesOf_eq, and_assoc]

/-- An opcode has one row, so one format. -/
theorem mem_opcodesOf_iff (hmem : (op, shape) ∈ opcodeMap) (k : Format) :
    op.toNat ∈ opcodesOf k ↔ shape.format = k := by
  rw [mem_opcodesOf_iff_exists]
  constructor
  · rintro ⟨op', shape', hmem', hk, hop⟩
    obtain rfl := BitVec.eq_of_toNat_eq hop
    rw [← lookup_opcodeMap_iff] at hmem hmem'
    obtain rfl := Option.some.inj (hmem.symm.trans hmem')
    exact hk
  · exact fun hk => ⟨op, shape, hmem, hk, rfl⟩

theorem opcode_eq_synOutput_iff (hmem : (op, shape) ∈ opcodeMap) :
    op.toNat = 0x20 ↔ ∃ mk, shape = .output mk := by
  constructor
  · intro hop
    obtain rfl : op = 0x20#8 := BitVec.eq_of_toNat_eq hop
    exact ⟨_, Option.some.inj (lookup_opcodeMap_iff.2 hmem).symm⟩
  · rintro ⟨mk, rfl⟩
    obtain ⟨rfl, -⟩ : op = 0x20#8 ∧ mk = .synOutput := by simpa [opcodeMap] using hmem
    rfl

/-! ### Illegal headers (R86) -/

theorem toNat_ne_zero_iff {w : Nat} {x : BitVec w} : x.toNat ≠ 0 ↔ x ≠ 0 := by
  simp [BitVec.toNat_eq]

/-- The range checks (e) to (h) with what the masks of R87 fix, (c) and (d), are the row's checks. -/
theorem legal_iff_not_failsRangeCheck (hmem : (f.opcode, shape) ∈ opcodeMap) :
    shape.Legal c f.unitField f.selField ↔
      (shape.format = .n → f.unitField = 0) ∧ (shape.format ≠ .sb → f.selField = 0) ∧
      ¬ failsRangeCheck c f.header.toNat := by
  simp only [failsRangeCheck, header_mod_opcode, header_div_unitField, header_div_selField,
    mem_opcodesOf_iff hmem, opcode_eq_synOutput_iff hmem]
  cases shape with
  | u mk => simp [Shape.Legal, Shape.format, and_comm]
  | s mk => simp [Shape.Legal, Shape.format, and_comm]
  | sb mk => simp [Shape.Legal, Shape.format]
  | output mk =>
    simp only [Shape.Legal, Shape.format]
    grind
  | n mk => simp [Shape.Legal, Shape.format]

/-- The clauses of R86 for a known opcode. -/
theorem not_illegalHeader_iff (hmem : (f.opcode, shape) ∈ opcodeMap) :
    ¬ illegalHeader c f.header.toNat ↔
      f.reserved = 0 ∧ shape.Legal c f.unitField f.selField := by
  have hclauses : illegalHeader c f.header.toNat ↔
      f.reserved.toNat ≠ 0 ∨ (∀ k, f.opcode.toNat ∉ opcodesOf k) ∨
      (f.opcode.toNat ∈ opcodesOf .n ∧ f.unitField.toNat ≠ 0) ∨
      (f.opcode.toNat ∉ opcodesOf .sb ∧ f.selField.toNat ≠ 0) ∨
      failsRangeCheck c f.header.toNat := by
    rw [← header_mod_opcode, ← header_div_unitField, ← header_div_selField, ← header_div_reserved]
    exact Iff.rfl
  rw [hclauses, legal_iff_not_failsRangeCheck hmem]
  have hknown : ¬ ∀ k, shape.format ≠ k := fun h => h _ rfl
  simp only [mem_opcodesOf_iff hmem, toNat_ne_zero_iff, hknown, false_or, not_or, not_and, not_not,
    ne_eq]

theorem exists_decodeFrame_iff_not_illegalHeader :
    (∃ i, decodeFrame c f = .ok i) ↔ ¬ illegalHeader c f.header.toNat := by
  rw [exists_decodeFrame_iff]
  constructor
  · rintro ⟨hrsv, shape, hmem, hlegal⟩
    exact (not_illegalHeader_iff hmem).2 ⟨hrsv, hlegal⟩
  · intro h
    have hknown : ∃ k, f.opcode.toNat ∈ opcodesOf k := by
      by_contra hnone
      refine h (.inr (.inl ?_))
      rw [header_mod_opcode]
      exact not_exists.1 hnone
    obtain ⟨k, hk⟩ := hknown
    obtain ⟨op, shape, hmem, -, hop⟩ := mem_opcodesOf_iff_exists.1 hk
    obtain rfl := BitVec.eq_of_toNat_eq hop
    obtain ⟨hrsv, hlegal⟩ := (not_illegalHeader_iff hmem).1 h
    exact ⟨hrsv, shape, hmem, hlegal⟩

/-- Settles O5: a legal frame is one whose row's checks pass; an illegal one decodes to an error,
which the step answers; no opcode is 0. -/
theorem illegalFramesAreAnswered : Obligations.IllegalFramesAreAnswered := by
  refine ⟨fun c f => exists_decodeFrame_iff_not_illegalHeader, fun s f rest hp hillegal => ?_,
    fun c => .inr (.inl fun k => ?_)⟩
  · cases hd : decodeFrame s.cfg f with
    | ok i => exact absurd hillegal (exists_decodeFrame_iff_not_illegalHeader.1 ⟨i, hd⟩)
    | error e => exact step_of_illegal hp hd
  · cases k <;> decide

/-! ### The rows of the opcode table (R87) -/

theorem mem_tableRows_iff {p : Word × Word} :
    p ∈ tableRows ↔
      ∃ op shape, (op, shape) ∈ opcodeMap ∧ (op.setWidth 32, maskOf shape.format) = p := by
  have hrows : p ∈ tableRows ↔ ∃ k, ∃ n ∈ opcodesOf k, (BitVec.ofNat 32 n, maskOf k) = p := by
    have hall (k : Format) : k ∈ [Format.u, .s, .sb, .n] := by cases k <;> decide
    simp only [tableRows, List.mem_flatMap, List.mem_map, hall, true_and]
  rw [hrows]
  constructor
  · rintro ⟨k, n, hn, rfl⟩
    obtain ⟨op, shape, hmem, rfl, rfl⟩ := mem_opcodesOf_iff_exists.1 hn
    exact ⟨op, shape, hmem, by rw [BitVec.ofNat_toNat]⟩
  · rintro ⟨op, shape, hmem, rfl⟩
    exact ⟨shape.format, op.toNat, (mem_opcodesOf_iff hmem _).2 rfl, by rw [BitVec.ofNat_toNat]⟩

/-- Where a mask is all ones, a field of a header that matches is that of the match word. -/
theorem field_of_masked {w m v : Word} {start len : Nat} (h : w &&& m = v)
    (hm : m.extractLsb' start len = BitVec.allOnes len) :
    w.extractLsb' start len = v.extractLsb' start len := by
  rw [← h, BitVec.extractLsb'_and, hm, BitVec.and_allOnes]

theorem maskOf_opcode (k : Format) : (maskOf k).extractLsb' 0 8 = BitVec.allOnes 8 := by
  cases k <;> decide

/-- Every mask keeps the opcode, and no two rows share one. -/
theorem tableRows_disjoint :
    tableRows.Pairwise fun p q => ∀ w0 : Word, w0 &&& p.2 = p.1 → w0 &&& q.2 ≠ q.1 := by
  have hopcodes : tableRows.Pairwise fun p q => p.1.extractLsb' 0 8 ≠ q.1.extractLsb' 0 8 := by
    decide
  have hopcode {p : Word × Word} (hp : p ∈ tableRows) {w0 : Word} (h : w0 &&& p.2 = p.1) :
      w0.extractLsb' 0 8 = p.1.extractLsb' 0 8 := by
    obtain ⟨op, shape, -, rfl⟩ := mem_tableRows_iff.1 hp
    exact field_of_masked h (maskOf_opcode _)
  exact hopcodes.imp_of_mem fun hp hq hne w0 hwp hwq =>
    hne ((hopcode hp hwp).symm.trans (hopcode hq hwq))

theorem opcode_matchWord (op : BitVec 8) : (op.setWidth 32).extractLsb' 0 8 = op := by
  apply BitVec.eq_of_getLsbD_eq
  intro i hi
  simp [hi, show i < 32 by omega]

/-- Above the opcode a match word is 0. -/
theorem field_matchWord_of_le {start len : Nat} (h : 8 ≤ start) :
    (op.setWidth 32).extractLsb' start len = 0 := by
  apply BitVec.eq_of_getLsbD_eq
  intro i _
  simp [show 8 ≤ start + i by omega]

/-- The masks fix what R86 (a) to (d) ask of a header. -/
theorem fields_of_masked (h : f.header &&& maskOf shape.format = op.setWidth 32) :
    f.opcode = op ∧ f.reserved = 0 ∧ (shape.format = .n → f.unitField = 0) ∧
      (shape.format ≠ .sb → f.selField = 0) := by
  have field (start len : Nat) (hlen : start + len ≤ 32)
      (hm : (maskOf shape.format).extractLsb' start len = BitVec.allOnes len) :
      f.extractLsb' start len = (op.setWidth 32).extractLsb' start len := by
    rw [← field_of_masked h hm, Frame.header, BitVec.extractLsb'_extractLsb'_of_le hlen]
  refine ⟨?_, ?_, fun hk => ?_, fun hk => ?_⟩
  · exact (field 0 8 (by omega) (maskOf_opcode _)).trans (opcode_matchWord op)
  · refine (field 15 17 (by omega) ?_).trans (field_matchWord_of_le (by omega))
    cases shape.format <;> decide
  · refine (field 8 4 (by omega) ?_).trans (field_matchWord_of_le (by omega))
    rw [hk]
    decide
  · refine (field 12 3 (by omega) ?_).trans (field_matchWord_of_le (by omega))
    cases hformat : shape.format with
    | sb => exact absurd hformat hk
    | u | s | n => decide

/-- The row of what a header selects matches the header. -/
theorem Shape.Selects.header_masked (h : shape.Selects c u sel mk) (op : BitVec 8) :
    headerOf op u sel &&& maskOf shape.format = op.setWidth 32 := by
  cases h with
  | u _ b => exact headerS_masked op b.code
  | s => exact headerS_masked op u
  | sb | output => exact headerSB_masked op u _
  | n => exact headerN_masked op

theorem row_of_decodeFrame (h : decodeFrame c f = .ok i) :
    (matchWordOf i, maskOf (formatOf i)) ∈ tableRows ∧
      f.header &&& maskOf (formatOf i) = matchWordOf i := by
  obtain ⟨mk, ⟨op, u, sel, shape, hheader, hmem, hsel⟩, rfl⟩ := decodeFrame_eq_ok_iff.1 h
  have hrow := rowLaws hmem hsel
  rw [hrow.matchWordOf, hrow.formatOf, hheader]
  exact ⟨mem_tableRows_iff.2 ⟨op, shape, hmem, rfl⟩, hsel.header_masked op⟩

/-- Of a frame a row matches, only the range checks decide. -/
theorem exists_decodeFrame_iff_of_row {p : Word × Word} (hp : p ∈ tableRows)
    (h : f.header &&& p.2 = p.1) :
    (∃ i, decodeFrame c f = .ok i) ↔ ¬ failsRangeCheck c f.header.toNat := by
  obtain ⟨op, shape, hmem, rfl⟩ := mem_tableRows_iff.1 hp
  obtain ⟨rfl, hrsv, hunit, hsel⟩ := fields_of_masked h
  rw [exists_decodeFrame_iff_not_illegalHeader, not_illegalHeader_iff hmem,
    legal_iff_not_failsRangeCheck hmem]
  exact ⟨fun ⟨_, _, _, hrange⟩ => hrange, fun hrange => ⟨hrsv, hunit, hsel, hrange⟩⟩

/-- Settles O6: the row of a command that a frame decodes to matches the frame. -/
theorem tableRowsSelectCommands : Obligations.TableRowsSelectCommands := by
  refine ⟨tableRows_disjoint, fun c f hnone => ?_, fun c f p hp h =>
    exists_decodeFrame_iff_of_row hp h, fun c f i => row_of_decodeFrame⟩
  cases hd : decodeFrame c f with
  | error e => exact ⟨e, rfl⟩
  | ok i =>
    obtain ⟨hrow, hmatch⟩ := row_of_decodeFrame hd
    exact absurd hmatch (hnone _ hrow)

/-! ### Words written out -/

/-- Settles O7: each frame is the encoding of its command. -/
theorem writtenWordsDecode : Obligations.WrittenWordsDecode :=
  ⟨decodeFrame_encode (i := .setRates .center 1789773 44100) rfl,
    decodeFrame_encode (i := .deposit .left 0x00030000 (-300)) rfl,
    decodeFrame_encode (i := .synOutput 0 (some .center)) rfl,
    decodeFrame_encode (i := .synVolume 1 512 3) rfl,
    decodeFrame_encode (i := .synUpdate 0 .routed 0 100) rfl,
    decodeFrame_encode (i := .readPairs 4) rfl, decodeFrame_encode (i := .getStatus) rfl⟩

end Sys2Proof
end

section
/-! PROOFS. Buffer configuration (40_buffer_config.md): what the quotients F and SZ and the shift BS say
(R101 to R103), that `reconfigure` leaves the derived registers exact (R104), and the commands that write
or query a unit's configuration (R105 to R110, 41_buffer_time_deposit.md R125). -/

namespace Sys2Proof.Machine

variable {c : Config} {u : BufferUnit} {freq : Int} {rate : Nat}

/-! ### The ratio F and the size SZ (R101, R102) -/

/-- F is at most half above the exact ratio. -/
theorem ratio_upper (c : Config) (clock rate : Nat) :
    2 * (ratio c clock rate * clock) ≤ 2 * (rate * 2 ^ c.fixedBits) + clock :=
  calc 2 * (ratio c clock rate * clock)
      = ratio c clock rate * (2 * clock) := by ring
    _ ≤ rate * 2 ^ (c.fixedBits + 1) + clock := Nat.div_mul_le_self _ _
    _ = 2 * (rate * 2 ^ c.fixedBits) + clock := by ring

/-- F is less than half below the next integer: halves are rounded upward. -/
theorem ratio_lower (c : Config) {clock : Nat} (h : 0 < clock) (rate : Nat) :
    2 * (rate * 2 ^ c.fixedBits) + clock < 2 * (ratio c clock rate * clock) + 2 * clock :=
  calc 2 * (rate * 2 ^ c.fixedBits) + clock
      = rate * 2 ^ (c.fixedBits + 1) + clock := by ring
    _ < ratio c clock rate * (2 * clock) + 2 * clock := Nat.lt_div_mul_add (by omega)
    _ = 2 * (ratio c clock rate * clock) + 2 * clock := by ring

/-- Settles O20: both bounds are those of the quotient by twice the clock rate. -/
theorem ratioRoundsToNearest : Obligations.RatioRoundsToNearest :=
  ⟨fun c _ rate hclock _ => ⟨rfl, ratio_upper c _ rate, ratio_lower c hclock rate⟩,
    representable_iff, by decide⟩

/-- Settles O21: a quotient by 1000 with 999 added is rounded up. -/
theorem sizeRoundsUp : Obligations.SizeRoundsUp := by
  refine ⟨fun c rate ms => ⟨rfl, (rate * (ms + 1) + 999) / 1000, rfl, ?_, ?_⟩, by decide⟩ <;> omega

/-! ### The shift BS (R103) -/

theorem bassShiftFor_of_nonpos (h : freq ≤ 0) (rate : Nat) : bassShiftFor freq rate = 31 := if_pos h

/-- BS of a positive cutoff is a function of f0 alone. -/
theorem bassShiftFor_of_pos (h : 0 < freq) (rate : Nat) :
    bassShiftFor freq rate =
      if freq.toNat * 65536 / rate = 0 then 13
      else 13 - (bitlen (freq.toNat * 65536 / rate) - 1) := if_neg (by omega)

/-- A number between 2^k and 2^(k+1) stays non-zero for k halvings. -/
theorem bitlen_of_pow_le {v k : Nat} (h1 : 2 ^ k ≤ v) (h2 : v < 2 ^ (k + 1)) : bitlen v = k + 1 := by
  have hv : v ≠ 0 := (Nat.two_pow_pos k |>.trans_le h1).ne'
  rw [bitlen, (Nat.log2_eq_iff hv).2 ⟨h1, h2⟩]

theorem bassShiftFor_of_pow_le {k : Nat} (h : 0 < freq) (h1 : 2 ^ k ≤ freq.toNat * 65536 / rate)
    (h2 : freq.toNat * 65536 / rate < 2 ^ (k + 1)) : bassShiftFor freq rate = 13 - k := by
  have hf0 : freq.toNat * 65536 / rate ≠ 0 := (Nat.two_pow_pos k |>.trans_le h1).ne'
  rw [bassShiftFor_of_pos h, if_neg hf0, bitlen_of_pow_le h1 h2, Nat.add_sub_cancel]

/-- With shift 31 a negative 32-bit value has feedback −1. -/
theorem asr_31_of_neg {v : Int} (h1 : -(2 ^ 31) ≤ v) (h2 : v < 0) : asr v 31 = -1 := by
  unfold asr
  omega

/-- Settles O22: the halvings that leave f0 non-zero are one fewer than its bits. -/
theorem bassShiftCountsHalvings : Obligations.BassShiftCountsHalvings := by
  refine ⟨fun freq rate _ => ⟨bassShiftFor_le freq rate, fun h => bassShiftFor_of_nonpos h rate,
    fun h hf0 => ?_, fun h k => bassShiftFor_of_pow_le h⟩, fun a => ?_, by decide⟩
  · rw [bassShiftFor_of_pos h, if_pos hf0]
  · have hlow := BitVec.le_toInt a
    have hhigh := BitVec.toInt_lt (x := a)
    split
    · next h => exact asr_31_of_nonneg h hhigh
    · next h => exact asr_31_of_neg hlow (by omega)

/-- BS fits the 5 bits of `bass_shift`, which keeps its value x while no rate is set (R104, R107). -/
theorem toNat_bassShiftOr (freq : Int) (rate : Nat) (x : BitVec 5) :
    (if 0 < rate then BitVec.ofNat 5 (bassShiftFor freq rate) else x).toNat =
      if 0 < rate then bassShiftFor freq rate else x.toNat := by
  have hle := bassShiftFor_le freq rate
  split
  · rw [BitVec.toNat_ofNat, Nat.mod_eq_of_lt (by omega)]
  · rfl

/-! ### The derived registers (R104) -/

/-- `factor` is F of the configuration, exactly, once both rates are set. -/
theorem BufferUnit.Inv.factor_eq (h : u.Inv c) :
    u.factor.toNat =
      if 0 < u.clockRate.toNat ∧ 0 < u.sampleRate.toNat then
        ratio c u.clockRate.toNat u.sampleRate.toNat else 0 := by
  have hratio := h.ratio_fits
  obtain ⟨-, -, -, -, -, -, -, -, hfactor⟩ := h
  rw [hfactor]
  split
  · next hset =>
    have hfits := (representable_iff _).1 (hratio hset.1 hset.2)
    rw [BitVec.toNat_ofNat, Nat.mod_eq_of_lt (by omega)]
  · rfl

theorem BufferUnit.toNat_bassShift_reconfigure (c : Config) (u : BufferUnit) :
    (u.reconfigure c).bassShift.toNat =
      if 0 < u.sampleRate.toNat then bassShiftFor u.bassFreq.toInt u.sampleRate.toNat
      else u.bassShift.toNat := toNat_bassShiftOr _ _ _

theorem BufferUnit.toNat_bassShift_setBass (freq : Word) (u : BufferUnit) :
    (u.setBass freq).bassShift.toNat =
      if 0 < u.sampleRate.toNat then bassShiftFor freq.toInt u.sampleRate.toNat
      else u.bassShift.toNat := toNat_bassShiftOr _ _ _

/-- What the callers of `reconfigure` test beforehand makes the derived registers exact. -/
theorem BufferUnit.reconfigured_reconfigure (hc : c.valid = true)
    (hsize : u.lengthSet = true →
      sizeFor c u.sampleRate.toNat u.lengthMs.toNat ≤ c.bufCapacity)
    (hratio : 0 < u.clockRate.toNat → 0 < u.sampleRate.toNat →
      representable (ratio c u.clockRate.toNat u.sampleRate.toNat) = true) :
    BufferUnit.Reconfigured c u (u.reconfigure c) := by
  have hinv := BufferUnit.reconfigure_inv hsize hratio
  exact ⟨rfl, hinv.factor_eq, hinv.size_eq hc, u.toNat_bassShift_reconfigure c, hinv.wf,
    fun _ => rfl⟩

/-! ### The commands -/

/-- Settles O23. -/
theorem setRatesReconfigures : Obligations.SetRatesReconfigures :=
  fun _ _ _ _ h0 hc hk hr hratio hsize =>
    ⟨_, BufferUnit.reconfigured_reconfigure hc hsize fun _ _ => hratio,
      execSetRates_of h0 hk hr hratio hsize⟩

/-- Settles O24: the rates are those of before, so the invariant says their ratio fits. -/
theorem setLengthReconfigures : Obligations.SetLengthReconfigures :=
  fun _ _ _ h0 hc hinv hsize =>
    ⟨_, BufferUnit.reconfigured_reconfigure hc (fun _ => hsize) hinv.ratio_fits,
      execSetLength_of h0 hsize⟩

/-- Settles O25: neither command has a test of its own. -/
theorem bassFreqAndClear : Obligations.BassFreqAndClear :=
  fun s b freq h0 =>
    ⟨⟨((s.buf b).setBass freq).bassShift, (s.buf b).toNat_bassShift_setBass freq,
      State.unlessFaulted_of_zero h0 _⟩, State.unlessFaulted_of_zero h0 _⟩

/-- The bits of GET_FLAGS's value (R110). -/
theorem BufferUnit.flagWord_bits (u : BufferUnit) :
    (BitVec.ofNat 64 u.flagWord).getLsbD 0 = u.modified ∧
      (BitVec.ofNat 64 u.flagWord).getLsbD 1 = u.configured ∧
      (BitVec.ofNat 64 u.flagWord).toNat < 4 := by
  unfold BufferUnit.flagWord
  cases u.configured <;> cases u.modified <;> decide

/-- The count of unread slots fits a response's value. -/
theorem BufferUnit.toNat_samplesAvail (c : Config) (u : BufferUnit) :
    (BitVec.ofNat 64 (u.samplesAvail c)).toNat = u.offset.toNat / 2 ^ c.fixedBits := by
  have hle : u.samplesAvail c ≤ u.offset.toNat := Nat.div_le_self _ _
  exact (BitVec.toNat_ofNat _ _).trans (Nat.mod_eq_of_lt (by omega))

/-- Settles O27: neither query has a test of its own or writes a register. -/
theorem flagsAndAvailability : Obligations.FlagsAndAvailability := by
  intro s b h0
  obtain ⟨hmodified, hconfigured, hlt⟩ := (s.buf b).flagWord_bits
  exact ⟨⟨_, State.unlessFaulted_of_zero h0 _, hmodified,
      hconfigured ▸ BufferUnit.configured_iff, hlt⟩,
    _, State.unlessFaulted_of_zero h0 _, (s.buf b).toNat_samplesAvail s.cfg⟩

end Sys2Proof.Machine
end

section
/-! PROOFS. Time mapping, deposit and end of frame (41_buffer_time_deposit.md): that a position fits the
value of a response and grows with the tick (R120, R121, R126), and what DEPOSIT and END_FRAME leave once
their tests pass (R122 to R124). -/

namespace Sys2Proof.Machine

variable {c : Config} {u : BufferUnit} {s : State} {b : BufUnit}

/-! ### Positions (R120, R126) -/

/-- The largest 32-bit tick, factor and offset leave a position within 64 bits. -/
theorem BufferUnit.toNat_toFixed (u : BufferUnit) (x : Word) :
    (BitVec.ofNat 64 (u.toFixed x.toNat)).toNat = u.toFixed x.toNat := by
  have hprod : x.toNat * u.factor.toNat ≤ (2 ^ 32 - 1) * (2 ^ 32 - 1) :=
    Nat.mul_le_mul (Nat.le_pred_of_lt x.isLt) (Nat.le_pred_of_lt u.factor.isLt)
  have hfits : u.toFixed x.toNat < 2 ^ 64 := by
    unfold BufferUnit.toFixed
    omega
  exact (BitVec.toNat_ofNat _ _).trans (Nat.mod_eq_of_lt hfits)

theorem BufferUnit.toFixed_mono (u : BufferUnit) : Monotone u.toFixed := fun _ _ h =>
  Nat.add_le_add_right (Nat.mul_le_mul_right _ h) _

theorem BufferUnit.offset_le_toFixed (u : BufferUnit) (t : Nat) : u.offset.toNat ≤ u.toFixed t :=
  Nat.le_add_left _ _

/-- Settles O28: TO_FIXED has no test of its own, and its value does not overflow. -/
theorem toFixedIsExact : Obligations.ToFixedIsExact :=
  fun s b tick h0 => ⟨_, State.unlessFaulted_of_zero h0 _, (s.buf b).toNat_toFixed tick⟩

/-- Settles O29: both values are exact, so they are ordered as the positions are. -/
theorem toFixedIsMonotone : Obligations.ToFixedIsMonotone := by
  intro s b x y h0 hxy
  refine ⟨_, _, State.unlessFaulted_of_zero h0 _, State.unlessFaulted_of_zero h0 _, ?_⟩
  rw [BufferUnit.toNat_toFixed, BufferUnit.toNat_toFixed]
  exact ⟨(s.buf b).toFixed_mono hxy, (s.buf b).offset_le_toFixed _⟩

/-! ### DEPOSIT (R122, R123) -/

theorem execDeposit_of {p d : Word} (h0 : s.sysFault = 0) (hconf : (s.buf b).configured = true)
    (hslot : slotOf s.cfg p.toNat < (s.buf b).bufferSize.toNat)
    (hsize : (s.buf b).bufferSize.toNat ≤ s.cfg.bufCapacity) :
    execDeposit b p d s =
      .next ((s.setBuf b ((s.buf b).deposit (slotOf s.cfg p.toNat) d)).respond .ok 0 0) := by
  unfold execDeposit
  rw [State.unlessFaulted_of_zero h0]
  dsimp only
  rw [if_neg (by simp [hconf]), if_neg (by omega), State.needSlots_of_le (by omega)]
  rfl

/-- Settles O30: the slots in use exist, and the deposit changes the one of the position. -/
theorem depositAddsIntoOneSlot : Obligations.DepositAddsIntoOneSlot :=
  fun _ _ _ _ h0 hc hinv hconf hslot =>
    ⟨_, deposit_deposited hinv.wf, execDeposit_of h0 hconf hslot (hinv.size_le hc)⟩

/-! ### END_FRAME (R124) -/

/-- Whether or not `modified` was set, END_FRAME writes the cursor, `modified` and the counter alone. -/
theorem BufferUnit.endFrame_eq (c : Config) (x : Word) (u : BufferUnit) :
    u.endFrame c x = { u with
      offset := (u.endFrame c x).offset
      modified := false
      lastNonSilence := (u.endFrame c x).lastNonSilence } := by
  cases hm : u.modified with
  | true => simp [BufferUnit.endFrame, hm]
  | false => simp [BufferUnit.endFrame, hm]

/-- A position within NOMINAL leaves EXTRA slots in use from its own slot on. -/
theorem BufferUnit.Inv.slot_add_extra_le (hc : c.valid = true) (h : u.Inv c)
    (hconf : u.configured = true) {f : Nat} (hf : slotOf c f ≤ u.nominal c) :
    slotOf c f + c.extra ≤ u.bufferSize.toNat := by
  have hextra := h.extra_le hc (BufferUnit.configured_iff.1 hconf).2
  unfold BufferUnit.nominal at hf
  omega

/-- Within NOMINAL the new cursor fits its register. -/
theorem BufferUnit.toNat_offset_endFrame (hc : c.valid = true) (h : u.Inv c)
    (hconf : u.configured = true) {x : Word} (hx : slotOf c (u.toFixed x.toNat) ≤ u.nominal c) :
    (u.endFrame c x).offset.toNat = u.toFixed x.toNat := by
  have hslots := h.slot_add_extra_le hc hconf hx
  have hsize := h.size_le hc
  have hfits : u.toFixed x.toNat < 2 ^ 32 := position_fits hc (by omega)
  rw [BufferUnit.endFrame_offset, BitVec.toNat_ofNat, Nat.mod_eq_of_lt hfits]

/-- Within NOMINAL the counter of a modified unit is the new availability plus EXTRA, exactly. -/
theorem BufferUnit.toNat_lastNonSilence_endFrame (hc : c.valid = true) (h : u.Inv c)
    (hconf : u.configured = true) {x : Word} (hx : slotOf c (u.toFixed x.toNat) ≤ u.nominal c)
    (hm : u.modified = true) :
    (u.endFrame c x).lastNonSilence.toNat = slotOf c (u.toFixed x.toNat) + c.extra := by
  have hslots := h.slot_add_extra_le hc hconf hx
  rw [BufferUnit.endFrame_lastNonSilence, if_pos hm, BitVec.toNat_ofNat,
    Nat.mod_eq_of_lt (hslots.trans_lt u.bufferSize.isLt)]

/-- Moving tick 0 to tick d is counting ticks from d on. -/
theorem BufferUnit.toFixed_add_of_offset {v : BufferUnit} {d : Nat} (hfactor : v.factor = u.factor)
    (hoffset : v.offset.toNat = u.toFixed d) (t : Nat) : v.toFixed t = u.toFixed (t + d) :=
  calc v.toFixed t = t * u.factor.toNat + u.toFixed d := by
        rw [BufferUnit.toFixed, hfactor, hoffset]
    _ = u.toFixed (t + d) := by
        unfold BufferUnit.toFixed
        ring

theorem execEndFrame_of {x : Word} (h0 : s.sysFault = 0)
    (htest : (s.buf b).frameTest s.cfg x = none) :
    execEndFrame b x s = .next ((s.setBuf b ((s.buf b).endFrame s.cfg x)).respond .ok 0 0) := by
  unfold execEndFrame
  rw [State.unlessFaulted_of_zero h0, htest]
  rfl

/-- Settles O31: within NOMINAL no register END_FRAME writes is narrowed. -/
theorem endFrameAdvances : Obligations.EndFrameAdvances := by
  intro s b x h0 hc hinv hconf hx
  have hoffset := BufferUnit.toNat_offset_endFrame hc hinv hconf hx
  refine ⟨(s.buf b).endFrame s.cfg x, BufferUnit.endFrame_eq _ _ _, ?_, fun hm => ?_, fun hm => ?_,
    BufferUnit.toFixed_add_of_offset (by simp) hoffset,
    execEndFrame_of h0 (BufferUnit.frameTest_eq_none.2 ⟨hconf, hx⟩)⟩
  · rw [hoffset, BufferUnit.toFixed, Nat.add_comm]
  · rw [BufferUnit.toNat_lastNonSilence_endFrame hc hinv hconf hx hm, hoffset, slotOf]
  · simp [hm]

end Sys2Proof.Machine
end

section
/-! PROOFS. Read and removal (42_buffer_read.md): what the four commands leave on a configured unit (R140
to R144, 44_tracked_mixer.md R192), and the consequences R145 draws from the integrator. -/

namespace Sys2Proof.Machine

variable {c : Config} {u : BufferUnit} {s t : State} {b : BufUnit} {n : Nat}

/-! ### The effect of each command (R142 to R144, R192) -/

theorem execReadSamples_of (h0 : s.sysFault = 0) (hc : s.cfg.valid = true)
    (hinv : (s.buf b).Inv s.cfg) (hconf : (s.buf b).configured = true) (m : Word)
    (hn : n = min m.toNat ((s.buf b).samplesAvail s.cfg)) :
    execReadSamples b m s =
      .next (((s.setBuf b ((s.buf b).drain s.cfg n)).emit
        (((s.buf b).accums n).map fun a => sampleOf a.toInt)).respond .ok
          (BitVec.ofNat 64 n) (BitVec.ofNat 32 n)) := by
  subst hn
  have hsize := hinv.size_le hc
  exact (State.unlessFaulted_of_zero h0 _).trans
    (State.readUnit_of hconf hsize (hinv.avail_le_size.trans hsize))

theorem execRemoveSamples_of (h0 : s.sysFault = 0) (hc : s.cfg.valid = true)
    (hinv : (s.buf b).Inv s.cfg) (hconf : (s.buf b).configured = true) {m : Word}
    (hm : m.toNat ≤ (s.buf b).samplesAvail s.cfg) :
    execRemoveSamples b m s =
      .next ((s.setBuf b ((s.buf b).drain s.cfg m.toNat)).respond .ok 0 0) := by
  unfold execRemoveSamples
  rw [State.unlessFaulted_of_zero h0, BufferUnit.removeTest_none.2 ⟨hconf, hm⟩]
  exact State.removeUnit_of (BufferUnit.drainSpan_le hc hinv hm)

theorem Memory.silentBelow_iff {m : Memory} :
    Memory.silentBelow m n = true ↔ ∀ j < n, Memory.read m j = 0 := by
  simp [Memory.silentBelow]

/-- Over zero slots REMOVE_SILENCE is REMOVE_SAMPLES. -/
theorem execRemoveSilence_eq_execRemoveSamples {m : Word}
    (hzero : ∀ j < m.toNat, Memory.read (s.buf b).delta j = 0) :
    execRemoveSilence b m s = execRemoveSamples b m s := by
  unfold execRemoveSilence
  rw [Memory.silentBelow_iff.2 hzero]
  rfl

/-- The samples of a run of n steps, by the accumulators it passes through. -/
theorem BufferUnit.map_sampleOf_accums (u : BufferUnit) (n : Nat) :
    (u.accums n).map (fun a => sampleOf a.toInt) =
      (List.range n).map fun k => sampleOf (u.accumAt (k + 1)).toInt := by
  rw [BufferUnit.accums_eq, List.map_map]
  rfl

/-- Settles O33: the samples available exist, and the accumulators of the run are those of R140. -/
theorem readSamplesIntegrates : Obligations.ReadSamplesIntegrates := by
  intro s b m h0 hc hinv hconf n hn
  refine ⟨_, BufferUnit.drain_drained hinv.wf (hn ▸ Nat.min_le_right _ _),
    (execReadSamples_of h0 hc hinv hconf m hn).trans ?_⟩
  rw [BufferUnit.map_sampleOf_accums, State.emit, State.setBuf_out]
  rfl

/-- Settles O34: each of the three is a drain of slots that exist. -/
theorem removalsDrain : Obligations.RemovalsDrain := by
  intro s b h0 hc hinv hconf
  refine ⟨fun m hm => ?_, _, BufferUnit.drain_drained hinv.wf le_rfl,
    execRemoveAllSamples_of h0 hconf (BufferUnit.drainSpan_le hc hinv le_rfl)⟩
  have hremove := execRemoveSamples_of h0 hc hinv hconf hm
  exact ⟨_, BufferUnit.drain_drained hinv.wf hm, hremove,
    fun hzero => (execRemoveSilence_eq_execRemoveSamples hzero).trans hremove⟩

/-- Settles O35: a drain of no slots changes nothing, and the commands drain alike. -/
theorem readAndRemoveAgree : Obligations.ReadAndRemoveAgree := by
  intro s b h0 hc hinv hconf
  refine ⟨?_, fun n hn => ?_⟩
  · refine (execReadSamples_of h0 hc hinv hconf 0 (Nat.zero_min _).symm).trans ?_
    rw [BufferUnit.drain_zero, State.setBuf_buf, BufferUnit.map_sampleOf_accums]
    simp [State.emit, State.respond]
  · have hremove := execRemoveSamples_of h0 hc hinv hconf hn
    refine ⟨_, _, execReadSamples_of h0 hc hinv hconf n (Nat.min_eq_left hn).symm, hremove, ?_,
      fun hzero => (execRemoveSilence_eq_execRemoveSamples hzero).trans hremove⟩
    rw [← State.setBuf_out s b ((s.buf b).drain s.cfg n.toNat)]
    rfl

/-! ### What a read leaves (R142) -/

/-- On a configured unit READ_SAMPLES can only read. -/
theorem readsUnit_of_readSamples (h0 : s.sysFault = 0) (hc : s.cfg.valid = true)
    (hinv : (s.buf b).Inv s.cfg) (hconf : (s.buf b).configured = true) {m : Word}
    (h : exec (.readSamples b m) s = .next t) :
    readsUnit s t b (min m.toNat ((s.buf b).samplesAvail s.cfg)) :=
  ⟨Nat.min_le_right _ _,
    Host.Outcome.next.inj (h.symm.trans (execReadSamples_of h0 hc hinv hconf m rfl))⟩

theorem readsUnit.out_eq (h : readsUnit s t b n) :
    t.out = s.out ++ (List.range n).map fun k => sampleOf ((s.buf b).accumAt (k + 1)).toInt := by
  rw [h.2, BufferUnit.map_sampleOf_accums]
  simp

theorem readsUnit.readerAccum_eq (h : readsUnit s t b n) :
    (t.buf b).readerAccum = (s.buf b).accumAt n := by
  rw [h.2, ← BufferUnit.accums_getLastD]
  simp

/-- Sample k of a read stands k places after what OUT held. -/
theorem readsUnit.getElem?_out (h : readsUnit s t b n) {k : Nat} (hk : k < n) :
    t.out[s.out.length + k]? = some (sampleOf ((s.buf b).accumAt (k + 1)).toInt) := by
  rw [h.out_eq, List.getElem?_append_right (Nat.le_add_right _ _), Nat.add_sub_cancel_left]
  simp [hk]

/-- A sample a read emits is that of an accumulator it passed through. -/
theorem readsUnit.mem_drop_out (h : readsUnit s t b n) {x : Sample}
    (hx : x ∈ t.out.drop s.out.length) :
    ∃ k, x = sampleOf ((s.buf b).accumAt (k + 1)).toInt ∧ k + 1 ≤ n := by
  rw [h.out_eq, List.drop_left] at hx
  obtain ⟨k, hk, rfl⟩ := List.mem_map.1 hx
  exact ⟨k, rfl, List.mem_range.1 hk⟩

/-! ### Running sums (R145 (c)) -/

/-- From −2^31 up to 2^32, a value that wraps becomes negative. -/
theorem toInt_wrap32_of_nonneg {v : Int} (h1 : -(2 ^ 31) ≤ v) (h2 : v < 2 ^ 32)
    (h : 0 ≤ (wrap32 v).toInt) : (wrap32 v).toInt = v := by
  have hcongr := wrap32_congr v
  have hhigh := BitVec.toInt_lt (x := wrap32 v)
  omega

/-- From a non-negative accumulator and with shift 31 a step to a non-negative one is an exact
addition: there is no feedback and no wrap. -/
theorem toInt_integrate_31 {a d : Word} (ha : 0 ≤ a.toInt) (h : 0 ≤ (integrate 31 a d).toInt) :
    (integrate 31 a d).toInt = a.toInt + d.toInt := by
  have hahigh := BitVec.toInt_lt (x := a)
  have hdlow := BitVec.le_toInt d
  have hdhigh := BitVec.toInt_lt (x := d)
  unfold integrate at h ⊢
  rw [asr_31_of_nonneg ha hahigh, Int.sub_zero] at h ⊢
  exact toInt_wrap32_of_nonneg (by omega) (by omega) h

/-- While no accumulator is negative, the one after k steps from 0 is the sum of the k leading slots. -/
theorem BufferUnit.toInt_accumAt_eq_sum (hshift : u.bassShift = 31) (hzero : u.readerAccum = 0)
    {k : Nat} (hnonneg : ∀ j ≤ k, 0 ≤ (u.accumAt j).toInt) :
    (u.accumAt k).toInt =
      ((List.range k).map fun j => (Memory.read u.delta j).toInt).sum := by
  induction k with
  | zero => simp [BufferUnit.accumAt, hzero]
  | succ k ih =>
    have hstep : u.accumAt (k + 1) = integrate 31 (u.accumAt k) (Memory.read u.delta k) := by
      rw [BufferUnit.accumAt, hshift]
      rfl
    have hnext := hnonneg (k + 1) le_rfl
    rw [hstep] at hnext ⊢
    rw [toInt_integrate_31 (hnonneg k (Nat.le_succ k)) hnext,
      ih fun j hj => hnonneg j (Nat.le_succ_of_le hj), List.range_succ, List.map_append,
      List.sum_append]
    simp

/-- Settles O36: sample i is that of the accumulator after i + 1 steps. -/
theorem samplesAreRunningSums : Obligations.SamplesAreRunningSums := by
  rintro s t b m h0 hc hinv hconf hshift hzero h n rfl hnonneg i hi
  have hread := readsUnit_of_readSamples h0 hc hinv hconf h
  rw [hread.getElem?_out hi, BufferUnit.toInt_accumAt_eq_sum hshift hzero
    fun k hk => hnonneg k (hk.trans hi)]
  rfl

/-! ### Decay over zero slots (R145 (d)) -/

theorem asr_between (v : Int) (k : Nat) : min 0 v ≤ asr v k ∧ asr v k ≤ max 0 v := by
  rcases le_or_gt 0 v with h | h
  · have hlow := asr_nonneg h k
    have hhigh := asr_le_self h k
    omega
  · have hlow := le_asr_of_neg h k
    have hhigh := asr_neg_lt h k
    omega

/-- A step over a zero slot subtracts the feedback, exactly: it lies between 0 and the accumulator. -/
theorem toInt_integrate_zero (shift : Nat) (a : Word) :
    (integrate shift a 0).toInt = a.toInt - asr a.toInt shift := by
  obtain ⟨hlow, hhigh⟩ := asr_between a.toInt shift
  have halow := BitVec.le_toInt a
  have hahigh := BitVec.toInt_lt (x := a)
  have hsum : a.toInt + (0 : Word).toInt - asr a.toInt shift = a.toInt - asr a.toInt shift := by
    simp
  unfold integrate
  rw [hsum, toInt_wrap32 (by omega) (by omega)]

/-- Over zero slots the accumulator stays between 0 and where it started. -/
theorem BufferUnit.toInt_accumAt_between {k : Nat}
    (hzero : ∀ j < k, Memory.read u.delta j = 0) :
    min 0 u.readerAccum.toInt ≤ (u.accumAt k).toInt ∧
      (u.accumAt k).toInt ≤ max 0 u.readerAccum.toInt := by
  induction k with
  | zero => exact ⟨min_le_right _ _, le_max_right _ _⟩
  | succ k ih =>
    have hprev := ih fun j hj => hzero j (Nat.lt_succ_of_lt hj)
    have hfeedback := asr_between (u.accumAt k).toInt u.bassShift.toNat
    have hstep : u.accumAt (k + 1) = integrate u.bassShift.toNat (u.accumAt k) 0 := by
      rw [← hzero k (Nat.lt_succ_self k)]
      rfl
    rw [hstep, toInt_integrate_zero]
    omega

/-- Saturation to 16 bits leaves a value a sample holds. -/
theorem toInt_sat16 (v : Int) :
    (sat16 v).toInt = if 32767 < v then 32767 else if v < -32768 then -32768 else v := by
  unfold sat16
  rw [BitVec.toInt_ofInt, Int.bmod_def]
  norm_num
  split_ifs <;> omega

/-- The sample of an accumulator lies between 0 and the accumulator. -/
theorem toInt_sampleOf_between (a : Int) :
    min 0 a ≤ (sampleOf a).toInt ∧ (sampleOf a).toInt ≤ max 0 a := by
  have hshifted := asr_between a sampleShift
  rw [sampleOf, toInt_sat16]
  split_ifs <;> omega

/-- Settles O37: every accumulator of the read, and so every sample, lies between 0 and the accumulator
it starts from. -/
theorem decayWithoutOvershoot : Obligations.DecayWithoutOvershoot := by
  intro s t b m h0 hc hinv hconf hzero h
  have hread := readsUnit_of_readSamples h0 hc hinv hconf h
  have haccum {k : Nat} (hk : k ≤ min m.toNat ((s.buf b).samplesAvail s.cfg)) :=
    BufferUnit.toInt_accumAt_between (u := s.buf b) (k := k) fun j hj =>
      hzero j (hj.trans_le (hk.trans (Nat.min_le_right _ _)))
  have hlast := haccum le_rfl
  rw [← hread.readerAccum_eq] at hlast
  have hsample : ∀ x ∈ t.out.drop s.out.length,
      min 0 (s.buf b).readerAccum.toInt ≤ x.toInt ∧
        x.toInt ≤ max 0 (s.buf b).readerAccum.toInt := by
    intro x hx
    obtain ⟨k, rfl, hk⟩ := hread.mem_drop_out hx
    have hpassed := haccum hk
    have hbetween := toInt_sampleOf_between ((s.buf b).accumAt (k + 1)).toInt
    omega
  refine ⟨fun hsign => ⟨by omega, by omega, fun x hx => ?_⟩,
    fun hsign => ⟨by omega, by omega, fun x hx => ?_⟩⟩
  · have := hsample x hx
    omega
  · have := hsample x hx
    omega

end Sys2Proof.Machine
end

section
/-! PROOFS. The registers and kernels of the synthesizer units (43_synth.md R160 to R166, R172, R174): the
commands that write one register, the table SYN_TREBLE_EQ writes, and what SYN_VOLUME makes of a table. -/

namespace Sys2Proof.Machine

variable {c : Config} {s : State} {u : SynthSel} {r : SynthUnit} {w : Nat}

/-! ### One register (R162, R164, R172) -/

/-- Settles O38: neither command has a test of its own. -/
theorem synOutputAndSetAmp : Obligations.SynOutputAndSetAmp :=
  fun _ _ _ _ _ _ h0 hu =>
    ⟨State.unlessFaulted_withSynth h0 hu _, State.unlessFaulted_withSynth h0 hu _⟩

/-- A FAST unit ignores the shift. -/
theorem execSynVolume_fast {f sh : Word} (h0 : s.sysFault = 0) (hu : hasSynth s u .fast r)
    (h31 : sh.toNat ≤ 31) :
    execSynVolume u f sh s = .next ((s.setSynth u { r with deltaFactor := f }).respond .ok 0 0) :=
  (State.unlessFaulted_withSynth h0 hu _).trans (if_neg (by omega))

/-- Settles O40. -/
theorem synVolumeSetsFactor : Obligations.SynVolumeSetsFactor := by
  rintro s u kind r f sh h0 hu h31 (rfl | rfl)
  · exact execSynVolume_fast h0 hu h31
  · exact execSynVolume_shift_zero h0 hu

/-! ### A fresh kernel (R165, R166) -/

theorem execSynTrebleEq_fast (h0 : s.sysFault = 0) (hu : hasSynth s u .fast r) (eq : Word) :
    execSynTrebleEq u eq s = .next (s.respond .ok 0 0) :=
  State.unlessFaulted_withSynth h0 hu _

theorem execSynTrebleEq_full (h0 : s.sysFault = 0) (hu : hasSynth s u (.full w) r) (eq : Word) :
    execSynTrebleEq u eq s = .next ((s.setSynth u
      { r with
        taps := kernelTable s.cfg eq w
        kernelUnit := BitVec.ofNat 32 s.cfg.kernelUnitBase }).respond .ok 0 0) :=
  State.unlessFaulted_withSynth h0 hu _

theorem toNat_kernelUnitBase (hc : c.valid = true) :
    (BitVec.ofNat 32 c.kernelUnitBase).toNat = c.kernelUnitBase := by
  obtain ⟨-, -, -, -, -, -, -, hlt, -⟩ := c.valid_iff.1 hc
  rw [BitVec.toNat_ofNat, Nat.mod_eq_of_lt (by omega)]

/-- Settles O39: the table is `kernelTable`, which is held to R166 whatever the open generator is. -/
theorem synTrebleEqRebuilds : Obligations.SynTrebleEqRebuilds := by
  intro c hc
  refine ⟨kernelTable c, fun s u kind r eq hcfg h0 hu => ⟨?_, ?_⟩⟩
  · rintro rfl
    exact execSynTrebleEq_fast h0 hu eq
  · rintro w rfl
    subst hcfg
    obtain ⟨-, hw, -⟩ := Config.widthOk_of_mem hc (List.mem_of_getElem? hu.1)
    obtain ⟨hshape, hrows⟩ := generatedOk_iff.1 (kernelTable_ok hc eq hw)
    obtain ⟨hphases, hwidth⟩ := tableShape_iff.1 hshape
    exact ⟨⟨_, toNat_kernelUnitBase hc, execSynTrebleEq_full h0 hu eq⟩, hphases,
      fun row hrow => ⟨hwidth row hrow, hrows row hrow⟩⟩

/-! ### A rescaled kernel (R163, R164) -/

/-- With a kernel, every phase of a FULL unit has W taps that sum to `kernel_unit`. -/
theorem SynthUnit.Inv.kernel (h : SynthUnit.Inv c (.full w) r) (hk : r.kernelUnit ≠ 0) :
    tableShape c w r.taps = true ∧ ∀ row ∈ r.taps, tapSum row = (r.kernelUnit.toNat : Int) :=
  (show r.kernelUnit = 0 ∨ _ from h).resolve_left hk

theorem execSynVolume_rescale {f sh : Word} (h0 : s.sysFault = 0) (hu : hasSynth s u (.full w) r)
    (h1 : 1 ≤ sh.toNat) (h31 : sh.toNat ≤ 31) (hku : r.kernelUnit.toNat / 2 ^ sh.toNat ≠ 0)
    (hshape : tableShape s.cfg w r.taps = true) :
    execSynVolume u f sh s =
      .next ((s.setSynth u { r.rescale w sh.toNat with deltaFactor := f }).respond .ok 0 0) := by
  refine (State.unlessFaulted_withSynth h0 hu _).trans ?_
  dsimp only
  rw [if_neg (by omega), if_neg (by omega), if_neg hku, if_neg (by simp [hshape])]
  rfl

/-- Away from tap W/2 − 1, where the rounding error goes, a tap of the rescaled table is the divided
tap. -/
theorem SynthUnit.tap_rescale {sh p k : Nat} (hp : p < r.taps.length) (hk : k < r.taps[p].length)
    (hne : k ≠ w / 2 - 1) : (r.rescale w sh).tap p k = rescaleTap sh (r.tap p k) := by
  simp [SynthUnit.tap, SynthUnit.rescale, rescaleRow, hp, hk, hne.symm]

/-- Settles O41: the rescaled unit meets its invariant, which fixes the sum of each phase. -/
theorem synVolumeRescales : Obligations.SynVolumeRescales := by
  intro s u w r f sh h0 hs hu h1 h31 hku
  have hinv := hs.synth hu
  have hk : r.kernelUnit ≠ 0 := fun e => hku (by simp [e])
  obtain ⟨hshape, -⟩ := hinv.kernel hk
  obtain ⟨hphases, hwidth⟩ := tableShape_iff.1 hshape
  have hrescaled := SynthUnit.Inv.rescale (r' := r.rescale w sh.toNat) hs.1
    (List.mem_of_getElem? hu.1) hinv h1 hku rfl rfl
  have hunit := SynthUnit.rescale_kernelUnit w sh.toNat r
  have hk' : (r.rescale w sh.toNat).kernelUnit ≠ 0 := fun e => hku (by rw [← hunit, e]; rfl)
  obtain ⟨hshape', hsum'⟩ := hrescaled.kernel hk'
  obtain ⟨hphases', hwidth'⟩ := tableShape_iff.1 hshape'
  refine ⟨{ r.rescale w sh.toNat with deltaFactor := f }, rfl, hunit, hphases',
    fun row hrow => ⟨hwidth' row hrow, hsum' row hrow⟩, fun p k hp hkw hne => ?_,
    execSynVolume_rescale h0 hu h1 h31 hku hshape⟩
  have hp' : p < r.taps.length := hphases.symm ▸ hp
  have hkw' : k < r.taps[p].length := (hwidth _ (List.getElem_mem hp')).symm ▸ hkw
  exact (congrArg BitVec.toInt (SynthUnit.tap_rescale hp' hkw' hne)).trans
    (rescaleTap_spec h1 _).1

/-! ### The buffer units (R174) -/

/-- Settles O48: neither command is among those that write a buffer unit. -/
theorem volumeIsNotRetroactive : Obligations.VolumeIsNotRetroactive := by
  rintro s t u f sh eq i (rfl | rfl) h b
  · exact (exec_touchesOnly h).buf b List.not_mem_nil
  · exact (exec_touchesOnly h).buf b List.not_mem_nil

end Sys2Proof.Machine
end

section
/-! PROOFS. Synthesized deposits (43_synth.md R167 to R173): what SYN_OFFSET and SYN_UPDATE do on each
target, what one deposit sums to, and which slots it reaches. -/

namespace Sys2Proof.Machine

variable {c : Config} {s t : State} {u : SynthSel} {kind : SynthKind} {r : SynthUnit} {sel : BufSel}
  {b : BufUnit} {ticks delta amplitude : Word} {code : FaultCode} {v : BufferUnit} {m : Memory}

/-! ### The target (R167) -/

theorem targetOf_eq {route : Route} (h : sel = .explicit route ∨ sel = .routed ∧ r.out = route) :
    targetOf r sel = route := by
  rcases h with rfl | ⟨rfl, rfl⟩
  · rfl
  · rfl

theorem execSynOffset_none (h0 : s.sysFault = 0) (hu : hasSynth s u kind r)
    (ht : targetOf r sel = none) :
    execSynOffset u sel ticks delta s = .next (s.respond .ok 0 0) := by
  refine (State.unlessFaulted_withSynth h0 hu _).trans ?_
  rw [ht]
  rfl

theorem execSynUpdate_none (h0 : s.sysFault = 0) (hu : hasSynth s u kind r)
    (ht : targetOf r sel = none) :
    execSynUpdate u sel ticks amplitude s =
      .next ((s.setSynth u { r with lastAmp := amplitude }).respond .ok 0 0) := by
  refine (State.unlessFaulted_withSynth h0 hu _).trans ?_
  rw [ht]
  rfl

theorem execSynOffset_some (h0 : s.sysFault = 0) (hu : hasSynth s u kind r)
    (ht : targetOf r sel = some b) :
    execSynOffset u sel ticks delta s = s.synthesize kind r b ticks delta id := by
  refine (State.unlessFaulted_withSynth h0 hu _).trans ?_
  rw [ht]

theorem execSynUpdate_some (h0 : s.sysFault = 0) (hu : hasSynth s u kind r)
    (ht : targetOf r sel = some b) :
    execSynUpdate u sel ticks amplitude s =
      s.synthesize kind r b ticks (wrap32 (amplitude.toInt - r.lastAmp.toInt))
        (·.setSynth u { r with lastAmp := amplitude }) := by
  refine (State.unlessFaulted_withSynth h0 hu _).trans ?_
  rw [ht]

/-- Settles O42. -/
theorem synTargetNone : Obligations.SynTargetNone :=
  fun _ _ _ _ _ _ _ h0 hu hsel =>
    ⟨execSynOffset_none h0 hu (targetOf_eq hsel), execSynUpdate_none h0 hu (targetOf_eq hsel)⟩

/-! ### The tests (R170) -/

theorem synthTest_of_not_configured (h : ¬ v.configured = true) :
    synthTest c kind r ticks v = some .notConfigured :=
  if_pos (by simpa using h)

theorem synthTest_of_no_kernel {w : Nat} (hconf : v.configured = true) (hk : r.kernelUnit = 0) :
    synthTest c (.full w) r ticks v = some .noKernel := by
  simp [synthTest, hconf, hk]

theorem synthTest_of_nominal_le (hconf : v.configured = true)
    (hk : kind = .fast ∨ r.kernelUnit ≠ 0)
    (hslot : v.nominal c ≤ slotOf c (v.toFixed ticks.toNat)) :
    synthTest c kind r ticks v = some .depositRange := by
  have hkernel : ¬ (kind ≠ .fast ∧ r.kernelUnit = 0) := fun ⟨hfull, hzero⟩ =>
    hk.elim hfull fun hne => hne hzero
  rw [synthTest, if_neg (by simp [hconf]), if_neg hkernel, if_pos hslot]

theorem State.synthesize_of_fault (h : synthTest s.cfg kind r ticks (s.buf b) = some code)
    (also : State → State) :
    s.synthesize kind r b ticks delta also = .next (s.faulted code) := by
  rw [State.synthesize, h]
  rfl

/-- Settles O45: the tests of both commands are those of `synthTest`, whose first failure is the fault. -/
theorem synFaults : Obligations.SynFaults := by
  intro s u kind r sel b ticks x code h0 hu hsel hcause
  have htest : synthTest s.cfg kind r ticks (s.buf b) = some code := by
    rcases hcause with ⟨hconf, rfl⟩ | ⟨hconf, ⟨w, rfl⟩, hk, rfl⟩ | ⟨hconf, hk, hslot, rfl⟩
    · exact synthTest_of_not_configured hconf
    · exact synthTest_of_no_kernel hconf hk
    · exact synthTest_of_nominal_le hconf hk hslot
  have ht := targetOf_eq hsel
  exact ⟨(execSynOffset_some h0 hu ht).trans (State.synthesize_of_fault htest _),
    (execSynUpdate_some h0 hu ht).trans (State.synthesize_of_fault htest _)⟩

/-! ### The deposit (R168 to R171) -/

/-- In the invariant a deposit that passes its tests is made, share by share. -/
theorem State.synthesize_deposits (hs : s.Inv) (hu : hasSynth s u kind r)
    (htest : synthTest s.cfg kind r ticks (s.buf b) = none) (delta : Word) (also : State → State) :
    ∃ v, (s.buf b).Deposited v (synthShare s.cfg kind r ((s.buf b).toFixed ticks.toNat)
        (wrap32 (delta.toInt * r.deltaFactor.toInt))) ∧
      s.synthesize kind r b ticks delta also =
        .next ((also (s.setBuf b v)).respond .ok 0 0) := by
  obtain ⟨v, hv, -⟩ := synthDeposit_total (delta := delta) hs.1 (List.mem_of_getElem? hu.1)
    (hs.synth hu) (hs.buf b) htest
  exact ⟨v, synthDeposit_deposited (hs.buf b).wf hv, State.synthesize_of htest hv⟩

/-- Settles O43. -/
theorem synOffsetDeposits : Obligations.SynOffsetDeposits := by
  intro s u kind r sel b ticks delta h0 hs hu hsel hconf hk hslot
  obtain ⟨v, hdeposited, hnext⟩ :=
    State.synthesize_deposits hs hu (synthTest_eq_none.2 ⟨hconf, hk, hslot⟩) delta id
  exact ⟨v, hdeposited, (execSynOffset_some h0 hu (targetOf_eq hsel)).trans hnext⟩

/-- Settles O44: the deposit is that of SYN_OFFSET, and recording the amplitude writes no buffer unit. -/
theorem synUpdateDeposits : Obligations.SynUpdateDeposits := by
  intro s u kind r sel b ticks amplitude h0 hs hu hsel hconf hk hslot
  obtain ⟨v, hdeposited, hnext⟩ :=
    State.synthesize_deposits hs hu (synthTest_eq_none.2 ⟨hconf, hk, hslot⟩)
      (wrap32 (amplitude.toInt - r.lastAmp.toInt)) (·.setSynth u { r with lastAmp := amplitude })
  refine ⟨v, hdeposited, ((execSynUpdate_some h0 hu (targetOf_eq hsel)).trans hnext).trans ?_⟩
  rw [State.setSynth, State.setBuf_synths]
  rfl

/-! ### The sum of a deposit (R163) -/

theorem wrap32_modEq (x : Int) : (wrap32 x).toInt ≡ x [ZMOD 2 ^ 32] :=
  (Int.modEq_iff_dvd.2 (wrap32_congr x)).symm

/-- What the n leading slots hold more in memory m' than in memory m, together. -/
def Memory.gain (n : Nat) (m m' : Memory) : Int :=
  ((List.range n).map fun j => (Memory.read m' j).toInt - (Memory.read m j).toInt).sum

@[simp] theorem Memory.gain_self (n : Nat) (m : Memory) : Memory.gain n m m = 0 := by
  simp [Memory.gain]

theorem Memory.gain_add_gain (n : Nat) (m m' m'' : Memory) :
    Memory.gain n m m' + Memory.gain n m' m'' = Memory.gain n m m'' := by
  simp only [Memory.gain, ← List.sum_map_add]
  congr 1
  refine List.map_congr_left fun j _ => ?_
  ring

/-- The gain as a sum over a finite set. -/
theorem Memory.gain_eq_sum (n : Nat) (m m' : Memory) :
    Memory.gain n m m' =
      ∑ j ∈ Finset.range n, ((Memory.read m' j).toInt - (Memory.read m j).toInt) := rfl

/-- An addition into a slot is the gain of that slot alone. -/
theorem Memory.gain_add (hw : Memory.wf m) {n i : Nat} (hi : i < n) (d : Word) :
    Memory.gain n m (Memory.add m i d) ≡ d.toInt [ZMOD 2 ^ 32] := by
  rw [Memory.gain_eq_sum, Finset.sum_eq_single_of_mem i (Finset.mem_range.2 hi) fun j _ hj => by
    rw [Memory.read_add hw, if_neg hj, sub_self], Memory.read_add hw, if_pos rfl]
  simpa using (wrap32_modEq ((Memory.read m i).toInt + d.toInt)).sub_right (Memory.read m i).toInt

/-- The taps of a phase together add the phase's sum times the value. -/
theorem Memory.gain_addTaps (hw : Memory.wf m) {n i : Nat} {row : List Word}
    (hi : i + row.length ≤ n) (x : Word) :
    Memory.gain n m (Memory.addTaps m i x row) ≡ tapSum row * x.toInt [ZMOD 2 ^ 32] := by
  induction row generalizing m i with
  | nil => simp [Memory.addTaps]
  | cons k ks ih =>
    rw [List.length_cons] at hi
    have hhead := (Memory.gain_add hw (n := n) (i := i) (by omega) (wrap32 (k.toInt * x.toInt))).trans
      (wrap32_modEq _)
    have htail := ih (Memory.wf_add hw i (wrap32 (k.toInt * x.toInt))) (i := i + 1) (by omega)
    rw [Memory.addTaps, ← Memory.gain_add_gain n m, tapSum_cons, add_mul]
    exact hhead.add htail

/-- A FAST deposit that passes its tests adds the scaled delta. -/
theorem synthDeposit_fast_gain {v' : BufferUnit} (hv : v.Inv c)
    (htest : synthTest c .fast r ticks v = none)
    (h : synthDeposit c .fast r ticks delta v = .ok v') :
    Memory.gain v.bufferSize.toNat v.delta v'.delta ≡
      delta.toInt * r.deltaFactor.toInt [ZMOD 2 ^ 32] := by
  obtain ⟨-, -, hslot⟩ := synthTest_eq_none.1 htest
  have hin : slotOf c (v.toFixed ticks.toNat) < v.bufferSize.toNat :=
    hslot.trans_le (Nat.sub_le _ _)
  rcases synthDeposit_ok h with ⟨-, -, rfl⟩ | ⟨_, _, hkind, -⟩
  · exact (Memory.gain_add hv.wf hin _).trans (wrap32_modEq _)
  · cases hkind

/-- A FULL deposit that passes its tests adds the scaled delta `kernel_unit` times, in every phase. -/
theorem synthDeposit_full_gain {v' : BufferUnit} {w : Nat} (hc : c.valid = true)
    (hm : SynthKind.full w ∈ c.synths) (hr : SynthUnit.Inv c (.full w) r) (hv : v.Inv c)
    (htest : synthTest c (.full w) r ticks v = none)
    (h : synthDeposit c (.full w) r ticks delta v = .ok v') :
    Memory.gain v.bufferSize.toNat v.delta v'.delta ≡
      delta.toInt * r.deltaFactor.toInt * r.kernelUnit.toNat [ZMOD 2 ^ 32] := by
  obtain ⟨-, hk, hslot⟩ := synthTest_eq_none.1 htest
  obtain ⟨-, hsum⟩ := hr.kernel (hk.resolve_left nofun)
  obtain ⟨heven, -, hmax⟩ := Config.widthOk_of_mem hc hm
  have hfit := taps_fit (c := c) heven hmax hslot
  rcases synthDeposit_ok h with ⟨hkind, -⟩ | ⟨_, row, hkind, hrow, hlen, -, rfl⟩
  · cases hkind
  · cases hkind
    refine (Memory.gain_addTaps hv.wf (by omega) _).trans ?_
    rw [hsum row (List.mem_of_getElem? hrow), mul_comm]
    exact (wrap32_modEq _).mul_right _

/-- A command that ends OK is none of the three other ends of 60_exceptions.md R250. -/
theorem endsOk.not_endsWithoutEffect (h : endsOk s t) : ¬ endsWithoutEffect s t := by
  obtain ⟨val, nout, xs, hok, -⟩ := h
  rintro (⟨status, hstatus, rfl⟩ | ⟨code, -, rfl⟩ | ⟨-, rfl⟩)
  · rcases hstatus with rfl | rfl | rfl <;> cases hok
  · cases hok
  · cases hok

theorem hasSynth.unique {kind' : SynthKind} {r' : SynthUnit} (h : hasSynth s u kind r)
    (h' : hasSynth s u kind' r') : kind' = kind ∧ r' = r :=
  ⟨Option.some.inj (h'.1.symm.trans h.1), Option.some.inj (h'.2.symm.trans h.2)⟩

/-- What SYN_OFFSET that ends OK on a target left: the deposit its tests let pass. -/
theorem deposit_of_synOffset_ok (hu : hasSynth s u kind r) (ht : targetOf r sel = some b)
    (h : exec (.synOffset u sel ticks delta) s = .next t) (hok : endsOk s t) :
    ∃ v, synthTest s.cfg kind r ticks (s.buf b) = none ∧
      synthDeposit s.cfg kind r ticks delta (s.buf b) = .ok v ∧ t.buf b = v := by
  obtain ⟨-, kind', r', hu', hnext⟩ :=
    (execSynOffset_next h).resolve_left hok.not_endsWithoutEffect
  obtain ⟨rfl, rfl⟩ := hu.unique hu'
  rcases hnext with ⟨hnone, -⟩ | ⟨b', v, hb', htest, hv, rfl⟩
  · cases ht.symm.trans hnone
  · obtain rfl := Option.some.inj (ht.symm.trans hb')
    exact ⟨v, htest, hv, by simp⟩

/-- Settles O46: the gain of the target's slots is that of the deposit, FAST or FULL. -/
theorem depositedSumIsGain : Obligations.DepositedSumIsGain := by
  intro s t u kind r sel b ticks delta hs hu ht h hok
  obtain ⟨v, htest, hv, rfl⟩ := deposit_of_synOffset_ok hu ht h hok
  cases kind with
  | fast =>
    rw [mul_one]
    exact (synthDeposit_fast_gain (hs.buf b) htest hv).symm.dvd
  | full w =>
    exact (synthDeposit_full_gain hs.1 (List.mem_of_getElem? hu.1) (hs.synth hu) (hs.buf b) htest
      hv).symm.dvd

/-! ### The reach of a deposit (R173) -/

/-- A share goes only into slots at least two below the end of those in use. -/
theorem synthShare_inside {f j : Nat} {x d : Word} (hc : c.valid = true) (hm : kind ∈ c.synths)
    (hslot : slotOf c f < v.nominal c) (h : synthShare c kind r f x j = some d) :
    j + 2 < v.bufferSize.toNat := by
  cases kind with
  | fast =>
    have hj : j = slotOf c f := by
      by_contra hne
      simp [synthShare, hne] at h
    have hextra := c.extra_pos
    unfold BufferUnit.nominal at hslot
    omega
  | full w =>
    obtain ⟨heven, -, hmax⟩ := Config.widthOk_of_mem hc hm
    have hfit := taps_fit (c := c) heven hmax hslot
    have hj : slotOf c f + fwd c w ≤ j ∧ j < slotOf c f + fwd c w + w := by
      by_contra hout
      simp [synthShare, hout] at h
    omega

/-- A slot a deposit changes has a share. -/
theorem BufferUnit.Deposited.share_of_changed {v' : BufferUnit} {share : Nat → Option Word}
    {j : Nat} (h : v.Deposited v' share) (hj : Memory.read v'.delta j ≠ Memory.read v.delta j) :
    ∃ d, share j = some d := by
  obtain ⟨-, -, hread⟩ := h
  rw [hread j] at hj
  cases hshare : share j with
  | none => simp [hshare] at hj
  | some d => exact ⟨d, rfl⟩

/-- Every slot that differs between `s` and `t` is at least two below the end of its unit's slots in
use. -/
def ChangesInside (s t : State) : Prop :=
  ∀ (b : BufUnit) (j : Nat), Memory.read (t.buf b).delta j ≠ Memory.read (s.buf b).delta j →
    j + 2 < (s.buf b).bufferSize.toNat

theorem ChangesInside.of_buf_eq (h : ∀ b, t.buf b = s.buf b) : ChangesInside s t := by
  intro b j hj
  rw [h b] at hj
  exact absurd rfl hj

theorem ChangesInside.of_endsWithoutEffect (h : endsWithoutEffect s t) : ChangesInside s t :=
  .of_buf_eq fun b =>
    (TouchesOnly.of_endsWithoutEffect (bs := []) (sel := none) (emits := false) h).buf b
      List.not_mem_nil

theorem ChangesInside.of_synthDeposit (hs : s.Inv) (hu : hasSynth s u kind r)
    (htest : synthTest s.cfg kind r ticks (s.buf b) = none)
    (hv : synthDeposit s.cfg kind r ticks delta (s.buf b) = .ok v)
    (ht : ∀ b', t.buf b' = (s.setBuf b v).buf b') : ChangesInside s t := by
  intro b' j hj
  obtain ⟨-, -, hslot⟩ := synthTest_eq_none.1 htest
  rw [ht, State.buf_setBuf] at hj
  by_cases hb : b' = b
  · subst hb
    rw [if_pos rfl] at hj
    obtain ⟨d, hshare⟩ := (synthDeposit_deposited (hs.buf b').wf hv).share_of_changed hj
    exact synthShare_inside hs.1 (List.mem_of_getElem? hu.1) hslot hshare
  · rw [if_neg hb] at hj
    exact absurd rfl hj

theorem execSynOffset_changesInside (hs : s.Inv) (h : execSynOffset u sel ticks delta s = .next t) :
    ChangesInside s t := by
  rcases execSynOffset_next h with h | ⟨-, kind, r, hu, ⟨-, ht⟩ | ⟨b, v, -, htest, hv, ht⟩⟩
  · exact .of_endsWithoutEffect h
  · exact .of_buf_eq fun b => by simp [ht]
  · exact .of_synthDeposit hs hu htest hv fun b' => by simp [ht]

theorem execSynUpdate_changesInside (hs : s.Inv)
    (h : execSynUpdate u sel ticks amplitude s = .next t) : ChangesInside s t := by
  rcases execSynUpdate_next h with h | ⟨-, kind, r, hu, ⟨-, ht⟩ | ⟨b, v, -, htest, hv, ht⟩⟩
  · exact .of_endsWithoutEffect h
  · exact .of_buf_eq fun b => by simp [ht]
  · exact .of_synthDeposit hs hu htest hv fun b' => by simp [ht]

/-- The chain of R173: W is even and at most MAXQ, and EXTRA is MAXQ + 2. -/
theorem footprint_chain {slot w : Nat} (hc : c.valid = true) (hm : SynthKind.full w ∈ c.synths)
    (hslot : slot < v.nominal c) :
    slot + fwd c w + w - 1 ≤ v.nominal c - 1 + (c.maxq - w) / 2 + w - 1 ∧
    v.nominal c - 1 + (c.maxq - w) / 2 + w - 1 = v.nominal c + (c.maxq + w) / 2 - 2 ∧
    v.nominal c + (c.maxq + w) / 2 - 2 ≤ v.nominal c + c.maxq - 2 ∧
    v.nominal c + c.maxq - 2 < v.nominal c + c.extra ∧
    v.nominal c + c.extra = v.bufferSize.toNat := by
  obtain ⟨heven, hmin, hmax⟩ := Config.widthOk_of_mem hc hm
  unfold BufferUnit.nominal Config.extra fwd at *
  refine ⟨?_, ?_, ?_, ?_, ?_⟩ <;> omega

/-- Settles O47. -/
theorem depositsStayInsideBuffer : Obligations.DepositsStayInsideBuffer := by
  refine ⟨fun c v slot w hc _ hm hslot => footprint_chain hc hm hslot, ?_⟩
  rintro s t u sel ticks x i hs (rfl | rfl) h
  · exact execSynOffset_changesInside hs h
  · exact execSynUpdate_changesInside hs h

end Sys2Proof.Machine
end

section
/-! PROOFS. Silence tracking (44_tracked_mixer.md R190 to R193): what NON_SILENT answers, and the cover the
tracking counter gives, which deposits, reads and the ends of frames keep. -/

namespace Sys2Proof.Machine

variable {c : Config} {u v : BufferUnit} {s t : State} {b : BufUnit} {n d : Nat}

/-! ### Silence (R190, R191) -/

/-- The values SAMPLE_SHIFT shifts to 0 are 0 .. 16383. -/
theorem asr_sampleShift_ne_zero_iff (a : Int) : asr a sampleShift ≠ 0 ↔ a < 0 ∨ 16383 < a := by
  have hdiv : asr a sampleShift = a / 16384 := rfl
  rw [hdiv]
  omega

theorem BufferUnit.nonSilent_iff :
    u.nonSilent = true ↔
      u.lastNonSilence ≠ 0 ∨ u.readerAccum.toInt < 0 ∨ 16383 < u.readerAccum.toInt := by
  rw [← asr_sampleShift_ne_zero_iff]
  simp [BufferUnit.nonSilent]

/-- Settles O50: NON_SILENT answers the predicate of R190 as a number. -/
theorem nonSilentAnswer : Obligations.NonSilentAnswer := by
  intro s b h0
  refine ⟨_, State.unlessFaulted_of_zero h0 _, ?_⟩
  simp only [← BufferUnit.nonSilent_iff]
  cases (s.buf b).nonSilent <;> rfl

/-! ### The cover of the counter (R193) -/

theorem endsWithoutEffect.buf_eq (h : endsWithoutEffect s t) (b : BufUnit) : t.buf b = s.buf b :=
  (TouchesOnly.of_endsWithoutEffect (bs := []) (sel := none) (emits := false) h).buf b
    List.not_mem_nil

/-- The footprint of a deposit ends within EXTRA slots of its base slot. -/
theorem synthShare_lt {kind : SynthKind} {r : SynthUnit} {f j : Nat} {x y : Word}
    (hc : c.valid = true) (hm : kind ∈ c.synths) (h : synthShare c kind r f x j = some y) :
    j < slotOf c f + c.extra := by
  cases kind with
  | fast =>
    obtain ⟨rfl, -⟩ := Option.ite_none_right_eq_some.1 h
    have hextra := c.extra_pos
    omega
  | full w =>
    obtain ⟨-, -, hmax⟩ := Config.widthOk_of_mem hc hm
    obtain ⟨⟨-, hlt⟩, -⟩ := Option.ite_none_right_eq_some.1 h
    unfold fwd at hlt
    unfold Config.extra
    omega

/-- A slot that becomes non-zero lies in the footprint, and `modified` says it is not yet counted. -/
theorem BufferUnit.TrackedUpTo.of_deposited {share : Nat → Option Word} (h : u.TrackedUpTo c d)
    (hv : u.Deposited v share)
    (hreach : ∀ j x, share j = some x → j < slotOf c (u.toFixed d) + c.extra) :
    v.TrackedUpTo c d := by
  obtain ⟨hcounter, hcover⟩ := h
  have hregs : v = { u with delta := v.delta, modified := true } := hv.1
  rw [hregs]
  refine ⟨hcounter, fun j hj => ?_⟩
  by_cases hsame : Memory.read v.delta j = Memory.read u.delta j
  · exact (hcover j (hsame ▸ hj)).imp_right fun hlate => ⟨rfl, hlate.2⟩
  · obtain ⟨x, hx⟩ := hv.share_of_changed hsame
    exact .inr ⟨rfl, hreach j x hx⟩

/-- A synthesized deposit at a tick of the frame keeps the cover, of its target and of every other
unit. -/
theorem BufferUnit.TrackedUpTo.of_synthDeposit {kind : SynthKind} {r : SynthUnit} {sel : SynthSel}
    {ticks delta : Word} {b' : BufUnit} (h : (s.buf b).TrackedUpTo s.cfg d) (hs : s.Inv)
    (hu : hasSynth s sel kind r) (hd : ticks.toNat ≤ d)
    (hv : synthDeposit s.cfg kind r ticks delta (s.buf b') = .ok v) :
    ((s.setBuf b' v).buf b).TrackedUpTo s.cfg d := by
  rw [State.buf_setBuf]
  split
  · next hb =>
    subst hb
    have hslot : slotOf s.cfg ((s.buf b).toFixed ticks.toNat) ≤
        slotOf s.cfg ((s.buf b).toFixed d) := Nat.div_le_div_right ((s.buf b).toFixed_mono hd)
    refine h.of_deposited (synthDeposit_deposited (hs.buf b).wf hv) fun j x hx => ?_
    have hj := synthShare_lt hs.1 (List.mem_of_getElem? hu.1) hx
    omega
  · exact h

theorem execSynOffset_tracked {sel : SynthSel} {k : BufSel} {ticks x : Word} (hs : s.Inv)
    (h : (s.buf b).TrackedUpTo s.cfg d) (hd : ticks.toNat ≤ d)
    (hnext : execSynOffset sel k ticks x s = .next t) : (t.buf b).TrackedUpTo s.cfg d := by
  rcases execSynOffset_next hnext with
    hend | ⟨-, kind, r, hu, ⟨-, rfl⟩ | ⟨b', v, -, -, hv, rfl⟩⟩
  · rwa [hend.buf_eq]
  · rwa [State.buf_respond]
  · rw [State.buf_respond]
    exact h.of_synthDeposit hs hu hd hv

theorem execSynUpdate_tracked {sel : SynthSel} {k : BufSel} {ticks a : Word} (hs : s.Inv)
    (h : (s.buf b).TrackedUpTo s.cfg d) (hd : ticks.toNat ≤ d)
    (hnext : execSynUpdate sel k ticks a s = .next t) : (t.buf b).TrackedUpTo s.cfg d := by
  rcases execSynUpdate_next hnext with
    hend | ⟨-, kind, r, hu, ⟨-, rfl⟩ | ⟨b', v, -, -, hv, rfl⟩⟩
  · rwa [hend.buf_eq]
  · rwa [State.buf_respond, State.buf_setSynth]
  · rw [State.buf_respond, State.buf_setSynth]
    exact h.of_synthDeposit hs hu hd hv

/-- With every non-zero slot below the counter a unit is covered whatever comes: no deposit is
uncounted. -/
theorem BufferUnit.TrackedUpTo.of_counted
    (hcounter : u.lastNonSilence.toNat ≤ u.samplesAvail c + c.extra)
    (hzero : ∀ j, u.lastNonSilence.toNat ≤ j → Memory.read u.delta j = 0) (d : Nat) :
    u.TrackedUpTo c d :=
  ⟨hcounter, fun j hj => .inl (Nat.lt_of_not_le fun hle => hj (hzero j hle))⟩

/-- The END_FRAME that closes the frame counts what was deposited in it: the counter stays within EXTRA
of the new cursor, and every slot from it on is 0. -/
theorem BufferUnit.TrackedUpTo.endFrame {x : Word} (hc : c.valid = true) (hinv : u.Inv c)
    (h : u.TrackedUpTo c x.toNat) (htest : u.frameTest c x = none) :
    (u.endFrame c x).lastNonSilence.toNat ≤ (u.endFrame c x).samplesAvail c + c.extra ∧
      ∀ j, (u.endFrame c x).lastNonSilence.toNat ≤ j →
        Memory.read (u.endFrame c x).delta j = 0 := by
  obtain ⟨hcounter, hcover⟩ := h
  obtain ⟨hconf, hx⟩ := BufferUnit.frameTest_none htest
  have havail : (u.endFrame c x).samplesAvail c = slotOf c (u.toFixed x.toNat) :=
    congrArg (slotOf c) (BufferUnit.toNat_offset_endFrame hc hinv hconf hx)
  have hforward : u.samplesAvail c ≤ slotOf c (u.toFixed x.toNat) :=
    Nat.div_le_div_right (u.offset_le_toFixed _)
  rw [havail, BufferUnit.endFrame_delta]
  cases hm : u.modified with
  | true =>
    rw [BufferUnit.toNat_lastNonSilence_endFrame hc hinv hconf hx hm]
    refine ⟨le_rfl, fun j hj => by_contra fun hne => ?_⟩
    rcases hcover j hne with hlt | ⟨-, hlt⟩ <;> omega
  | false =>
    rw [BufferUnit.endFrame_lastNonSilence, hm, if_neg Bool.false_ne_true]
    refine ⟨by omega, fun j hj => by_contra fun hne => ?_⟩
    rcases hcover j hne with hlt | ⟨hset, -⟩
    · omega
    · cases hm.symm.trans hset

/-- Lowering the cursor by n slots lowers the slot of every position by n. -/
theorem slotOf_add_of_offset (hfactor : v.factor = u.factor)
    (hoffset : v.offset.toNat + n * 2 ^ c.fixedBits = u.offset.toNat) (d : Nat) :
    slotOf c (v.toFixed d) + n = slotOf c (u.toFixed d) := by
  have hposition : u.toFixed d = v.toFixed d + n * 2 ^ c.fixedBits := by
    unfold BufferUnit.toFixed
    rw [hfactor]
    omega
  rw [hposition, slotOf, slotOf, Nat.add_mul_div_right _ _ (Nat.two_pow_pos _)]

/-- A consume lowers the counter, the cursor and every slot alike. -/
theorem BufferUnit.TrackedUpTo.drain (hc : c.valid = true) (hinv : u.Inv c)
    (h : u.TrackedUpTo c d) (hn : n ≤ u.samplesAvail c) : (u.drain c n).TrackedUpTo c d := by
  obtain ⟨hcounter, hcover⟩ := h
  obtain ⟨-, hoffset, hlowered, -, hread⟩ := BufferUnit.drain_drained hinv.wf hn
  obtain ⟨-, -, -, -, hbeyond, -⟩ := hinv.meetsR26 hc
  have hslot := slotOf_add_of_offset (u.drain_factor c n) hoffset
  have havail : (u.drain c n).samplesAvail c = u.samplesAvail c - n := BufferUnit.consume_avail hn
  refine ⟨by omega, fun j hj => ?_⟩
  rw [hread] at hj
  split at hj
  · next hout => exact absurd (hbeyond j hout) hj
  · split at hj
    · rcases hcover (j + n) hj with hlt | ⟨hm, hlt⟩
      · exact .inl (by omega)
      · refine .inr ⟨hm, ?_⟩
        have := hslot d
        omega
    · exact absurd rfl hj

theorem execReadSamples_tracked {m : Word} (hs : s.Inv) (h : (s.buf b).TrackedUpTo s.cfg d)
    (hnext : execReadSamples b m s = .next t) : (t.buf b).TrackedUpTo s.cfg d := by
  rcases execReadSamples_next hnext with hend | ⟨-, hn, rfl⟩
  · rwa [hend.buf_eq]
  · rw [State.buf_respond, State.buf_emit, State.buf_setBuf_same]
    exact h.drain hs.1 (hs.buf b) hn

/-- Settles O51: a deposit reaches less than EXTRA slots, END_FRAME counts them, a read shifts all. -/
theorem trackingGuarantee : Obligations.TrackingGuarantee := by
  refine ⟨?_, ?_, fun s t b m d hs h hnext => execReadSamples_tracked hs h hnext⟩
  · rintro s t u sel ticks x i d b hs h hd (rfl | rfl) hnext
    · exact execSynOffset_tracked hs h hd hnext
    · exact execSynUpdate_tracked hs h hd hnext
  · intro s t b x hs h hnext hok
    obtain ⟨-, htest, rfl⟩ := (execEndFrame_next hnext).resolve_left hok.not_endsWithoutEffect
    obtain ⟨hcounter, hzero⟩ := h.endFrame hs.1 (hs.buf b) htest
    rw [State.buf_respond, State.buf_setBuf_same]
    exact ⟨hzero, .of_counted hcounter hzero⟩

end Sys2Proof.Machine
end

section
/-! PROOFS. The stereo mixer (44_tracked_mixer.md R194 to R196): what READ_PAIRS leaves on three
configured units, and that REMOVE_SAMPLES of the same count leaves the units so. -/

namespace Sys2Proof.Machine

variable {s t : State} {n : Nat}

/-! ### The effect of READ_PAIRS (R194) -/

theorem execReadPairs_of (h0 : s.sysFault = 0) (hs : s.Inv)
    (hconf : ∀ b, (s.buf b).configured = true) (m : Word) (hn : n = min m.toNat s.pairsAvail) :
    execReadPairs m s =
      .next ((State.emit { s with
          left := s.left.drain s.cfg n
          right := s.right.drain s.cfg n
          center := s.center.drain s.cfg n
          samplesRead := BitVec.ofNat 32 n } (s.mixOut n)).respond .ok
        (BitVec.ofNat 64 n) (BitVec.ofNat 32 (2 * n))) := by
  subst hn
  refine (State.unlessFaulted_of_zero h0 _).trans ?_
  rw [State.readPairs_of (hconf .left) (hconf .right) (hconf .center) hs.1 (hs.buf .left)
    (hs.buf .right) (hs.buf .center)]
  dsimp only
  rw [Nat.one_mul]

/-- The samples of n pairs, by the accumulators each unit passes through. -/
theorem State.mixOut_eq (s : State) (n : Nat) :
    s.mixOut n = (List.range n).flatMap fun k =>
      if s.left.nonSilent = true ∨ s.right.nonSilent = true then
        [sampleOf ((s.center.accumAt (k + 1)).toInt + (s.left.accumAt (k + 1)).toInt),
          sampleOf ((s.center.accumAt (k + 1)).toInt + (s.right.accumAt (k + 1)).toInt)]
      else
        [sampleOf (s.center.accumAt (k + 1)).toInt, sampleOf (s.center.accumAt (k + 1)).toInt] := by
  unfold State.mixOut
  simp only [BufferUnit.accums_eq, Bool.or_eq_true]
  split
  · exact mixStereo_map _ _ _ _
  · exact mixMono_map _ _

theorem State.pairsAvail_le (s : State) (b : BufUnit) :
    s.pairsAvail ≤ (s.buf b).samplesAvail s.cfg := by
  cases b
  · exact s.pairsAvail_le_left
  · exact s.pairsAvail_le_right
  · exact s.pairsAvail_le_center

/-- Settles O52: the pairs available are so on each unit, and the mixed accumulators are those of R140. -/
theorem readPairsMixes : Obligations.ReadPairsMixes := by
  intro s m h0 hs hconf n hn
  have hle (b : BufUnit) : n ≤ (s.buf b).samplesAvail s.cfg :=
    (hn.trans_le (Nat.min_le_right _ _)).trans (s.pairsAvail_le b)
  refine ⟨_, _, _, BufferUnit.drain_drained (hs.buf .left).wf (hle .left),
    BufferUnit.drain_drained (hs.buf .right).wf (hle .right),
    BufferUnit.drain_drained (hs.buf .center).wf (hle .center),
    (execReadPairs_of h0 hs hconf m hn).trans ?_⟩
  rw [State.mixOut_eq]
  rfl

/-! ### The same command on several units -/

theorem execAll_cons_of {i : Instr} (is : List Instr) (h : exec i s = .next t) :
    execAll (i :: is) s = execAll is t := by
  rw [execAll, h]

/-- A command given to each unit of a set that does not repeat, where it answers with its effect on each
of them as it stands in `s`, updates the units of the set. -/
theorem execAll_map_updateBufs {i : BufUnit → Instr} {f : BufferUnit → BufferUnit}
    {bs : List BufUnit} (hn : bs.Nodup) (h0 : s.sysFault = 0)
    (hexec : ∀ (s' : State), ∀ b ∈ bs, s'.sysFault = 0 → s'.cfg = s.cfg → s'.buf b = s.buf b →
      exec (i b) s' = .next ((s'.setBuf b (f (s'.buf b))).respond .ok 0 0)) :
    ∃ t, execAll (bs.map i) s = .next t ∧ ∀ b, t.buf b = (s.updateBufs bs f).buf b := by
  induction bs generalizing s with
  | nil => exact ⟨s, rfl, fun _ => rfl⟩
  | cons a bs ih =>
    obtain ⟨hnotMem, hn⟩ := List.nodup_cons.1 hn
    have hfirst := hexec s a List.mem_cons_self h0 rfl rfl
    obtain ⟨t, hrest, hbuf⟩ := ih hn (s := (s.setBuf a (f (s.buf a))).respond .ok 0 0) (by simpa)
      fun s' b hb h0' hcfg hsame => by
        have hne : b ≠ a := fun e => hnotMem (e ▸ hb)
        rw [State.buf_respond, State.buf_setBuf_of_ne hne] at hsame
        exact hexec s' b (List.mem_cons_of_mem a hb) h0' (by simpa using hcfg) hsame
    refine ⟨t, (execAll_cons_of _ hfirst).trans hrest, fun b => ?_⟩
    rw [hbuf b, State.updateBufs_respond, State.buf_respond]
    rfl

/-- Settles O53: both drain each unit by the count. -/
theorem mixerEndStateIsRemoval : Obligations.MixerEndStateIsRemoval := by
  intro s t m count h0 hs hconf hcount h
  have hle (b : BufUnit) : count.toNat ≤ (s.buf b).samplesAvail s.cfg :=
    (hcount.trans_le (Nat.min_le_right _ _)).trans (s.pairsAvail_le b)
  obtain ⟨t', hremoved, hbuf⟩ := execAll_map_updateBufs (s := s)
    (i := fun b => .removeSamples b count) (f := BufferUnit.drain s.cfg count.toNat)
    (bs := [.left, .right, .center]) (by decide) h0
    fun s' b _ h0' hcfg hsame => by
      rw [← hcfg]
      exact execRemoveSamples_of h0' (hcfg ▸ hs.1) (hcfg ▸ hsame ▸ hs.buf b) (hsame ▸ hconf b)
        (hcfg ▸ hsame ▸ hle b)
  obtain rfl := Host.Outcome.next.inj (h.symm.trans (execReadPairs_of h0 hs hconf m hcount))
  refine ⟨t', hremoved, fun b => ?_⟩
  rw [hbuf]
  cases b <;> rfl

end Sys2Proof.Machine
end

section
/-! PROOFS. The multi-buffer layer (45_multi_buffer.md): the channel slots (R211 to R213, R221), the
commands that update each unit of the active set (R210, R214 to R218), the read path of each
composition (R219, R220), and that the first failing test decides before anything is written (R222). -/

namespace Sys2Proof.Machine

variable {i : Instr} {s t : State} {c : Config} {u : BufferUnit} {b : BufUnit} {code : FaultCode}
  {status : Status}

/-! ### The channel slots (R211 to R213) -/

theorem execMbSetChannelCount_of {n : Word} (h0 : s.sysFault = 0)
    (hn : n.toNat ≤ s.cfg.maxChannels) :
    execMbSetChannelCount n s =
      .next (State.respond { s with
        channelCount := BitVec.ofNat 16 n.toNat
        channelTypes := List.replicate s.cfg.maxChannels 0
        changedCount := s.changedCount + 1 } .ok 0 0) := by
  unfold execMbSetChannelCount
  rw [State.unlessFaulted_of_zero h0, if_neg (by omega)]
  rfl

theorem execMbSetChannelType_of {index tag : Word} (h0 : s.sysFault = 0)
    (hindex : index.toNat < s.channelCount.toNat) (htypes : index.toNat < s.channelTypes.length) :
    execMbSetChannelType index tag s =
      .next (State.respond { s with
        channelTypes := s.channelTypes.set index.toNat (tag.setWidth 16)
        changedCount := s.changedCount + 1 } .ok 0 0) := by
  unfold execMbSetChannelType
  rw [State.unlessFaulted_of_zero h0, if_neg (by omega), if_neg (by omega)]
  rfl

theorem execMbChannel_of {index : Word} {tag : BitVec 16} (h0 : s.sysFault = 0)
    (hindex : index.toNat < s.channelCount.toNat) (htag : s.channelTypes[index.toNat]? = some tag) :
    execMbChannel index s = .next (s.respond .ok (routingWord s.cfg.composition tag) 0) := by
  unfold execMbChannel
  rw [State.unlessFaulted_of_zero h0, if_neg (by omega), htag]
  rfl

/-- The channels in use have a type tag each. -/
theorem State.Inv.channelCount_le (hs : s.Inv) : s.channelCount.toNat ≤ s.channelTypes.length := by
  obtain ⟨-, -, -, -, -, -, hcount, htypes, -⟩ := hs
  omega

/-- A tag shifted above routes that fit 16 bits is added to them. -/
theorem toNat_routes_or_tag {routes : BitVec 64} (h : routes.toNat < 2 ^ 16) (tag : BitVec 16) :
    (routes ||| (tag.setWidth 64 <<< 16)).toNat = tag.toNat * 65536 + routes.toNat := by
  have hshift : (tag.setWidth 64 <<< 16).toNat = tag.toNat <<< 16 := by
    rw [BitVec.toNat_shiftLeft, BitVec.toNat_setWidth_of_le (by decide), Nat.shiftLeft_eq]
    exact Nat.mod_eq_of_lt (by omega)
  rw [BitVec.toNat_or, hshift, Nat.or_comm, ← Nat.shiftLeft_add_eq_or_of_lt h, Nat.shiftLeft_eq]

/-- The tag stands above the routes of the composition (R213). -/
theorem toNat_routingWord (k : Composition) (tag : BitVec 16) :
    (routingWord k tag).toNat = tag.toNat * 65536 +
      (match k with
        | .mono => 2 + 4 * 2 + 16 * 2
        | .stereo => 2 + 4 * 0 + 16 * 1
        | .silent => 3 + 4 * 3 + 16 * 3) := by
  cases k <;> exact toNat_routes_or_tag (by decide) tag

/-- Settles O54: a count fits 16 bits, and a channel in use has a tag. -/
theorem channelSlots : Obligations.ChannelSlots := by
  intro s h0 hs
  have htypes := hs.channelCount_le
  have hmax : s.cfg.maxChannels ≤ 65535 := by
    obtain ⟨-, -, -, -, -, -, -, -, -, -, -, -, -, hmax⟩ := s.cfg.valid_iff.1 hs.1
    exact hmax
  refine ⟨fun n hn => ⟨_, ?_, execMbSetChannelCount_of h0 hn⟩, fun index tag hindex => ?_,
    fun index hindex => ?_, _, State.unlessFaulted_of_zero h0 _, ?_⟩
  · rw [BitVec.toNat_ofNat, Nat.mod_eq_of_lt (by omega)]
  · rw [← BitVec.setWidth_eq_extractLsb' (by decide)]
    exact execMbSetChannelType_of h0 hindex (by omega)
  · have htag := List.getElem?_eq_getElem (hindex.trans_le htypes)
    exact ⟨_, _, htag, execMbChannel_of h0 hindex htag, toNat_routingWord _ _⟩
  · rw [BitVec.toNat_setWidth, Nat.mod_eq_of_lt (by omega)]

/-! ### Each unit of the active set (R210) -/

/-- Updating units writes the three units alone. -/
theorem State.updateBufs_eq (s : State) (bs : List BufUnit) (f : BufferUnit → BufferUnit) :
    s.updateBufs bs f = { s with
      left := (s.updateBufs bs f).left
      right := (s.updateBufs bs f).right
      center := (s.updateBufs bs f).center } :=
  State.ext_of_parts (by simp) (fun b => by cases b <;> rfl) (by simp) (s.shared_updateBufs bs f)
    (by simp) (by simp) (by simp)

/-- The same of a command's next state, which has a response besides. -/
theorem State.updateBufs_respond_eq (s : State) (bs : List BufUnit)
    (f : BufferUnit → BufferUnit) :
    (s.updateBufs bs f).respond .ok 0 0 = { s with
      left := (s.updateBufs bs f).left
      right := (s.updateBufs bs f).right
      center := (s.updateBufs bs f).center
      response := some ⟨.ok, 0, 0⟩ } :=
  congrArg (·.respond .ok 0 0) (s.updateBufs_eq bs f)

/-- Unit by unit: an active unit is updated, every other one is as it was. -/
theorem State.updateActive_unitwise {f : BufferUnit → BufferUnit} {A : Prop}
    (ht : t = (s.updateBufs (activeSet s.cfg) f).respond .ok 0 0)
    (hA : b ∈ activeSet s.cfg → t.buf b = f (s.buf b) → A) :
    if b ∈ activeSet s.cfg then A else t.buf b = s.buf b := by
  have hbuf := State.buf_updateBufs (activeSet_nodup s.cfg) f s b
  rw [← State.buf_respond (s.updateBufs _ f) .ok 0 0, ← ht] at hbuf
  split
  · next hb => exact hA hb (hbuf.trans (if_pos hb))
  · next hb => exact hbuf.trans (if_neg hb)

/-- Settles O55: the tests of the commands are what makes the derived registers exact. -/
theorem multiBufferRates : Obligations.MultiBufferRates := by
  intro s h0 hs
  refine ⟨fun rate msec hrate htests => ?_, fun rate hrate htests => ?_⟩
  · refine ⟨_, execMbSetSampleRate_of h0 hrate fun b hb => sampleRateTest_none.2 (htests b hb),
      State.updateBufs_respond_eq { s with mbSampleRate := rate, mbLengthMs := msec } _ _,
      fun b => State.updateActive_unitwise
        (s := { s with mbSampleRate := rate, mbLengthMs := msec }) rfl fun hb hbuf => ?_⟩
    obtain ⟨hsize, hratio⟩ := htests b hb
    rw [hbuf, State.buf_mbRate]
    exact BufferUnit.reconfigured_reconfigure hs.1 (fun _ => hsize) fun hk _ => hratio hk
  · refine ⟨_, execMbClockRate_of h0 hrate fun b hb => clockRateTest_none.2 (htests b hb),
      State.updateBufs_respond_eq s _ _, fun b => State.updateActive_unitwise rfl fun hb hbuf => ?_⟩
    rw [hbuf]
    exact BufferUnit.reconfigured_reconfigure hs.1 (hs.buf b).size_fits fun _ => htests b hb

/-! ### MB_BASS_FREQ, MB_CLEAR and MB_END_FRAME (R216 to R218) -/

theorem execMbBassFreq_of (h0 : s.sysFault = 0) (freq : Word) :
    execMbBassFreq freq s =
      .next ((s.updateBufs (activeSet s.cfg) (BufferUnit.setBass freq)).respond .ok 0 0) :=
  State.unlessFaulted_of_zero h0 _

theorem execMbClear_of (h0 : s.sysFault = 0) :
    execMbClear s = .next ((State.updateBufs { s with samplesRead := 0 } (activeSet s.cfg)
      BufferUnit.clear).respond .ok 0 0) := by
  rw [State.updateBufs_withSamplesRead]
  exact State.unlessFaulted_of_zero h0 _

theorem execMbEndFrame_of {x : Word} (h0 : s.sysFault = 0)
    (htests : ∀ b ∈ activeSet s.cfg, (s.buf b).frameTest s.cfg x = none) :
    execMbEndFrame x s =
      .next ((s.updateBufs (activeSet s.cfg) (BufferUnit.endFrame s.cfg x)).respond .ok 0 0) := by
  unfold execMbEndFrame
  rw [State.unlessFaulted_of_zero h0, List.findSome?_eq_none_iff.2 htests]
  rfl

theorem State.buf_withSamplesRead (s : State) (n : Word) (b : BufUnit) :
    State.buf { s with samplesRead := n } b = s.buf b := by cases b <;> rfl

/-- Settles O57: each active unit is as its own command leaves it. -/
theorem multiBufferUnitwise : Obligations.MultiBufferUnitwise := by
  intro s x h0 hs
  refine ⟨?_, ?_, fun htests => ?_⟩
  · refine ⟨_, execMbBassFreq_of h0 x, State.updateBufs_respond_eq s _ _,
      fun b => State.updateActive_unitwise rfl fun _ hbuf => ?_⟩
    rw [hbuf]
    exact ⟨rfl, (s.buf b).toNat_bassShift_setBass x⟩
  · refine ⟨_, execMbClear_of h0, State.updateBufs_respond_eq { s with samplesRead := 0 } _ _,
      fun b => State.updateActive_unitwise (s := { s with samplesRead := 0 }) rfl fun _ hbuf => ?_⟩
    rw [hbuf, State.buf_withSamplesRead]
    rfl
  · refine ⟨_, execMbEndFrame_of h0 fun b hb => BufferUnit.frameTest_eq_none.2 (htests b hb),
      State.updateBufs_respond_eq s _ _,
      fun b => State.updateActive_unitwise rfl fun hb hbuf => ?_⟩
    obtain ⟨hconf, hslot⟩ := htests b hb
    have hoffset := BufferUnit.toNat_offset_endFrame hs.1 (hs.buf b) hconf hslot
    rw [hbuf, hoffset]
    refine ⟨BufferUnit.endFrame_eq _ _ _, Nat.add_comm _ _, ?_⟩
    split
    · next hm => exact BufferUnit.toNat_lastNonSilence_endFrame hs.1 (hs.buf b) hconf hslot hm
    · next hm => rw [BufferUnit.endFrame_lastNonSilence, if_neg hm]

/-- A command given to each unit of a set that does not repeat, where it answers with its effect on
each of them as it stands in `s`, leaves the whole state that one update of the set leaves, but for the
response (R210); `execAll_map_updateBufs` says so of the units alone. -/
theorem execAll_map_respond {cmd : BufUnit → Instr} {f : BufferUnit → BufferUnit}
    {bs : List BufUnit} (hn : bs.Nodup) (h0 : s.sysFault = 0)
    (hexec : ∀ (s' : State), ∀ b ∈ bs, s'.sysFault = 0 → s'.cfg = s.cfg → s'.buf b = s.buf b →
      exec (cmd b) s' = .next ((s'.setBuf b (f (s'.buf b))).respond .ok 0 0)) :
    ∃ t, execAll (bs.map cmd) s = .next t ∧
      (s.updateBufs bs f).respond .ok 0 0 = t.respond .ok 0 0 := by
  induction bs generalizing s with
  | nil => exact ⟨s, rfl, rfl⟩
  | cons a bs ih =>
    obtain ⟨hnotMem, hn⟩ := List.nodup_cons.1 hn
    have hfirst := hexec s a List.mem_cons_self h0 rfl rfl
    obtain ⟨t, hrest, heq⟩ := ih hn (s := (s.setBuf a (f (s.buf a))).respond .ok 0 0) (by simpa)
      fun s' b hb h0' hcfg hsame => by
        have hne : b ≠ a := fun e => hnotMem (e ▸ hb)
        rw [State.buf_respond, State.buf_setBuf_of_ne hne] at hsame
        exact hexec s' b (List.mem_cons_of_mem a hb) h0' (by simpa using hcfg) hsame
    refine ⟨t, (execAll_cons_of _ hfirst).trans hrest, ?_⟩
    rw [State.updateBufs_respond] at heq
    exact heq

/-- Settles O56: per-unit commands on distinct units do not meet. -/
theorem multiBufferFansOut : Obligations.MultiBufferFansOut := by
  intro s x h0 hs
  have hn := activeSet_nodup s.cfg
  refine ⟨?_, ?_, fun htests => ?_⟩
  · obtain ⟨t, hall, heq⟩ := execAll_map_respond (cmd := (.bassFreq · x)) hn h0
      fun s' b _ h0' _ _ => State.unlessFaulted_of_zero h0' _
    exact ⟨t, hall, (execMbBassFreq_of h0 x).trans (congrArg _ heq)⟩
  · obtain ⟨t, hall, heq⟩ := execAll_map_respond (cmd := .clear) hn h0
      fun s' b _ h0' _ _ => State.unlessFaulted_of_zero h0' _
    refine ⟨t, hall, (execMbClear_of h0).trans ?_⟩
    rw [State.updateBufs_withSamplesRead]
    exact congrArg (fun t : State => Host.Outcome.next { t with samplesRead := 0 }) heq
  · have htest (b : BufUnit) (hb : b ∈ activeSet s.cfg) :=
      BufferUnit.frameTest_eq_none.2 (htests b hb)
    obtain ⟨t, hall, heq⟩ := execAll_map_respond (cmd := (.endFrame · x))
      (f := BufferUnit.endFrame s.cfg x) hn h0 fun s' b hb h0' hcfg hsame => by
        rw [← hcfg]
        exact execEndFrame_of h0' (hcfg ▸ hsame ▸ htest b hb)
    exact ⟨t, hall, (execMbEndFrame_of h0 htest).trans (congrArg _ heq)⟩

/-! ### The read path (R219, R220) -/

theorem activeSet_mono (hk : c.composition = .mono) : activeSet c = [.center] := by
  simp [activeSet, hk]

theorem activeSet_stereo (hk : c.composition = .stereo) :
    activeSet c = [.left, .right, .center] := by
  simp [activeSet, hk]

theorem mem_activeSet_stereo (hk : c.composition = .stereo) (b : BufUnit) : b ∈ activeSet c := by
  rw [activeSet_stereo hk]
  cases b <;> decide

theorem execMbReadSamples_mono (hk : s.cfg.composition = .mono) (m : Word) :
    execMbReadSamples m s = execReadSamples .center m s := by
  unfold execMbReadSamples execReadSamples
  rw [hk]

theorem execMbReadSamples_stereo (h0 : s.sysFault = 0) (hk : s.cfg.composition = .stereo)
    (m : Word) : execMbReadSamples m s = s.readPairs (m.toNat / 2) 2 := by
  unfold execMbReadSamples
  rw [State.unlessFaulted_of_zero h0, hk]

theorem execMbReadSamples_silent (h0 : s.sysFault = 0) (hk : s.cfg.composition = .silent)
    (m : Word) : execMbReadSamples m s = s.done := by
  unfold execMbReadSamples
  rw [State.unlessFaulted_of_zero h0, hk]

/-- The samples two channels of the pairs available give fit a response's value. -/
theorem State.toNat_two_mul_pairsAvail (s : State) :
    (BitVec.ofNat 64 (2 * s.pairsAvail)).toNat = 2 * s.pairsAvail := by
  have hpairs := s.pairsAvail_le_left
  have hoffset : s.left.samplesAvail s.cfg ≤ s.left.offset.toNat := Nat.div_le_self _ _
  rw [BitVec.toNat_ofNat, Nat.mod_eq_of_lt (by omega)]

theorem execMbSamplesAvail_of (h0 : s.sysFault = 0) :
    ∃ v, execMbSamplesAvail s = .next (s.respond .ok v 0) ∧ v.toNat =
      match s.cfg.composition with
      | .mono => s.center.samplesAvail s.cfg
      | .stereo => 2 * s.pairsAvail
      | .silent => 0 := by
  unfold execMbSamplesAvail
  rw [State.unlessFaulted_of_zero h0]
  cases s.cfg.composition with
  | mono => exact ⟨_, rfl, s.center.toNat_samplesAvail s.cfg⟩
  | stereo => exact ⟨_, rfl, s.toNat_two_mul_pairsAvail⟩
  | silent => exact ⟨0, rfl, rfl⟩

/-- Settles O58: each composition's path is the command on its units, and in STEREO the two differ
in what they count. -/
theorem multiBufferReadPath : Obligations.MultiBufferReadPath := by
  intro s m h0 hs
  refine ⟨fun hconf => ?_, execMbSamplesAvail_of h0⟩
  cases hk : s.cfg.composition with
  | mono =>
    have hcenter : s.center.configured = true := hconf .center (by simp [activeSet_mono hk])
    have hread := execReadSamples_of h0 hs.1 (hs.buf .center) hcenter m rfl
    exact ⟨_, (execMbReadSamples_mono hk m).trans hread, hread⟩
  | stereo =>
    have hconf (b : BufUnit) := hconf b (mem_activeSet_stereo hk b)
    have hhalf : (BitVec.ofNat 32 (m.toNat / 2)).toNat = m.toNat / 2 := by
      rw [BitVec.toNat_ofNat, Nat.mod_eq_of_lt (by omega)]
    have hread := State.readPairs_of (pairCount := m.toNat / 2) (perPair := 2) (hconf .left)
      (hconf .right) (hconf .center) hs.1 (hs.buf .left) (hs.buf .right) (hs.buf .center)
    exact ⟨_, (execMbReadSamples_stereo h0 hk m).trans hread, _, rfl, rfl,
      execReadPairs_of h0 hs hconf _ (by rw [hhalf])⟩
  | silent => exact ⟨_, execMbReadSamples_silent h0 hk m, rfl⟩

/-! ### Nothing is written unless every test passes (R222) -/

/-- The response of `t` has status OK. -/
def AnswersOk (t : State) : Prop := ∃ val nout, t.response = some ⟨.ok, val, nout⟩

theorem AnswersOk.of_respond {s' : State} {val : BitVec 64} {nout : Word}
    (ht : t = s'.respond .ok val nout) : AnswersOk t := ⟨val, nout, congrArg (·.response) ht⟩

/-- The form of the inversion laws: no effect, or an effect answered OK. -/
theorem AnswersOk.of_next {P : Prop} (hn : ¬ endsWithoutEffect s t)
    (h : endsWithoutEffect s t ∨ s.sysFault = 0 ∧ P) (hP : P → AnswersOk t) : AnswersOk t :=
  hP (h.resolve_left hn).2

theorem execMbReadSamples_answersOk {m : Word} (hn : ¬ endsWithoutEffect s t)
    (h : execMbReadSamples m s = .next t) : AnswersOk t := by
  refine .of_next hn (execMbReadSamples_next h) ?_
  rintro (⟨-, -, ht⟩ | ⟨-, -, ht⟩ | ⟨-, ht⟩)
  · exact .of_respond ht
  · exact .of_respond ht
  · exact .of_respond ht

/-- A multi-buffer command has its effect or ends without it; its effect is answered OK. -/
theorem multiBuffer_answersOk (hi : i.isMultiBuffer = true) (hn : ¬ endsWithoutEffect s t)
    (h : exec i s = .next t) : AnswersOk t := by
  cases i with
  | mbSetChannelCount =>
    exact .of_next hn (execMbSetChannelCount_next h) fun ⟨_, ht⟩ => .of_respond ht
  | mbSetChannelType =>
    exact .of_next hn (execMbSetChannelType_next h) fun ⟨_, ht⟩ => .of_respond ht
  | mbChannel => exact .of_next hn (execMbChannel_next h) fun ⟨_, _, _, ht⟩ => .of_respond ht
  | mbSetSampleRate =>
    exact .of_next hn (execMbSetSampleRate_next h) fun ⟨_, _, ht⟩ => .of_respond ht
  | mbClockRate => exact .of_next hn (execMbClockRate_next h) fun ⟨_, _, ht⟩ => .of_respond ht
  | mbBassFreq => exact .of_next hn (execMbBassFreq_next h) .of_respond
  | mbClear => exact .of_next hn (execMbClear_next h) .of_respond
  | mbEndFrame => exact .of_next hn (execMbEndFrame_next h) fun ⟨_, ht⟩ => .of_respond ht
  | mbReadSamples => exact execMbReadSamples_answersOk hn h
  | mbSamplesAvail => exact .of_next hn (execMbSamplesAvail_next h) fun ⟨_, ht⟩ => .of_respond ht
  | mbChanged => exact .of_next hn (execMbChanged_next h) .of_respond
  | _ => cases hi

/-- A command that answers OK took no fault, and its response counts what it appended to OUT. -/
theorem AnswersOk.endsOk (hok : AnswersOk t) (h : exec i s = .next t) : endsOk s t := by
  obtain ⟨val, nout, hresponse⟩ := hok
  obtain ⟨r, xs, hr, hout, hnout, -⟩ := (exec_touchesOnly h).output
  obtain rfl := Option.some.inj (hr.symm.trans hresponse)
  refine ⟨val, nout, xs, hresponse, hout, hnout, ?_⟩
  rcases exec_changesShared h with ⟨code, -, rfl⟩ | hshared
  · cases hresponse
  · exact hshared.sysFault_eq

theorem endsWithoutEffect.eq_of_registers (h : endsWithoutEffect s t) :
    t = { s with sysFault := t.sysFault, response := t.response } := by
  rcases h with ⟨_, _, rfl⟩ | ⟨_, _, rfl⟩ | ⟨_, rfl⟩ <;> rfl

/-! ### The first failing test (R222) -/

theorem BufferUnit.frameTest_of_not_configured (h : ¬ u.configured = true) (x : Word) :
    u.frameTest c x = some .notConfigured := if_pos (by simpa using h)

theorem BufferUnit.frameTest_of_nominal_lt {x : Word} (hconf : u.configured = true)
    (h : u.nominal c < slotOf c (u.toFixed x.toNat)) : u.frameTest c x = some .frameOverflow := by
  unfold BufferUnit.frameTest
  rw [if_neg (by simp [hconf]), if_pos h]

theorem sampleRateTest_of_capacity_lt {rate ms : Word}
    (h : c.bufCapacity < sizeFor c rate.toNat ms.toNat) :
    sampleRateTest c rate ms u = some .errNomem := if_pos h

theorem sampleRateTest_of_not_representable {rate ms : Word}
    (hsize : sizeFor c rate.toNat ms.toNat ≤ c.bufCapacity) (hclock : 0 < u.clockRate.toNat)
    (h : representable (ratio c u.clockRate.toNat rate.toNat) = false) :
    sampleRateTest c rate ms u = some .errInvalid := by
  unfold sampleRateTest
  rw [if_neg (by omega), if_pos ⟨hclock, by simp [h]⟩]

theorem clockRateTest_of_not_representable {clock : Word} (hrate : 0 < u.sampleRate.toNat)
    (h : representable (ratio c clock.toNat u.sampleRate.toNat) = false) :
    clockRateTest c clock u = some .errInvalid := if_pos ⟨hrate, by simp [h]⟩

theorem execMbEndFrame_of_fault {x : Word} (h0 : s.sysFault = 0)
    (h : (activeSet s.cfg).findSome? (fun b => (s.buf b).frameTest s.cfg x) = some code) :
    execMbEndFrame x s = .next (s.faulted code) := by
  unfold execMbEndFrame
  rw [State.unlessFaulted_of_zero h0, h]
  rfl

theorem execMbSetSampleRate_of_error {rate ms : Word} (h0 : s.sysFault = 0) (hrate : 0 < rate.toInt)
    (h : (activeSet s.cfg).findSome? (fun b => sampleRateTest s.cfg rate ms (s.buf b)) =
      some status) :
    execMbSetSampleRate rate ms s = .next (s.errored status) := by
  unfold execMbSetSampleRate
  rw [State.unlessFaulted_of_zero h0, if_neg (by omega), h]
  rfl

/-- MB_CLOCK_RATE has one test, so whichever unit fails it first the error is the same (R215). -/
theorem execMbClockRate_of_error {clock : Word} (h0 : s.sysFault = 0) (hclock : 0 < clock.toInt)
    (hb : b ∈ activeSet s.cfg) (h : clockRateTest s.cfg clock (s.buf b) = some status) :
    execMbClockRate clock s = .next (s.errored .errInvalid) := by
  unfold execMbClockRate
  rw [State.unlessFaulted_of_zero h0, if_neg (by omega)]
  split
  · next found hfound =>
    obtain ⟨a, -, ha⟩ := List.exists_of_findSome?_eq_some hfound
    rw [clockRateTest_error ha]
    rfl
  · next hnone => exact absurd (List.findSome?_eq_none_iff.1 hnone b hb) (by simp [h])

theorem State.readUnit_of_not_configured (h : ¬ (s.buf b).configured = true) (m : Nat) :
    s.readUnit b m = .next (s.faulted .notConfigured) := if_pos (by simpa using h)

theorem State.readPairs_of_not_configured (h : ¬ (s.buf b).configured = true) (m k : Nat) :
    s.readPairs m k = .next (s.faulted .notConfigured) := by
  refine if_pos ?_
  cases b <;> simp_all

/-- Whatever the read path, it faults where an active unit is not configured (R219). -/
theorem execMbReadSamples_of_not_configured (h0 : s.sysFault = 0) (hb : b ∈ activeSet s.cfg)
    (hsilent : s.cfg.composition ≠ .silent) (h : ¬ (s.buf b).configured = true) (m : Word) :
    execMbReadSamples m s = .next (s.faulted .notConfigured) := by
  cases hk : s.cfg.composition with
  | mono =>
    rw [activeSet_mono hk, List.mem_singleton] at hb
    subst hb
    rw [execMbReadSamples_mono hk]
    exact (State.unlessFaulted_of_zero h0 _).trans (State.readUnit_of_not_configured h _)
  | stereo =>
    exact (execMbReadSamples_stereo h0 hk m).trans (State.readPairs_of_not_configured h _ _)
  | silent => exact absurd hk hsilent

/-- Settles O59: an effect comes with status OK, and the tests are a search over the active set. -/
theorem multiBufferIsAtomic : Obligations.MultiBufferIsAtomic := by
  refine ⟨fun i s t hi h hnotOk => ?_, fun s pre post b h0 hset => ?_⟩
  · have hwithout : endsWithoutEffect s t := by
      by_contra hn
      exact hnotOk ((multiBuffer_answersOk hi hn h).endsOk h)
    exact hwithout.eq_of_registers
  have hb : b ∈ activeSet s.cfg := by simp [hset]
  have firstFailing {α : Type} {test : BufUnit → Option α} {e : α} (hpre : ∀ a ∈ pre, test a = none)
      (he : test b = some e) : (activeSet s.cfg).findSome? test = some e :=
    List.findSome?_eq_some_iff.2 ⟨pre, b, post, hset, he, hpre⟩
  refine ⟨fun x hpre => ?_, fun rate ms hrate hpre => ?_, fun rate hrate hsample hratio =>
    execMbClockRate_of_error h0 hrate hb (clockRateTest_of_not_representable hsample hratio),
    fun m hsilent hconf => execMbReadSamples_of_not_configured h0 hb hsilent hconf m⟩
  · have hpass (a : BufUnit) (ha : a ∈ pre) := BufferUnit.frameTest_eq_none.2 (hpre a ha)
    exact ⟨fun hconf => execMbEndFrame_of_fault h0
        (firstFailing hpass (BufferUnit.frameTest_of_not_configured hconf x)),
      fun hconf hslot => execMbEndFrame_of_fault h0
        (firstFailing hpass (BufferUnit.frameTest_of_nominal_lt hconf hslot))⟩
  · have hpass (a : BufUnit) (ha : a ∈ pre) := sampleRateTest_none.2 (hpre a ha)
    exact ⟨fun hsize => execMbSetSampleRate_of_error h0 hrate
        (firstFailing hpass (sampleRateTest_of_capacity_lt hsize)),
      fun hsize hclock hratio => execMbSetSampleRate_of_error h0 hrate
        (firstFailing hpass (sampleRateTest_of_not_representable hsize hclock hratio))⟩

end Sys2Proof.Machine
end

section
/-! PROOFS. The system command (46_system.md): the status word holds its three fields side by side,
each below the place of the next (R240). -/

namespace Sys2Proof.Machine

/-- A field placed at bit `k`, above a word that fits the bits below, is added to it. -/
theorem toNat_or_field {w k : Nat} {low : BitVec 64} (hlow : low.toNat < 2 ^ k) (hfit : w + k ≤ 64)
    (x : BitVec w) :
    (low ||| (x.setWidth 64 <<< k)).toNat = low.toNat + 2 ^ k * x.toNat := by
  have hplaced : x.toNat <<< k < 2 ^ 64 :=
    calc x.toNat <<< k = x.toNat * 2 ^ k := Nat.shiftLeft_eq ..
      _ < 2 ^ w * 2 ^ k := Nat.mul_lt_mul_of_pos_right x.isLt (Nat.two_pow_pos k)
      _ = 2 ^ (w + k) := (Nat.pow_add ..).symm
      _ ≤ 2 ^ 64 := Nat.pow_le_pow_right (by decide) hfit
  have hshift : (x.setWidth 64 <<< k).toNat = x.toNat <<< k := by
    rw [BitVec.toNat_shiftLeft, BitVec.toNat_setWidth_of_le (by omega), Nat.mod_eq_of_lt hplaced]
  rw [BitVec.toNat_or, hshift, Nat.or_comm, ← Nat.shiftLeft_add_eq_or_of_lt hlow, Nat.shiftLeft_eq,
    Nat.add_comm, Nat.mul_comm]

/-- The fault code fits 8 bits and the composition code 2, so the fields of the status word add up
(R240). -/
theorem State.toNat_statusWord (s : State) : s.statusWord.toNat =
    s.sysFault.toNat + 2 ^ 8 * (compositionCode s.cfg.composition).toNat +
      2 ^ 32 * s.samplesRead.toNat := by
  have hfault : (s.sysFault.setWidth 64).toNat = s.sysFault.toNat :=
    BitVec.toNat_setWidth_of_le (by decide)
  have hlow := toNat_or_field (k := 8) (by rw [hfault]; exact s.sysFault.isLt) (by decide)
    (compositionCode s.cfg.composition)
  rw [hfault] at hlow
  unfold State.statusWord
  rw [toNat_or_field (by omega) (by decide), hlow]

/-- Settles O60: GET_STATUS answers the status word with no test before it. -/
theorem getStatusWord : Obligations.GetStatusWord := by
  intro s
  refine ⟨s.statusWord, rfl, ?_⟩
  rw [s.toNat_statusWord]
  cases s.cfg.composition <;> rfl

end Sys2Proof.Machine
end

section
/-! PROOFS. The reset event and the idle step (70_reset_and_hazards.md R280, R281), and the sticky fault
(60_exceptions.md R255): a recorded fault leaves a command nothing but its response to write. -/

namespace Sys2Proof.Machine

variable {i : Instr} {s t : State} {f : Frame} {rest : List Input}

/-- Settles O9: `step` by the case of what is presented. -/
theorem resetEventAndIdleStep : Obligations.ResetEventAndIdleStep :=
  ⟨fun _ _ => step_of_reset, fun _ => step_of_idle⟩

/-! ### The sticky fault (R255) -/

/-- GET_STATUS is the one command without the sticky fault check. -/
theorem exec_of_faulted (hi : i ≠ .getStatus) (h : s.sysFault ≠ 0) :
    exec i s = .next (s.respond .errFaulted (s.sysFault.setWidth 64) 0) := by
  cases i with
  | getStatus => exact absurd rfl hi
  | _ => exact State.unlessFaulted_of_ne h _

theorem exec_keeps_fault (h0 : s.sysFault ≠ 0) (h : exec i s = .next t) :
    t.sysFault = s.sysFault := by
  by_cases hi : i = .getStatus
  · subst hi
    rw [execGetStatus_next h, State.respond_sysFault]
  · rw [exec_of_faulted hi h0] at h
    cases h
    rfl

/-- Legal or not, a frame leaves a recorded fault. -/
theorem step_frame_keeps_fault (h0 : s.sysFault ≠ 0) (hp : s.pending = .frame f :: rest)
    (h : step s = .next t) : t.sysFault = s.sysFault := by
  cases hd : decodeFrame s.cfg f with
  | error e =>
    rw [step_of_illegal hp hd] at h
    rw [State.fail_next h, State.respond_sysFault]
  | ok i =>
    rw [step_of_decoded hp hd] at h
    exact exec_keeps_fault (s := { s with pending := rest }) h0 h

/-- Settles O15: the check answers for every command but GET_STATUS, and a step changes SYS.fault only
where it takes a reset event. -/
theorem faultIsSticky : Obligations.FaultIsSticky := by
  refine ⟨fun i s => exec_of_faulted, fun s => rfl, illegalFramesAreAnswered.2.1,
    fun s t h0 h => ?_⟩
  rcases hp : s.pending with _ | ⟨_ | _, rest⟩
  case nil =>
    rw [step_of_idle hp] at h
    cases h
    exact .inl rfl
  case cons.reset =>
    rw [step_of_reset hp] at h
    cases h
    exact .inr ⟨rfl, rest, rfl⟩
  case cons.frame f => exact .inl (step_frame_keeps_fault h0 hp h)

end Sys2Proof.Machine
end

section
/-! PROOFS. The contract violations of the commands on one buffer unit and of READ_PAIRS
(60_exceptions.md R253, R254): each command's tests in the order of R256, the first failing one
deciding. -/

namespace Sys2Proof.Machine

variable {s : State} {b : BufUnit} {c : Config} {u : BufferUnit} {code : FaultCode}

/-! ### The tests of a unit (41_buffer_time_deposit.md R123, R124; 42_buffer_read.md R143, R144) -/

theorem BufferUnit.removeTest_of_not_configured (h : ¬ u.configured = true) (n : Word) :
    u.removeTest c n = some .notConfigured := if_pos (by simpa using h)

theorem BufferUnit.removeTest_of_avail_lt {n : Word} (hconf : u.configured = true)
    (h : u.samplesAvail c < n.toNat) : u.removeTest c n = some .removeRange := by
  unfold BufferUnit.removeTest
  rw [if_neg (by simp [hconf]), if_pos h]

/-! ### Each command whose test fails -/

theorem execDeposit_of_not_configured (h0 : s.sysFault = 0) (h : ¬ (s.buf b).configured = true)
    (p d : Word) : execDeposit b p d s = .next (s.faulted .notConfigured) :=
  (State.unlessFaulted_of_zero h0 _).trans (if_pos (by simpa using h))

theorem execDeposit_of_size_le {p : Word} (h0 : s.sysFault = 0)
    (hconf : (s.buf b).configured = true)
    (h : (s.buf b).bufferSize.toNat ≤ slotOf s.cfg p.toNat) (d : Word) :
    execDeposit b p d s = .next (s.faulted .depositRange) := by
  unfold execDeposit
  rw [State.unlessFaulted_of_zero h0]
  dsimp only
  rw [if_neg (by simp [hconf]), if_pos h]
  rfl

theorem execEndFrame_of_fault {x : Word} (h0 : s.sysFault = 0)
    (h : (s.buf b).frameTest s.cfg x = some code) :
    execEndFrame b x s = .next (s.faulted code) := by
  unfold execEndFrame
  rw [State.unlessFaulted_of_zero h0, h]
  rfl

theorem execReadSamples_of_not_configured (h0 : s.sysFault = 0)
    (h : ¬ (s.buf b).configured = true) (m : Word) :
    execReadSamples b m s = .next (s.faulted .notConfigured) :=
  (State.unlessFaulted_of_zero h0 _).trans (State.readUnit_of_not_configured h _)

theorem execRemoveSamples_of_fault {n : Word} (h0 : s.sysFault = 0)
    (h : (s.buf b).removeTest s.cfg n = some code) :
    execRemoveSamples b n s = .next (s.faulted code) := by
  unfold execRemoveSamples
  rw [State.unlessFaulted_of_zero h0, h]
  rfl

theorem execRemoveSilence_of_fault {n : Word} (h0 : s.sysFault = 0)
    (h : (s.buf b).removeTest s.cfg n = some code) :
    execRemoveSilence b n s = .next (s.faulted code) := by
  unfold execRemoveSilence
  rw [State.unlessFaulted_of_zero h0, h]
  rfl

/-- The slots are looked at only once the count is found in range. -/
theorem execRemoveSilence_of_not_silent {n : Word} (h0 : s.sysFault = 0)
    (htest : (s.buf b).removeTest s.cfg n = none)
    (h : ¬ Memory.silentBelow (s.buf b).delta n.toNat = true) :
    execRemoveSilence b n s = .next (s.faulted .notSilent) := by
  unfold execRemoveSilence
  rw [State.unlessFaulted_of_zero h0, htest]
  dsimp only
  rw [if_pos (by simpa using h)]
  rfl

theorem execRemoveAllSamples_of_not_configured (h0 : s.sysFault = 0)
    (h : ¬ (s.buf b).configured = true) :
    execRemoveAllSamples b s = .next (s.faulted .notConfigured) :=
  (State.unlessFaulted_of_zero h0 _).trans (if_pos (by simpa using h))

theorem execReadPairs_of_not_configured (h0 : s.sysFault = 0)
    (h : ¬ (s.buf b).configured = true) (m : Word) :
    execReadPairs m s = .next (s.faulted .notConfigured) :=
  (State.unlessFaulted_of_zero h0 _).trans (State.readPairs_of_not_configured h _ _)

/-- Settles O32: each cause is the first test its command fails. -/
theorem bufferCommandFaults : Obligations.BufferCommandFaults := by
  refine fun s h0 => ⟨fun b p d hconf => ?_,
    fun b p d hconf hslot => execDeposit_of_size_le h0 hconf hslot d,
    fun b x hconf hslot =>
      execEndFrame_of_fault h0 (BufferUnit.frameTest_of_nominal_lt hconf hslot),
    fun b n hconf havail => ?_, fun b n hconf havail ⟨j, hj, hne⟩ => ?_⟩
  · have hremove := BufferUnit.removeTest_of_not_configured (c := s.cfg) hconf p
    exact ⟨execDeposit_of_not_configured h0 hconf p d,
      execEndFrame_of_fault h0 (BufferUnit.frameTest_of_not_configured hconf p),
      execReadSamples_of_not_configured h0 hconf p, execRemoveSamples_of_fault h0 hremove,
      execRemoveSilence_of_fault h0 hremove, execRemoveAllSamples_of_not_configured h0 hconf,
      execReadPairs_of_not_configured h0 hconf p⟩
  · have hremove := BufferUnit.removeTest_of_avail_lt hconf havail
    exact ⟨execRemoveSamples_of_fault h0 hremove, execRemoveSilence_of_fault h0 hremove⟩
  · exact execRemoveSilence_of_not_silent h0 (BufferUnit.removeTest_none.2 ⟨hconf, havail⟩)
      fun hsilent => hne (Memory.silentBelow_iff.1 hsilent j hj)

end Sys2Proof.Machine
end

section
/-! PROOFS. How a command ends (60_exceptions.md R250 to R253, R255): what a next state of it can be, with
the errors it can report, and that in the invariant it has one. Both are shown once per shared
operation, then command by command along its tests. -/

namespace Sys2Proof.Machine

variable {i : Instr} {s s' t : State} {k k' : Result} {es : List Status} {e : Status}
  {code : FaultCode} {b : BufUnit} {u : SynthSel}

/-! ### The ways to end -/

/-- The errors a command can report, by the rows of R252. -/
def reportedBy : Instr → List Status
  | .setRates _ _ _ | .mbSetSampleRate _ _ => [.errInvalid, .errNomem]
  | .setLength _ _ | .mbSetChannelCount _ => [.errNomem]
  | .mbClockRate _ | .synVolume _ _ _ | .mbSetChannelType _ _ | .mbChannel _ => [.errInvalid]
  | _ => []

/-- A next state that `k` answers for a command in state `s` is one of the four ends of R250, a reported
error being one of `es`. -/
def EndsWith (es : List Status) (s : State) (k : Result) : Prop :=
  ∀ t, k = .next t →
    (∃ e ∈ es, t = s.errored e) ∨ endsInFault s t ∨ endsRefused s t ∨ AnswersOk t

theorem EndsWith.fail (he : e ∈ es) : EndsWith es s (s.fail e) := fun _ h =>
  .inl ⟨e, he, State.fail_next h⟩

theorem EndsWith.raiseFault (h0 : s.sysFault = 0) : EndsWith es s (s.raiseFault code) := fun _ h =>
  .inr (.inl (endsInFault_of_raiseFault h0 h))

theorem EndsWith.answer {v : BitVec 64} {n : Nat} : EndsWith es s (s'.answer v n) := fun _ h =>
  .inr (.inr (.inr (.of_respond (State.answer_next h))))

theorem EndsWith.done : EndsWith es s s'.done := .answer

theorem EndsWith.stop {r : Fault} : EndsWith es s (.fault r) := fun _ h => nomatch h

theorem EndsWith.unlessFaulted (hk : s.sysFault = 0 → EndsWith es s k) :
    EndsWith es s (s.unlessFaulted k) := fun t h => by
  rcases State.unlessFaulted_next h with h | ⟨h0, h⟩
  · exact .inr (.inr (.inl h))
  · exact hk h0 t h

theorem EndsWith.ite {p : Prop} [Decidable p] (h : EndsWith es s k) (h' : EndsWith es s k') :
    EndsWith es s (if p then k else k') := by
  split
  · exact h
  · exact h'

theorem EndsWith.needSlots {n : Nat} (hk : EndsWith es s k) : EndsWith es s (s'.needSlots n k) :=
  fun t h => hk t (State.needSlots_next h)

theorem EndsWith.withSynth {f : SynthKind → SynthUnit → Result}
    (hf : ∀ kind r, EndsWith es s (f kind r)) : EndsWith es s (s.withSynth u f) := fun t h => by
  obtain ⟨kind, r, -, -, h⟩ := State.withSynth_next h
  exact hf kind r t h

theorem EndsWith.readUnit {m : Nat} (h0 : s.sysFault = 0) : EndsWith es s (s.readUnit b m) :=
  .ite (.raiseFault h0) (.needSlots .answer)

theorem EndsWith.removeUnit {n : Nat} {v : BitVec 64} : EndsWith es s (s.removeUnit b n v) :=
  .needSlots .answer

theorem EndsWith.readPairs {m n : Nat} (h0 : s.sysFault = 0) : EndsWith es s (s.readPairs m n) :=
  .ite (.raiseFault h0) (.needSlots .answer)

theorem EndsWith.synthesize {kind : SynthKind} {r : SynthUnit} {ticks delta : Word}
    {also : State → State} (h0 : s.sysFault = 0) :
    EndsWith es s (s.synthesize kind r b ticks delta also) := fun t h => by
  rcases State.synthesize_next h h0 with h | ⟨v, -, -, h⟩
  · exact .inr (.inl h)
  · exact .inr (.inr (.inr (.of_respond h)))

/-! ### Commands of several cases -/

theorem execRemoveSamples_endsWith {n : Word} : EndsWith es s (execRemoveSamples b n s) := by
  refine .unlessFaulted fun h0 => ?_
  split
  · exact .raiseFault h0
  · exact .removeUnit

theorem execRemoveSilence_endsWith {n : Word} : EndsWith es s (execRemoveSilence b n s) := by
  refine .unlessFaulted fun h0 => ?_
  split
  · exact .raiseFault h0
  · exact .ite (.raiseFault h0) .removeUnit

theorem execSynVolume_endsWith {f sh : Word} :
    EndsWith [.errInvalid] s (execSynVolume u f sh s) := by
  refine .unlessFaulted fun _ => .withSynth fun kind r => .ite (.fail (by simp)) ?_
  cases kind with
  | fast => exact .done
  | full w => exact .ite .done (.ite (.fail (by simp)) (.ite .stop .done))

theorem execSynTrebleEq_endsWith {eq : Word} : EndsWith es s (execSynTrebleEq u eq s) := by
  refine .unlessFaulted fun _ => .withSynth fun kind r => ?_
  cases kind with
  | fast => exact .done
  | full w => exact .done

theorem execMbChannel_endsWith {index : Word} :
    EndsWith [.errInvalid] s (execMbChannel index s) := by
  refine .unlessFaulted fun _ => .ite (.fail (by simp)) ?_
  split
  · exact .stop
  · exact .answer

theorem execMbSetSampleRate_endsWith {rate ms : Word} :
    EndsWith [.errInvalid, .errNomem] s (execMbSetSampleRate rate ms s) := by
  refine .unlessFaulted fun _ => .ite (.fail (by simp)) ?_
  split
  · next status hfound =>
    obtain ⟨a, -, ha⟩ := List.exists_of_findSome?_eq_some hfound
    exact .fail (by simpa using sampleRateTest_error ha)
  · exact .done

theorem execMbClockRate_endsWith {clock : Word} :
    EndsWith [.errInvalid] s (execMbClockRate clock s) := by
  refine .unlessFaulted fun _ => .ite (.fail (by simp)) ?_
  split
  · next status hfound =>
    obtain ⟨a, -, ha⟩ := List.exists_of_findSome?_eq_some hfound
    exact .fail (by simpa using clockRateTest_error ha)
  · exact .done

theorem execMbReadSamples_endsWith {m : Word} : EndsWith es s (execMbReadSamples m s) := by
  refine .unlessFaulted fun h0 => ?_
  split
  · exact .readUnit h0
  · exact .readPairs h0
  · exact .done

theorem execMbSamplesAvail_endsWith : EndsWith es s (execMbSamplesAvail s) := by
  refine .unlessFaulted fun _ => ?_
  split
  · exact .answer
  · exact .answer
  · exact .done

/-! ### Every command -/

theorem exec_endsWith (i : Instr) (s : State) : EndsWith (reportedBy i) s (exec i s) := by
  cases i with
  | setRates =>
    exact .unlessFaulted fun _ => .ite (.fail (by simp [reportedBy]))
      (.ite (.fail (by simp [reportedBy])) (.ite (.fail (by simp [reportedBy])) .done))
  | setLength => exact .unlessFaulted fun _ => .ite (.fail (by simp [reportedBy])) .done
  | bassFreq | clear | mbBassFreq | mbClear => exact .unlessFaulted fun _ => .done
  | toFixed | samplesAvail | nonSilent | getFlags | mbChanged =>
    exact .unlessFaulted fun _ => .answer
  | deposit =>
    exact .unlessFaulted fun h0 => .ite (.raiseFault h0) (.ite (.raiseFault h0) (.needSlots .done))
  | endFrame | mbEndFrame =>
    refine .unlessFaulted fun h0 => ?_
    split
    · exact .raiseFault h0
    · exact .done
  | readSamples => exact .unlessFaulted .readUnit
  | removeSilence => exact execRemoveSilence_endsWith
  | removeSamples => exact execRemoveSamples_endsWith
  | removeAllSamples => exact .unlessFaulted fun h0 => .ite (.raiseFault h0) .removeUnit
  | synOutput | synSetAmp => exact .unlessFaulted fun _ => .withSynth fun _ _ => .done
  | synVolume => exact execSynVolume_endsWith
  | synTrebleEq => exact execSynTrebleEq_endsWith
  | synOffset | synUpdate =>
    refine .unlessFaulted fun h0 => .withSynth fun kind r => ?_
    split
    · exact .done
    · exact .synthesize h0
  | readPairs => exact .unlessFaulted .readPairs
  | mbSetChannelCount => exact .unlessFaulted fun _ => .ite (.fail (by simp [reportedBy])) .done
  | mbSetChannelType =>
    exact .unlessFaulted fun _ => .ite (.fail (by simp [reportedBy])) (.ite .stop .done)
  | mbChannel => exact execMbChannel_endsWith
  | mbSetSampleRate => exact execMbSetSampleRate_endsWith
  | mbClockRate => exact execMbClockRate_endsWith
  | mbReadSamples => exact execMbReadSamples_endsWith
  | mbSamplesAvail => exact execMbSamplesAvail_endsWith
  | getStatus => exact .answer

/-- No command reports ERR_ILLEGAL, which is for frames that are no command (R252). -/
theorem reportedBy_subset (i : Instr) : reportedBy i ⊆ [.errInvalid, .errNomem] := by
  cases i <;> simp [reportedBy]

/-- The four ends of R250 for a command that answers. -/
theorem exec_fourEnds (h : exec i s = .next t) : endsOk s t ∨ endsWithoutEffect s t := by
  rcases exec_endsWith i s t h with ⟨e, he, rfl⟩ | hfault | hrefused | hok
  · have hlisted : e = .errInvalid ∨ e = .errNomem := by simpa using reportedBy_subset i he
    exact .inr (.inl ⟨e, hlisted.imp_right .inl, rfl⟩)
  · exact .inr (.inr (.inl hfault))
  · exact .inr (.inr (.inr hrefused))
  · exact .inl (hok.endsOk h)

/-! ### In the invariant every command answers -/

/-- The result is a next state: the model does not stop. -/
def Answers (k : Result) : Prop := ∃ t, k = .next t

theorem Answers.next : Answers (.next t) := ⟨t, rfl⟩

theorem Answers.unlessFaulted (hk : s.sysFault = 0 → Answers k) : Answers (s.unlessFaulted k) := by
  by_cases h0 : s.sysFault = 0
  · rw [State.unlessFaulted_of_zero h0]
    exact hk h0
  · rw [State.unlessFaulted_of_ne h0]
    exact .next

theorem Answers.ite {p : Prop} [Decidable p] (h : p → Answers k) (h' : ¬ p → Answers k') :
    Answers (if p then k else k') := by
  split
  · exact h ‹_›
  · exact h' ‹_›

theorem Answers.needSlots {n : Nat} (h : n ≤ s.cfg.bufCapacity) (hk : Answers k) :
    Answers (s.needSlots n k) := by
  rwa [State.needSlots_of_le h]

theorem Answers.withSynth {f : SynthKind → SynthUnit → Result} {kind : SynthKind} {r : SynthUnit}
    (hu : hasSynth s u kind r) (hf : Answers (f kind r)) : Answers (s.withSynth u f) := by
  rwa [State.withSynth_of hu.1 hu.2]

theorem Answers.readUnit (hs : s.Inv) (m : Nat) : Answers (s.readUnit b m) :=
  .ite (fun _ => .next) fun _ =>
    .needSlots (BufferUnit.drainSpan_le hs.1 (hs.buf b) (Nat.min_le_right _ _)) .next

theorem Answers.removeUnit (hs : s.Inv) {n : Nat} {v : BitVec 64}
    (hn : n ≤ (s.buf b).samplesAvail s.cfg) : Answers (s.removeUnit b n v) :=
  .needSlots (BufferUnit.drainSpan_le hs.1 (hs.buf b) hn) .next

theorem Answers.readPairs (hs : s.Inv) (m n : Nat) : Answers (s.readPairs m n) := by
  by_cases hconf : ∀ b, (s.buf b).configured = true
  · rw [State.readPairs_of (hconf .left) (hconf .right) (hconf .center) hs.1 (hs.buf .left)
      (hs.buf .right) (hs.buf .center)]
    exact .next
  · obtain ⟨b, hb⟩ := not_forall.1 hconf
    rw [State.readPairs_of_not_configured hb]
    exact .next

theorem Answers.synthesize {kind : SynthKind} {r : SynthUnit} (hs : s.Inv)
    (hu : hasSynth s u kind r) (ticks delta : Word) (also : State → State) :
    Answers (s.synthesize kind r b ticks delta also) := by
  cases htest : synthTest s.cfg kind r ticks (s.buf b) with
  | some code =>
    rw [State.synthesize_of_fault htest]
    exact .next
  | none =>
    obtain ⟨v, -, hnext⟩ := State.synthesize_deposits hs hu htest delta also
    exact ⟨_, hnext⟩

/-! ### Commands of several cases -/

theorem execDeposit_answers (hs : s.Inv) (p d : Word) : Answers (execDeposit b p d s) := by
  have hsize := (hs.buf b).size_le hs.1
  exact .unlessFaulted fun _ => .ite (fun _ => .next) fun _ => .ite (fun _ => .next) fun hslot =>
    .needSlots (by omega) .next

theorem execRemoveSamples_answers (hs : s.Inv) (n : Word) : Answers (execRemoveSamples b n s) := by
  refine .unlessFaulted fun _ => ?_
  split
  · exact .next
  · next htest => exact .removeUnit hs (BufferUnit.removeTest_none.1 htest).2

theorem execRemoveSilence_answers (hs : s.Inv) (n : Word) : Answers (execRemoveSilence b n s) := by
  refine .unlessFaulted fun _ => ?_
  split
  · exact .next
  · next htest =>
    exact .ite (fun _ => .next) fun _ => .removeUnit hs (BufferUnit.removeTest_none.1 htest).2

section
variable {kind : SynthKind} {r : SynthUnit}

/-- A kernel that does not vanish under the shift is there, in its shape (43_synth.md R161, R164). -/
theorem execSynVolume_answers (hs : s.Inv) (hu : hasSynth s u kind r) (f sh : Word) :
    Answers (execSynVolume u f sh s) := by
  refine .unlessFaulted fun _ => .withSynth hu <| .ite (fun _ => .next) fun _ => ?_
  cases kind with
  | fast => exact .next
  | full w =>
    refine .ite (fun _ => .next) fun _ => .ite (fun _ => .next) fun hku =>
      .ite (fun hshape => ?_) fun _ => .next
    have hk : r.kernelUnit ≠ 0 := fun e => hku (by simp [e])
    simp [((hs.synth hu).kernel hk).1] at hshape

theorem execSynTrebleEq_answers (hu : hasSynth s u kind r) (eq : Word) :
    Answers (execSynTrebleEq u eq s) := by
  refine .unlessFaulted fun _ => .withSynth hu ?_
  cases kind with
  | fast => exact .next
  | full w => exact .next

end

theorem execMbSetChannelType_answers (hs : s.Inv) (index tag : Word) :
    Answers (execMbSetChannelType index tag s) := by
  have hcount := hs.channelCount_le
  exact .unlessFaulted fun _ => .ite (fun _ => .next) fun hindex =>
    .ite (fun htypes => absurd htypes (by omega)) fun _ => .next

theorem execMbChannel_answers (hs : s.Inv) (index : Word) : Answers (execMbChannel index s) := by
  have hcount := hs.channelCount_le
  refine .unlessFaulted fun _ => .ite (fun _ => .next) fun hindex => ?_
  split
  · next hnone => exact absurd (List.getElem?_eq_none_iff.1 hnone) (by omega)
  · exact .next

theorem execMbReadSamples_answers (hs : s.Inv) (m : Word) : Answers (execMbReadSamples m s) := by
  refine .unlessFaulted fun _ => ?_
  split
  · exact .readUnit hs _
  · exact .readPairs hs _ _
  · exact .next

/-- A synthesizer number below NSYNTH names a unit (10_state.md R29). -/
theorem State.Inv.exists_synth (hs : s.Inv) (h : SynthSel.inRange s.cfg u = true) :
    ∃ kind r, hasSynth s u kind r := by
  obtain ⟨-, -, -, -, hlength, -⟩ := hs
  have hcfg : u.toNat < s.cfg.synths.length := inRange_iff.1 h
  have hunits : u.toNat < s.synths.length := hlength ▸ hcfg
  exact ⟨_, _, List.getElem?_eq_getElem hcfg, List.getElem?_eq_getElem hunits⟩

theorem exec_answers (hs : s.Inv) (hi : i.wellFormed s.cfg = true) : Answers (exec i s) := by
  cases i with
  | setRates =>
    exact .unlessFaulted fun _ => .ite (fun _ => .next) fun _ => .ite (fun _ => .next) fun _ =>
      .ite (fun _ => .next) fun _ => .next
  | setLength | mbSetChannelCount =>
    exact .unlessFaulted fun _ => .ite (fun _ => .next) fun _ => .next
  | bassFreq | clear | toFixed | samplesAvail | nonSilent | getFlags | mbBassFreq | mbClear
  | mbChanged => exact .unlessFaulted fun _ => .next
  | deposit => exact execDeposit_answers hs _ _
  | endFrame | mbEndFrame =>
    refine .unlessFaulted fun _ => ?_
    split
    · exact .next
    · exact .next
  | readSamples => exact .unlessFaulted fun _ => .readUnit hs _
  | removeSilence => exact execRemoveSilence_answers hs _
  | removeSamples => exact execRemoveSamples_answers hs _
  | removeAllSamples =>
    exact .unlessFaulted fun _ => .ite (fun _ => .next) fun _ => .removeUnit hs le_rfl
  | synOutput | synSetAmp =>
    obtain ⟨kind, r, hu⟩ := hs.exists_synth hi
    exact .unlessFaulted fun _ => .withSynth hu .next
  | synVolume =>
    obtain ⟨kind, r, hu⟩ := hs.exists_synth hi
    exact execSynVolume_answers hs hu _ _
  | synTrebleEq =>
    obtain ⟨kind, r, hu⟩ := hs.exists_synth hi
    exact execSynTrebleEq_answers hu _
  | synOffset | synUpdate =>
    obtain ⟨kind, r, hu⟩ := hs.exists_synth hi
    refine .unlessFaulted fun _ => .withSynth hu ?_
    split
    · exact .next
    · exact .synthesize hs hu _ _ _
  | readPairs => exact .unlessFaulted fun _ => .readPairs hs _ _
  | mbSetChannelType => exact execMbSetChannelType_answers hs _ _
  | mbChannel => exact execMbChannel_answers hs _
  | mbSetSampleRate | mbClockRate =>
    refine .unlessFaulted fun _ => .ite (fun _ => .next) fun _ => ?_
    split
    · exact .next
    · exact .next
  | mbReadSamples => exact execMbReadSamples_answers hs _
  | mbSamplesAvail =>
    refine .unlessFaulted fun h0 => ?_
    obtain ⟨v, hnext, -⟩ := execMbSamplesAvail_of h0
    exact ⟨_, (State.unlessFaulted_of_zero h0 _).symm.trans hnext⟩
  | getStatus => exact .next

/-- Settles O14: an illegal frame is a reported error; a legal one is a well-formed command, which
answers and so ends in one of the four ways. -/
theorem commandEndsInOneOfFourWays : Obligations.CommandEndsInOneOfFourWays := by
  intro s f rest hs hp
  cases hd : decodeFrame s.cfg f with
  | error e =>
    exact ⟨_, step_of_illegal hp hd, .inr (.inl ⟨.errIllegal, .inr (.inr rfl), rfl⟩)⟩
  | ok i =>
    obtain ⟨hi, -⟩ := decodedCommandReencodes _ _ _ hd
    obtain ⟨t, ht⟩ := exec_answers (s := { s with pending := rest }) hs hi
    exact ⟨t, (step_of_decoded hp hd).trans ht, exec_fourEnds ht⟩

end Sys2Proof.Machine
end

section
/-! PROOFS. The reported errors (60_exceptions.md R252): the cause of each, where it is the first test to
fail (R256), and that no other command ends with its status. -/

namespace Sys2Proof.Machine

variable {s : State} {b : BufUnit}

/-! ### One buffer unit (40_buffer_config.md R105, R106) -/

theorem execSetRates_of_invalid {k r : Word} (h0 : s.sysFault = 0)
    (h : (k.toInt ≤ 0 ∨ r.toInt ≤ 0) ∨ representable (ratio s.cfg k.toNat r.toNat) = false) :
    execSetRates b k r s = .next (s.errored .errInvalid) := by
  unfold execSetRates
  rw [State.unlessFaulted_of_zero h0]
  dsimp only
  by_cases hrates : k.toInt ≤ 0 ∨ r.toInt ≤ 0
  · exact if_pos hrates
  · rw [if_neg hrates, if_pos (by simp [h.resolve_left hrates])]
    rfl

theorem execSetRates_of_capacity_lt {k r : Word} (h0 : s.sysFault = 0) (hk : 0 < k.toInt)
    (hr : 0 < r.toInt) (hratio : representable (ratio s.cfg k.toNat r.toNat) = true)
    (hset : (s.buf b).lengthSet = true)
    (h : s.cfg.bufCapacity < sizeFor s.cfg r.toNat (s.buf b).lengthMs.toNat) :
    execSetRates b k r s = .next (s.errored .errNomem) := by
  unfold execSetRates
  rw [State.unlessFaulted_of_zero h0]
  dsimp only
  rw [if_neg (by omega), if_neg (by simp [hratio]), if_pos ⟨hset, h⟩]
  rfl

theorem execSetLength_of_capacity_lt {ms : Word} (h0 : s.sysFault = 0)
    (h : s.cfg.bufCapacity < sizeFor s.cfg (s.buf b).sampleRate.toNat ms.toNat) :
    execSetLength b ms s = .next (s.errored .errNomem) :=
  (State.unlessFaulted_of_zero h0 _).trans (if_pos h)

/-! ### The active set (45_multi_buffer.md R214, R215) -/

/-- A search in which every find is `e` finds `e`, wherever it succeeds first. -/
theorem findSome?_eq_of_forall {α β : Type} {l : List α} {test : α → Option β} {a : α} {e : β}
    (ha : a ∈ l) (h : test a = some e) (hall : ∀ x e', test x = some e' → e' = e) :
    l.findSome? test = some e := by
  cases hfound : l.findSome? test with
  | none => simp [List.findSome?_eq_none_iff.1 hfound a ha] at h
  | some e' =>
    obtain ⟨x, -, hx⟩ := List.exists_of_findSome?_eq_some hfound
    rw [hall x e' hx]

theorem execMbSetSampleRate_of_rate_le {rate ms : Word} (h0 : s.sysFault = 0)
    (h : rate.toInt ≤ 0) : execMbSetSampleRate rate ms s = .next (s.errored .errInvalid) :=
  (State.unlessFaulted_of_zero h0 _).trans (if_pos h)

/-- The size is the same for every unit, so the first active unit fails its test. -/
theorem execMbSetSampleRate_of_capacity_lt {rate ms : Word} (h0 : s.sysFault = 0)
    (hrate : 0 < rate.toInt) (hactive : activeSet s.cfg ≠ [])
    (h : s.cfg.bufCapacity < sizeFor s.cfg rate.toNat ms.toNat) :
    execMbSetSampleRate rate ms s = .next (s.errored .errNomem) := by
  obtain ⟨b, hb⟩ := List.exists_mem_of_ne_nil _ hactive
  have htest (a : BufUnit) : sampleRateTest s.cfg rate ms (s.buf a) = some .errNomem :=
    sampleRateTest_of_capacity_lt h
  exact execMbSetSampleRate_of_error h0 hrate
    (findSome?_eq_of_forall hb (htest b) fun a e he => Option.some.inj (he.symm.trans (htest a)))

/-- Where the size fits, the only error left for any unit is that of its ratio. -/
theorem sampleRateTest_error_of_fits {c : Config} {rate ms : Word} {u : BufferUnit} {e : Status}
    (hsize : sizeFor c rate.toNat ms.toNat ≤ c.bufCapacity)
    (h : sampleRateTest c rate ms u = some e) : e = .errInvalid := by
  unfold sampleRateTest at h
  rw [if_neg (by omega)] at h
  split at h
  · exact (Option.some.inj h).symm
  · cases h

theorem execMbSetSampleRate_of_not_representable {rate ms : Word} (h0 : s.sysFault = 0)
    (hrate : 0 < rate.toInt) (hsize : sizeFor s.cfg rate.toNat ms.toNat ≤ s.cfg.bufCapacity)
    (hb : b ∈ activeSet s.cfg) (hclock : 0 < (s.buf b).clockRate.toNat)
    (h : representable (ratio s.cfg (s.buf b).clockRate.toNat rate.toNat) = false) :
    execMbSetSampleRate rate ms s = .next (s.errored .errInvalid) :=
  execMbSetSampleRate_of_error h0 hrate
    (findSome?_eq_of_forall hb (sampleRateTest_of_not_representable hsize hclock h)
      fun _ _ => sampleRateTest_error_of_fits hsize)

theorem execMbClockRate_of_clock_le {clock : Word} (h0 : s.sysFault = 0) (h : clock.toInt ≤ 0) :
    execMbClockRate clock s = .next (s.errored .errInvalid) :=
  (State.unlessFaulted_of_zero h0 _).trans (if_pos h)

theorem execMbClockRate_of_invalid {clock : Word} (h0 : s.sysFault = 0)
    (h : clock.toInt ≤ 0 ∨ ∃ b ∈ activeSet s.cfg, 0 < (s.buf b).sampleRate.toNat ∧
      representable (ratio s.cfg clock.toNat (s.buf b).sampleRate.toNat) = false) :
    execMbClockRate clock s = .next (s.errored .errInvalid) := by
  by_cases hclock : clock.toInt ≤ 0
  · exact execMbClockRate_of_clock_le h0 hclock
  · obtain ⟨b, hb, hrate, hratio⟩ := h.resolve_left hclock
    exact execMbClockRate_of_error h0 (by omega) hb
      (clockRateTest_of_not_representable hrate hratio)

/-! ### Synthesizers and channels (43_synth.md R164; 45_multi_buffer.md R211 to R213) -/

theorem execSynVolume_of_invalid {u : SynthSel} {kind : SynthKind} {r : SynthUnit} {f sh : Word}
    (h0 : s.sysFault = 0) (hu : hasSynth s u kind r)
    (h : 31 < sh.toNat ∨
      (∃ w, kind = .full w) ∧ 0 < sh.toNat ∧ r.kernelUnit.toNat / 2 ^ sh.toNat = 0) :
    execSynVolume u f sh s = .next (s.errored .errInvalid) := by
  refine (State.unlessFaulted_withSynth h0 hu _).trans ?_
  by_cases hshift : 31 < sh.toNat
  · exact if_pos hshift
  · obtain ⟨⟨w, rfl⟩, hpos, hku⟩ := h.resolve_left hshift
    rw [if_neg hshift]
    dsimp only
    rw [if_neg (by omega), if_pos hku]
    rfl

theorem execMbSetChannelType_of_count_le {index : Word} (h0 : s.sysFault = 0)
    (h : s.channelCount.toNat ≤ index.toNat) (tag : Word) :
    execMbSetChannelType index tag s = .next (s.errored .errInvalid) :=
  (State.unlessFaulted_of_zero h0 _).trans (if_pos h)

theorem execMbChannel_of_count_le {index : Word} (h0 : s.sysFault = 0)
    (h : s.channelCount.toNat ≤ index.toNat) :
    execMbChannel index s = .next (s.errored .errInvalid) :=
  (State.unlessFaulted_of_zero h0 _).trans (if_pos h)

theorem execMbSetChannelCount_of_max_lt {n : Word} (h0 : s.sysFault = 0)
    (h : s.cfg.maxChannels < n.toNat) :
    execMbSetChannelCount n s = .next (s.errored .errNomem) :=
  (State.unlessFaulted_of_zero h0 _).trans (if_pos h)

/-! ### No other command (R252) -/

/-- A status of a reported error is one the command has in its row. -/
theorem status_mem_reportedBy {i : Instr} {t : State} {r : Response} (h : exec i s = .next t)
    (hr : t.response = some r)
    (hstatus : r.status = .errInvalid ∨ r.status = .errNomem ∨ r.status = .errIllegal) :
    r.status ∈ reportedBy i := by
  rcases exec_endsWith i s t h with ⟨e, he, rfl⟩ | ⟨code, -, rfl⟩ | ⟨-, rfl⟩ | ⟨val, nout, hok⟩
  · cases hr
    exact he
  · cases hr
    simp at hstatus
  · cases hr
    simp at hstatus
  · cases hok.symm.trans hr
    simp at hstatus

theorem errInvalid_mem_reportedBy {i : Instr} (h : .errInvalid ∈ reportedBy i) :
    (∃ b k x, i = .setRates b k x) ∨ (∃ x m, i = .mbSetSampleRate x m) ∨
    (∃ k, i = .mbClockRate k) ∨ (∃ u f sh, i = .synVolume u f sh) ∨
    (∃ x g, i = .mbSetChannelType x g) ∨ ∃ x, i = .mbChannel x := by
  cases i <;> simp [reportedBy] at h ⊢

theorem errNomem_mem_reportedBy {i : Instr} (h : .errNomem ∈ reportedBy i) :
    (∃ b k x, i = .setRates b k x) ∨ (∃ b m, i = .setLength b m) ∨
    (∃ x m, i = .mbSetSampleRate x m) ∨ ∃ n, i = .mbSetChannelCount n := by
  cases i <;> simp [reportedBy] at h ⊢

/-- Settles O26: each cause is the first test its command fails; a status of R252 is in the row of the
command that ends with it. -/
theorem reportedErrors : Obligations.ReportedErrors := by
  refine ⟨fun s h0 => ⟨fun b k r => execSetRates_of_invalid h0,
      fun b k r => execSetRates_of_capacity_lt h0, fun b m => execSetLength_of_capacity_lt h0,
      fun r m => execMbSetSampleRate_of_rate_le h0,
      fun r m => execMbSetSampleRate_of_capacity_lt h0,
      fun r m hrate hsize ⟨b, hb, hclock, hratio⟩ =>
        execMbSetSampleRate_of_not_representable h0 hrate hsize hb hclock hratio,
      fun k => execMbClockRate_of_invalid h0, fun u kind r f sh => execSynVolume_of_invalid h0,
      fun x g h => ⟨execMbSetChannelType_of_count_le h0 h g, execMbChannel_of_count_le h0 h⟩,
      fun n => execMbSetChannelCount_of_max_lt h0⟩,
    fun i s t r h hr => ⟨fun hs => ?_, fun hs => ?_, fun hs => ?_⟩, illegalFramesAreAnswered.2.1⟩
  · exact errInvalid_mem_reportedBy (hs ▸ status_mem_reportedBy h hr (.inl hs))
  · exact errNomem_mem_reportedBy (hs ▸ status_mem_reportedBy h hr (.inr (.inl hs)))
  · have hmem : .errIllegal ∈ reportedBy i := hs ▸ status_mem_reportedBy h hr (.inr (.inr hs))
    simpa using reportedBy_subset i hmem

end Sys2Proof.Machine
end

section
/-! PROOFS. Deposits commute (70_reset_and_hazards.md R284): no test of a deposit looks at a slot, so what
it adds is the same after another deposit, and additions modulo 2^32 commute slot by slot. -/

namespace Sys2Proof.Machine

variable {s s' t t' v v' : State} {b : BufUnit} {i j : Instr}

/-! ### One unit (41_buffer_time_deposit.md R122) -/

/-- The wrapped sum of two words is their sum as words. -/
theorem wrap32_toInt_add (a d : Word) : wrap32 (a.toInt + d.toInt) = a + d := by
  unfold wrap32
  rw [BitVec.ofInt_add, BitVec.ofInt_toInt, BitVec.ofInt_toInt]

/-- What a deposit adds into each slot of a unit; none into the slots it does not reach. -/
abbrev Shares := Nat → Option Word

section
variable {u x x' y y' : BufferUnit} {f g : Shares} {o o' : Option Shares}

/-- A slot after a deposit: its share, if it has one, is added. -/
theorem BufferUnit.Deposited.read_eq (h : u.Deposited x f) (n : Nat) :
    Memory.read x.delta n = Memory.read u.delta n + (f n).getD 0 := by
  obtain ⟨-, -, hread⟩ := h
  rw [hread n]
  cases f n with
  | none => simp
  | some d => exact wrap32_toInt_add _ d

theorem BufferUnit.Deposited.unique (h : u.Deposited x f) (h' : u.Deposited x' f) : x = x' := by
  obtain ⟨hx, hwf, -⟩ := id h
  obtain ⟨hx', hwf', -⟩ := id h'
  have hdelta : x.delta = x'.delta :=
    Memory.ext_of_wf hwf hwf' fun n => (h.read_eq n).trans (h'.read_eq n).symm
  rw [hx, hx', hdelta]

/-- The sum of two shares does not depend on which is added first. -/
theorem BufferUnit.Deposited.comm (h : u.Deposited x f) (hy : x.Deposited y g)
    (h' : u.Deposited x' g) (hy' : x'.Deposited y' f) : y = y' := by
  obtain ⟨hyreg, hywf, -⟩ := id hy
  obtain ⟨hyreg', hywf', -⟩ := id hy'
  have hdelta : y.delta = y'.delta := by
    refine Memory.ext_of_wf hywf hywf' fun n => ?_
    rw [hy.read_eq, hy'.read_eq, h.read_eq, h'.read_eq]
    exact add_right_comm _ _ _
  rw [hyreg, hyreg', h.1, h'.1, hdelta]

/-- Unit x is unit u after a deposit, which may have another target. -/
def BufferUnit.AfterDeposit (u x : BufferUnit) : Option Shares → Prop
  | none => x = u
  | some f => u.Deposited x f

theorem BufferUnit.AfterDeposit.comm (h : u.AfterDeposit x o) (hy : x.AfterDeposit y o')
    (h' : u.AfterDeposit x' o') (hy' : x'.AfterDeposit y' o) : y = y' := by
  cases o with
  | none =>
    obtain rfl : x = u := h
    obtain rfl : y' = x' := hy'
    cases o' with
    | none => exact hy.trans h'.symm
    | some g => exact BufferUnit.Deposited.unique hy h'
  | some f =>
    cases o' with
    | none =>
      obtain rfl : y = x := hy
      obtain rfl : x' = u := h'
      exact BufferUnit.Deposited.unique h hy'
    | some g => exact BufferUnit.Deposited.comm h hy h' hy'

/-- A deposit writes the slots and `modified` of its target alone. -/
theorem BufferUnit.AfterDeposit.registers (h : u.AfterDeposit x o) :
    x = { u with delta := x.delta, modified := x.modified } := by
  cases o with
  | none =>
    obtain rfl : x = u := h
    rfl
  | some f =>
    obtain ⟨hx, -, -⟩ := h
    rw [hx]

end

/-! ### The machine after a deposit -/

section
variable {shares shares' : BufUnit → Option Shares}

/-- State `t` is state `s` after a deposit that ended OK. -/
structure State.Deposited (s t : State) (shares : BufUnit → Option Shares) : Prop where
  cfg : t.cfg = s.cfg
  synths : t.synths = s.synths
  shared : t.shared = s.shared
  out : t.out = s.out
  pending : t.pending = s.pending
  response : t.response = some ⟨.ok, 0, 0⟩
  buf : ∀ b, (s.buf b).AfterDeposit (t.buf b) (shares b)

theorem State.Deposited.of_respond (s : State) : s.Deposited (s.respond .ok 0 0) fun _ => none where
  cfg := rfl
  synths := rfl
  shared := rfl
  out := rfl
  pending := rfl
  response := rfl
  buf := s.buf_respond .ok 0 0

/-- The shares of a deposit whose target is unit b. -/
def sharesOn (b : BufUnit) (f : Shares) : BufUnit → Option Shares := fun b' =>
  if b' = b then some f else none

theorem State.Deposited.of_setBuf {x : BufferUnit} {f : Shares} (h : (s.buf b).Deposited x f) :
    s.Deposited ((s.setBuf b x).respond .ok 0 0) (sharesOn b f) where
  cfg := by simp
  synths := by simp
  shared := by simp
  out := by simp
  pending := by simp
  response := rfl
  buf b' := by
    rw [State.buf_respond, State.buf_setBuf, sharesOn]
    split
    · next hb =>
      subst hb
      exact h
    · rfl

/-- The units commute one by one; what else a deposit leaves is as it was before both, but for the
response, which is the same. -/
theorem State.Deposited.comm (ht : s.Deposited t shares) (hv : t.Deposited v shares')
    (ht' : s.Deposited t' shares') (hv' : t'.Deposited v' shares) : v = v' :=
  State.ext_of_parts (by rw [hv.cfg, ht.cfg, hv'.cfg, ht'.cfg])
    (fun b => (ht.buf b).comm (hv.buf b) (ht'.buf b) (hv'.buf b))
    (by rw [hv.synths, ht.synths, hv'.synths, ht'.synths])
    (by rw [hv.shared, ht.shared, hv'.shared, ht'.shared])
    (by rw [hv.out, ht.out, hv'.out, ht'.out]) (by rw [hv.response, hv'.response])
    (by rw [hv.pending, ht.pending, hv'.pending, ht'.pending])

/-! ### What a deposit looks at -/

/-- State `s'` agrees with `s` on all that the tests of a deposit look at and that its shares follow
from: the parameters, the synthesizers, SYS.fault, and of the buffer units all but the slots and
`modified`. -/
structure AgreesButSlots (s s' : State) : Prop where
  cfg : s'.cfg = s.cfg
  synths : s'.synths = s.synths
  sysFault : s'.sysFault = s.sysFault
  buf : ∀ b, s'.buf b =
    { s.buf b with delta := (s'.buf b).delta, modified := (s'.buf b).modified }

theorem AgreesButSlots.refl (s : State) : AgreesButSlots s s := ⟨rfl, rfl, rfl, fun _ => rfl⟩

theorem State.Deposited.agrees (h : s.Deposited t shares) : AgreesButSlots s t :=
  ⟨h.cfg, h.synths, congrArg SharedRegs.sysFault h.shared, fun b => (h.buf b).registers⟩

end

/-- Command `i` makes the same deposit, OK, in every state that agrees with `s` but for slots. -/
def DepositsAlike (i : Instr) (s : State) : Prop :=
  ∃ shares, ∀ s', s'.Inv → AgreesButSlots s s' →
    ∃ t, exec i s' = .next t ∧ s'.Deposited t shares

theorem deposit_depositsAlike {p d : Word} (h : exec (.deposit b p d) s = .next t)
    (hok : endsOk s t) : DepositsAlike (.deposit b p d) s := by
  obtain ⟨h0, hconf, hslot, -⟩ := (execDeposit_next h).resolve_left hok.not_endsWithoutEffect
  refine ⟨sharesOn b fun n => if n = slotOf s.cfg p.toNat then some d else none,
    fun s' hs' ha => ?_⟩
  have hconf' : (s'.buf b).configured = true := by
    rw [ha.buf]
    exact hconf
  have hslot' : slotOf s'.cfg p.toNat < (s'.buf b).bufferSize.toNat := by
    rw [ha.cfg, ha.buf]
    exact hslot
  refine ⟨_, execDeposit_of (ha.sysFault.trans h0) hconf' hslot' ((hs'.buf b).size_le hs'.1),
    .of_setBuf ?_⟩
  rw [ha.cfg]
  exact deposit_deposited (hs'.buf b).wf

theorem synOffset_depositsAlike {u : SynthSel} {sel : BufSel} {ticks d : Word}
    (h : exec (.synOffset u sel ticks d) s = .next t) (hok : endsOk s t) :
    DepositsAlike (.synOffset u sel ticks d) s := by
  obtain ⟨h0, kind, r, hu, hnext⟩ :=
    (execSynOffset_next h).resolve_left hok.not_endsWithoutEffect
  have hu' {s' : State} (ha : AgreesButSlots s s') : hasSynth s' u kind r := by
    unfold hasSynth
    rwa [ha.cfg, ha.synths]
  rcases hnext with ⟨htarget, -⟩ | ⟨b, x, htarget, htest, -, -⟩
  · exact ⟨_, fun s' _ ha => ⟨_, execSynOffset_none (ha.sysFault.trans h0) (hu' ha) htarget,
      .of_respond s'⟩⟩
  · refine ⟨sharesOn b (synthShare s.cfg kind r ((s.buf b).toFixed ticks.toNat)
      (wrap32 (d.toInt * r.deltaFactor.toInt))), fun s' hs' ha => ?_⟩
    have htest' : synthTest s'.cfg kind r ticks (s'.buf b) = none := by
      rw [ha.cfg, ha.buf]
      exact htest
    have hpos : (s'.buf b).toFixed ticks.toNat = (s.buf b).toFixed ticks.toNat := by
      rw [ha.buf]
      rfl
    obtain ⟨x', hx', hmade⟩ := State.synthesize_deposits hs' (hu' ha) htest' d id
    rw [ha.cfg, hpos] at hx'
    exact ⟨_, (execSynOffset_some (ha.sysFault.trans h0) (hu' ha) htarget).trans hmade,
      .of_setBuf hx'⟩

theorem depositsAlike_of_ok
    (hi : (∃ b p d, i = .deposit b p d) ∨ ∃ u k x d, i = .synOffset u k x d)
    (h : exec i s = .next t) (hok : endsOk s t) : DepositsAlike i s := by
  rcases hi with ⟨b, p, d, rfl⟩ | ⟨u, k, x, d, rfl⟩
  · exact deposit_depositsAlike h hok
  · exact synOffset_depositsAlike h hok

/-- The deposit a command makes in `s` is the one that brought it to `t`. -/
theorem DepositsAlike.exists_shares (hs : s.Inv) (hi : DepositsAlike i s)
    (h : exec i s = .next t) : ∃ shares, s.Deposited t shares ∧
      ∀ s', s'.Inv → AgreesButSlots s s' → ∃ v, exec i s' = .next v ∧ s'.Deposited v shares := by
  obtain ⟨shares, hmakes⟩ := hi
  obtain ⟨t', ht', hdeposited⟩ := hmakes s hs (.refl s)
  cases h.symm.trans ht'
  exact ⟨shares, hdeposited, hmakes⟩

/-- Settles O49: each of the two makes after the other the deposit it makes first. -/
theorem depositsCommute : Obligations.DepositsCommute := by
  intro s t1 t2 i j hs hi hj h1 hok1 h2 hok2
  obtain ⟨f, hf, hmakesf⟩ := (depositsAlike_of_ok hi h1 hok1).exists_shares hs h1
  obtain ⟨g, hg, hmakesg⟩ := (depositsAlike_of_ok hj h2 hok2).exists_shares hs h2
  obtain ⟨v, hv, hgv⟩ := hmakesg t1 (exec_inv hs h1) hf.agrees
  obtain ⟨w, hw, hfw⟩ := hmakesf t2 (exec_inv hs h2) hg.agrees
  obtain rfl : v = w := hf.comm hgv hg hfw
  exact ⟨v, hv, hw⟩

end Sys2Proof.Machine
end
